-- ==== Sys2Proof/Word.lean ====
section
/-! DEFINITION. The word types of CORE (00_scope.md R4): 32-bit patterns, 8-bit bytes, 5-bit register indices. -/

namespace Sys2Proof

/-- A 32-bit pattern: a register, the pc, an address or an instruction word (00_scope.md R4, R7). -/
abbrev Word := BitVec 32

/-- An 8-bit byte (00_scope.md R4). -/
abbrev Byte := BitVec 8

/-- A register index: "a 5-bit field of the instruction word", so every index that can be named exists (10_state.md R21). -/
abbrev RegIdx := BitVec 5

end Sys2Proof
end

