-- ==== Sys2Proof/Syntax.lean ====
section
/-! DEFINITION. The instruction set as syntax: one constructor of `Instr` per row of opcode_table.json (00_scope.md R3), the
decoder's format tags, descriptor and answer (30_encoding.md R85, R88, R100, R112), and the register names (10_state.md R23). -/

namespace Sys2Proof

/-- The 46 recognised instructions. Operands are the fields of the word at their own widths: `imm` is the 12-bit I or S
immediate, `offset` the 13-bit B or 21-bit J immediate whose bit 0 is 0, `uimm20` the 20-bit U field, `shamt` the 5-bit
shift amount (30_encoding.md R91 to R96). -/
inductive Instr where
  /-- R141 -/
  | add (rd rs1 rs2 : RegIdx)
  /-- R142 -/
  | sub (rd rs1 rs2 : RegIdx)
  /-- R143 -/
  | sll (rd rs1 rs2 : RegIdx)
  /-- R144 -/
  | slt (rd rs1 rs2 : RegIdx)
  /-- R145 -/
  | sltu (rd rs1 rs2 : RegIdx)
  /-- R146 -/
  | xor (rd rs1 rs2 : RegIdx)
  /-- R147 -/
  | srl (rd rs1 rs2 : RegIdx)
  /-- R148 -/
  | sra (rd rs1 rs2 : RegIdx)
  /-- R149 -/
  | or (rd rs1 rs2 : RegIdx)
  /-- R150 -/
  | and (rd rs1 rs2 : RegIdx)
  /-- R161 -/
  | mul (rd rs1 rs2 : RegIdx)
  /-- R162 -/
  | mulh (rd rs1 rs2 : RegIdx)
  /-- R163 -/
  | mulhsu (rd rs1 rs2 : RegIdx)
  /-- R164 -/
  | mulhu (rd rs1 rs2 : RegIdx)
  /-- R165 -/
  | div (rd rs1 rs2 : RegIdx)
  /-- R166 -/
  | divu (rd rs1 rs2 : RegIdx)
  /-- R167 -/
  | rem (rd rs1 rs2 : RegIdx)
  /-- R168 -/
  | remu (rd rs1 rs2 : RegIdx)
  /-- R181 -/
  | addi (rd rs1 : RegIdx) (imm : BitVec 12)
  /-- R182 -/
  | slti (rd rs1 : RegIdx) (imm : BitVec 12)
  /-- R183 -/
  | sltiu (rd rs1 : RegIdx) (imm : BitVec 12)
  /-- R184 -/
  | xori (rd rs1 : RegIdx) (imm : BitVec 12)
  /-- R185 -/
  | ori (rd rs1 : RegIdx) (imm : BitVec 12)
  /-- R186 -/
  | andi (rd rs1 : RegIdx) (imm : BitVec 12)
  /-- R187 -/
  | slli (rd rs1 : RegIdx) (shamt : BitVec 5)
  /-- R188 -/
  | srli (rd rs1 : RegIdx) (shamt : BitVec 5)
  /-- R189 -/
  | srai (rd rs1 : RegIdx) (shamt : BitVec 5)
  /-- R201 -/
  | lb (rd rs1 : RegIdx) (imm : BitVec 12)
  /-- R202 -/
  | lh (rd rs1 : RegIdx) (imm : BitVec 12)
  /-- R203 -/
  | lw (rd rs1 : RegIdx) (imm : BitVec 12)
  /-- R204 -/
  | lbu (rd rs1 : RegIdx) (imm : BitVec 12)
  /-- R205 -/
  | lhu (rd rs1 : RegIdx) (imm : BitVec 12)
  /-- R207 -/
  | sb (rs2 rs1 : RegIdx) (imm : BitVec 12)
  /-- R208 -/
  | sh (rs2 rs1 : RegIdx) (imm : BitVec 12)
  /-- R209 -/
  | sw (rs2 rs1 : RegIdx) (imm : BitVec 12)
  /-- R221 -/
  | lui (rd : RegIdx) (uimm20 : BitVec 20)
  /-- R222 -/
  | auipc (rd : RegIdx) (uimm20 : BitVec 20)
  /-- R231 -/
  | jal (rd : RegIdx) (offset : BitVec 21)
  /-- R232 -/
  | jalr (rd rs1 : RegIdx) (imm : BitVec 12)
  /-- R235 -/
  | beq (rs1 rs2 : RegIdx) (offset : BitVec 13)
  /-- R236 -/
  | bne (rs1 rs2 : RegIdx) (offset : BitVec 13)
  /-- R237 -/
  | blt (rs1 rs2 : RegIdx) (offset : BitVec 13)
  /-- R238 -/
  | bge (rs1 rs2 : RegIdx) (offset : BitVec 13)
  /-- R239 -/
  | bltu (rs1 rs2 : RegIdx) (offset : BitVec 13)
  /-- R240 -/
  | bgeu (rs1 rs2 : RegIdx) (offset : BitVec 13)
  /-- R250; its `rd` and `rs1` bits are not examined (R111), so it has no operand -/
  | ecall
  deriving DecidableEq, Repr

/-- The format tags (30_encoding.md R88), with the eighth tag `unknown` of R100. -/
inductive Format where
  | r | i | s | b | u | j | system | unknown
  deriving DecidableEq, Repr

/-- The decoder's output for one word (30_encoding.md R85). -/
structure Descriptor where
  opcode    : BitVec 7
  rd        : RegIdx
  rs1       : RegIdx
  rs2       : RegIdx
  funct3    : BitVec 3
  funct7    : BitVec 7
  funct12   : BitVec 12
  immediate : Word
  format    : Format
  deriving DecidableEq, Repr

/-- The classification of a word: one of the 46 instructions or `unrecognised`, "an ordinary output value"
(30_encoding.md R112). -/
inductive Decoded where
  | instr (i : Instr)
  | unrecognised
  deriving DecidableEq, Repr

/-- One row of the opcode table: a word `w` is the row's instruction exactly when `w &&& mask = pattern`
(30_encoding.md section 6). -/
structure Row where
  mnemonic : String
  mask     : Word
  pattern  : Word
  deriving DecidableEq, Repr

/-- The ABI aliases of `x0` to `x31` in index order (10_state.md R23). They have no effect on the hardware. -/
def abiNames : List String :=
  ["zero", "ra", "sp", "gp", "tp", "t0", "t1", "t2", "s0", "s1", "a0", "a1", "a2", "a3", "a4", "a5"] ++
  ["a6", "a7", "s2", "s3", "s4", "s5", "s6", "s7", "s8", "s9", "s10", "s11", "t3", "t4", "t5", "t6"]

end Sys2Proof
end

