-- ==== Sys2Proof/Decode.lean ====
section
/-! DEFINITION. The decoder of CORE (30_encoding.md): bit-level primitives (R80 to R83), field extraction (R86), immediates
(R90 to R96), the descriptor (R85, R97, R100), the classification of every word (R101 to R112, R118), and after it the
encoder, written from the layouts of R88. The opcode, funct3 and funct7 numbers are the spec's (its G1 to G4; log 13). -/

namespace Sys2Proof

/-! ### Bit-level primitives -/

/-- `sext_N(v)`: the low `n` bits of `v` as an `n`-bit two's-complement number (00_scope.md R9, 30_encoding.md R82). -/
def sext (n : Nat) (v : Word) : Word := (v.setWidth n).signExtend 32

/-- `zext_N(v)`: the low `n` bits of `v`, the rest zero (00_scope.md R9). -/
def zext (n : Nat) (v : Word) : Word := (v.setWidth n).setWidth 32

/-- `extract_bits(value, hi, lo)`: bits `lo` to `hi`, right-justified; bounds in the wrong order are swapped; a bound above
31 is outside the contract and refused (`none`) (30_encoding.md R80, R81; log 11). -/
def extractBits (value : Word) (hi lo : Nat) : Option Word :=
  if hi ≤ 31 ∧ lo ≤ 31 then
    some (zext (max hi lo - min hi lo + 1) (value >>> min hi lo))
  else none

/-- `sign_extend(value, bits)`; `bits` outside 1 to 32 is outside the contract and refused (`none`)
(30_encoding.md R82, R83; log 11). -/
def signExtendBits (value : Word) (bits : Nat) : Option Word :=
  if 1 ≤ bits ∧ bits ≤ 32 then some (sext bits value) else none

/-! ### Field extraction (R86): all seven fields of every word -/

def fieldOpcode (w : Word) : BitVec 7 := w.extractLsb' 0 7
def fieldRd (w : Word) : RegIdx := w.extractLsb' 7 5
def fieldFunct3 (w : Word) : BitVec 3 := w.extractLsb' 12 3
def fieldRs1 (w : Word) : RegIdx := w.extractLsb' 15 5
def fieldRs2 (w : Word) : RegIdx := w.extractLsb' 20 5
def fieldFunct7 (w : Word) : BitVec 7 := w.extractLsb' 25 7
def fieldFunct12 (w : Word) : BitVec 12 := w.extractLsb' 20 12

/-! ### Immediates: the scattered bits put together (R90), then the five 32-bit values -/

/-- Bits of the I-immediate (R91). -/
def bitsI (w : Word) : BitVec 12 := w.extractLsb' 20 12
/-- Bits of the S-immediate (R92). -/
def bitsS (w : Word) : BitVec 12 := w.extractLsb' 25 7 ++ w.extractLsb' 7 5
/-- Bits of the B-immediate, bit 0 zero (R94). -/
def bitsB (w : Word) : BitVec 13 :=
  w.extractLsb' 31 1 ++ w.extractLsb' 7 1 ++ w.extractLsb' 25 6 ++ w.extractLsb' 8 4 ++ 0#1
/-- The 20-bit field `uimm20` (R95). -/
def bitsU (w : Word) : BitVec 20 := w.extractLsb' 12 20
/-- Bits of the J-immediate, bit 0 zero (R96). -/
def bitsJ (w : Word) : BitVec 21 :=
  w.extractLsb' 31 1 ++ w.extractLsb' 12 8 ++ w.extractLsb' 20 1 ++ w.extractLsb' 21 10 ++ 0#1
/-- The shift amount, the low 5 bits of the I-immediate (R93). -/
def bitsShamt (w : Word) : BitVec 5 := (bitsI w).extractLsb' 0 5

/-- `imm_i` from its 12 bits (R91). -/
def valueI (imm : BitVec 12) : Word := imm.signExtend 32
/-- `imm_s` from its 12 bits (R92). -/
def valueS (imm : BitVec 12) : Word := imm.signExtend 32
/-- `imm_b` from its 13 bits (R94). -/
def valueB (offset : BitVec 13) : Word := offset.signExtend 32
/-- `imm_u = uimm20 << 12`, shifted once (R95, 90_conflicts.md C1). -/
def valueU (uimm20 : BitVec 20) : Word := uimm20 ++ 0#12
/-- `imm_j` from its 21 bits (R96). -/
def valueJ (offset : BitVec 21) : Word := offset.signExtend 32

def immI (w : Word) : Word := valueI (bitsI w)
def immS (w : Word) : Word := valueS (bitsS w)
def immB (w : Word) : Word := valueB (bitsB w)
def immU (w : Word) : Word := valueU (bitsU w)
def immJ (w : Word) : Word := valueJ (bitsJ w)

/-! ### Format tag and descriptor -/

/-- OP (R100). -/
abbrev opOp : BitVec 7 := 0b0110011#7
/-- OP-IMM (R100). -/
abbrev opOpImm : BitVec 7 := 0b0010011#7
/-- LOAD (R100). -/
abbrev opLoad : BitVec 7 := 0b0000011#7
/-- JALR (R100). -/
abbrev opJalr : BitVec 7 := 0b1100111#7
/-- STORE (R100). -/
abbrev opStore : BitVec 7 := 0b0100011#7
/-- BRANCH (R100). -/
abbrev opBranch : BitVec 7 := 0b1100011#7
/-- LUI (R100). -/
abbrev opLui : BitVec 7 := 0b0110111#7
/-- AUIPC (R100). -/
abbrev opAuipc : BitVec 7 := 0b0010111#7
/-- JAL (R100). -/
abbrev opJal : BitVec 7 := 0b1101111#7
/-- SYSTEM (R100). -/
abbrev opSystem : BitVec 7 := 0b1110011#7

/-- The format tag, a function of the opcode alone (R100). -/
def formatOf (opcode : BitVec 7) : Format :=
  if opcode = opOp then .r
  else if opcode = opOpImm then .i
  else if opcode = opLoad then .i
  else if opcode = opJalr then .i
  else if opcode = opStore then .s
  else if opcode = opBranch then .b
  else if opcode = opLui then .u
  else if opcode = opAuipc then .u
  else if opcode = opJal then .j
  else if opcode = opSystem then .system
  else .unknown

/-- The one `immediate` of the descriptor (R97); zero for the formats that have none (log 12). -/
def immediateOf (w : Word) : Word :=
  match formatOf (fieldOpcode w) with
  | .i => immI w
  | .s => immS w
  | .b => immB w
  | .u => immU w
  | .j => immJ w
  | .r => 0
  | .system => 0
  | .unknown => 0

/-- The decoder's descriptor of a word, a pure function of the word (R85). -/
def describe (w : Word) : Descriptor :=
  { opcode := fieldOpcode w, rd := fieldRd w, rs1 := fieldRs1 w, rs2 := fieldRs2 w, funct3 := fieldFunct3 w,
    funct7 := fieldFunct7 w, funct12 := fieldFunct12 w, immediate := immediateOf w,
    format := formatOf (fieldOpcode w) }

/-! ### Classification (R101): what each opcode examines -/

/-- OP with `funct7 = 0000000` (R102). -/
def decodeOpBase (w : Word) : Decoded :=
  match fieldFunct3 w with
  | 0b000#3 => .instr (.add (fieldRd w) (fieldRs1 w) (fieldRs2 w))
  | 0b001#3 => .instr (.sll (fieldRd w) (fieldRs1 w) (fieldRs2 w))
  | 0b010#3 => .instr (.slt (fieldRd w) (fieldRs1 w) (fieldRs2 w))
  | 0b011#3 => .instr (.sltu (fieldRd w) (fieldRs1 w) (fieldRs2 w))
  | 0b100#3 => .instr (.xor (fieldRd w) (fieldRs1 w) (fieldRs2 w))
  | 0b101#3 => .instr (.srl (fieldRd w) (fieldRs1 w) (fieldRs2 w))
  | 0b110#3 => .instr (.or (fieldRd w) (fieldRs1 w) (fieldRs2 w))
  | 0b111#3 => .instr (.and (fieldRd w) (fieldRs1 w) (fieldRs2 w))
  | _ => .unrecognised

/-- OP with `funct7 = 0100000`: only `sub` and `sra` (R102). -/
def decodeOpAlt (w : Word) : Decoded :=
  match fieldFunct3 w with
  | 0b000#3 => .instr (.sub (fieldRd w) (fieldRs1 w) (fieldRs2 w))
  | 0b101#3 => .instr (.sra (fieldRd w) (fieldRs1 w) (fieldRs2 w))
  | _ => .unrecognised

/-- OP with `funct7 = 0000001`, the M extension: all eight `funct3` are assigned, so the last arm is dead (R103;
46_system.md R259). -/
def decodeOpM (w : Word) : Decoded :=
  match fieldFunct3 w with
  | 0b000#3 => .instr (.mul (fieldRd w) (fieldRs1 w) (fieldRs2 w))
  | 0b001#3 => .instr (.mulh (fieldRd w) (fieldRs1 w) (fieldRs2 w))
  | 0b010#3 => .instr (.mulhsu (fieldRd w) (fieldRs1 w) (fieldRs2 w))
  | 0b011#3 => .instr (.mulhu (fieldRd w) (fieldRs1 w) (fieldRs2 w))
  | 0b100#3 => .instr (.div (fieldRd w) (fieldRs1 w) (fieldRs2 w))
  | 0b101#3 => .instr (.divu (fieldRd w) (fieldRs1 w) (fieldRs2 w))
  | 0b110#3 => .instr (.rem (fieldRd w) (fieldRs1 w) (fieldRs2 w))
  | 0b111#3 => .instr (.remu (fieldRd w) (fieldRs1 w) (fieldRs2 w))
  | _ => .unrecognised

/-- OP: any other `funct7` is unrecognised (R104). -/
def decodeOp (w : Word) : Decoded :=
  if fieldFunct7 w = 0b0000000#7 then decodeOpBase w
  else if fieldFunct7 w = 0b0100000#7 then decodeOpAlt w
  else if fieldFunct7 w = 0b0000001#7 then decodeOpM w
  else .unrecognised

/-- OP-IMM: `funct7` is examined for the shifts only (R105; log 12). -/
def decodeOpImm (w : Word) : Decoded :=
  match fieldFunct3 w with
  | 0b000#3 => .instr (.addi (fieldRd w) (fieldRs1 w) (bitsI w))
  | 0b010#3 => .instr (.slti (fieldRd w) (fieldRs1 w) (bitsI w))
  | 0b011#3 => .instr (.sltiu (fieldRd w) (fieldRs1 w) (bitsI w))
  | 0b100#3 => .instr (.xori (fieldRd w) (fieldRs1 w) (bitsI w))
  | 0b110#3 => .instr (.ori (fieldRd w) (fieldRs1 w) (bitsI w))
  | 0b111#3 => .instr (.andi (fieldRd w) (fieldRs1 w) (bitsI w))
  | 0b001#3 =>
    if fieldFunct7 w = 0b0000000#7 then .instr (.slli (fieldRd w) (fieldRs1 w) (bitsShamt w)) else .unrecognised
  | 0b101#3 =>
    if fieldFunct7 w = 0b0000000#7 then .instr (.srli (fieldRd w) (fieldRs1 w) (bitsShamt w))
    else if fieldFunct7 w = 0b0100000#7 then .instr (.srai (fieldRd w) (fieldRs1 w) (bitsShamt w))
    else .unrecognised
  | _ => .unrecognised

/-- LOAD (R106). -/
def decodeLoad (w : Word) : Decoded :=
  match fieldFunct3 w with
  | 0b000#3 => .instr (.lb (fieldRd w) (fieldRs1 w) (bitsI w))
  | 0b001#3 => .instr (.lh (fieldRd w) (fieldRs1 w) (bitsI w))
  | 0b010#3 => .instr (.lw (fieldRd w) (fieldRs1 w) (bitsI w))
  | 0b100#3 => .instr (.lbu (fieldRd w) (fieldRs1 w) (bitsI w))
  | 0b101#3 => .instr (.lhu (fieldRd w) (fieldRs1 w) (bitsI w))
  | _ => .unrecognised

/-- STORE (R107). -/
def decodeStore (w : Word) : Decoded :=
  match fieldFunct3 w with
  | 0b000#3 => .instr (.sb (fieldRs2 w) (fieldRs1 w) (bitsS w))
  | 0b001#3 => .instr (.sh (fieldRs2 w) (fieldRs1 w) (bitsS w))
  | 0b010#3 => .instr (.sw (fieldRs2 w) (fieldRs1 w) (bitsS w))
  | _ => .unrecognised

/-- BRANCH (R108). -/
def decodeBranch (w : Word) : Decoded :=
  match fieldFunct3 w with
  | 0b000#3 => .instr (.beq (fieldRs1 w) (fieldRs2 w) (bitsB w))
  | 0b001#3 => .instr (.bne (fieldRs1 w) (fieldRs2 w) (bitsB w))
  | 0b100#3 => .instr (.blt (fieldRs1 w) (fieldRs2 w) (bitsB w))
  | 0b101#3 => .instr (.bge (fieldRs1 w) (fieldRs2 w) (bitsB w))
  | 0b110#3 => .instr (.bltu (fieldRs1 w) (fieldRs2 w) (bitsB w))
  | 0b111#3 => .instr (.bgeu (fieldRs1 w) (fieldRs2 w) (bitsB w))
  | _ => .unrecognised

/-- `jalr` (R110; log 12). -/
def decodeJalr (w : Word) : Decoded :=
  if fieldFunct3 w = 0b000#3 then .instr (.jalr (fieldRd w) (fieldRs1 w) (bitsI w)) else .unrecognised

/-- SYSTEM: `ecall` and nothing else; `rd` and `rs1` are not examined (R111; log 12). -/
def decodeSystem (w : Word) : Decoded :=
  if fieldFunct3 w = 0b000#3 ∧ fieldFunct12 w = 0b000000000000#12 then .instr .ecall else .unrecognised

/-- The classification of a word, total on all `2^32` words (R101 to R112, R118). -/
def decode (w : Word) : Decoded :=
  if fieldOpcode w = opOp then decodeOp w
  else if fieldOpcode w = opOpImm then decodeOpImm w
  else if fieldOpcode w = opLoad then decodeLoad w
  else if fieldOpcode w = opStore then decodeStore w
  else if fieldOpcode w = opBranch then decodeBranch w
  else if fieldOpcode w = opLui then .instr (.lui (fieldRd w) (bitsU w))
  else if fieldOpcode w = opAuipc then .instr (.auipc (fieldRd w) (bitsU w))
  else if fieldOpcode w = opJal then .instr (.jal (fieldRd w) (bitsJ w))
  else if fieldOpcode w = opJalr then decodeJalr w
  else if fieldOpcode w = opSystem then decodeSystem w
  else .unrecognised

/-! ### Bytes and words: the byte at the lowest address holds `bits[7:0]` (20_memory.md R54; log 12) -/

/-- The word whose bytes are `b0` (lowest address) to `b3`. -/
def wordOfBytes (b0 b1 b2 b3 : Byte) : Word := b3 ++ b2 ++ b1 ++ b0

/-- Byte `k` of a word, byte 0 being `bits[7:0]`. -/
def byteOfWord (w : Word) (k : Nat) : Byte := w.extractLsb' (8 * k) 8

/-- What the decoder reads from the bytes of an instruction word, lowest address first. -/
def decodeBytes (b0 b1 b2 b3 : Byte) : Decoded := decode (wordOfBytes b0 b1 b2 b3)

/-- The instruction the decoder reads from a row's word of `nbits` bits, given to it byte by byte as memory holds it. -/
def decodeTableWord (nbits w : Nat) : Option Instr :=
  let v : Word := BitVec.ofNat 32 (w % 2 ^ nbits)
  match decodeBytes (byteOfWord v 0) (byteOfWord v 1) (byteOfWord v 2) (byteOfWord v 3) with
  | .instr i => some i
  | .unrecognised => none

/-! ### Encoder: the layouts of R88 -/

def encodeR (funct7 : BitVec 7) (rs2 rs1 : RegIdx) (funct3 : BitVec 3) (rd : RegIdx) (opcode : BitVec 7) : Word :=
  funct7 ++ rs2 ++ rs1 ++ funct3 ++ rd ++ opcode

def encodeI (imm : BitVec 12) (rs1 : RegIdx) (funct3 : BitVec 3) (rd : RegIdx) (opcode : BitVec 7) : Word :=
  imm ++ rs1 ++ funct3 ++ rd ++ opcode

/-- The shift-immediate variant of the I format. -/
def encodeShift (funct7 : BitVec 7) (shamt : BitVec 5) (rs1 : RegIdx) (funct3 : BitVec 3) (rd : RegIdx) : Word :=
  funct7 ++ shamt ++ rs1 ++ funct3 ++ rd ++ opOpImm

def encodeS (imm : BitVec 12) (rs2 rs1 : RegIdx) (funct3 : BitVec 3) : Word :=
  imm.extractLsb' 5 7 ++ rs2 ++ rs1 ++ funct3 ++ imm.extractLsb' 0 5 ++ opStore

def encodeB (offset : BitVec 13) (rs2 rs1 : RegIdx) (funct3 : BitVec 3) : Word :=
  offset.extractLsb' 12 1 ++ offset.extractLsb' 5 6 ++ rs2 ++ rs1 ++ funct3 ++ offset.extractLsb' 1 4 ++
    offset.extractLsb' 11 1 ++ opBranch

def encodeU (uimm20 : BitVec 20) (rd : RegIdx) (opcode : BitVec 7) : Word :=
  uimm20 ++ rd ++ opcode

def encodeJ (offset : BitVec 21) (rd : RegIdx) : Word :=
  offset.extractLsb' 20 1 ++ offset.extractLsb' 1 10 ++ offset.extractLsb' 11 1 ++ offset.extractLsb' 12 8 ++ rd ++ opJal

/-- The word of an instruction; `ecall` is its canonical word `0x00000073` (46_system.md R250). -/
def encode : Instr → Word
  | .add rd rs1 rs2 => encodeR 0b0000000#7 rs2 rs1 0b000#3 rd opOp
  | .sub rd rs1 rs2 => encodeR 0b0100000#7 rs2 rs1 0b000#3 rd opOp
  | .sll rd rs1 rs2 => encodeR 0b0000000#7 rs2 rs1 0b001#3 rd opOp
  | .slt rd rs1 rs2 => encodeR 0b0000000#7 rs2 rs1 0b010#3 rd opOp
  | .sltu rd rs1 rs2 => encodeR 0b0000000#7 rs2 rs1 0b011#3 rd opOp
  | .xor rd rs1 rs2 => encodeR 0b0000000#7 rs2 rs1 0b100#3 rd opOp
  | .srl rd rs1 rs2 => encodeR 0b0000000#7 rs2 rs1 0b101#3 rd opOp
  | .sra rd rs1 rs2 => encodeR 0b0100000#7 rs2 rs1 0b101#3 rd opOp
  | .or rd rs1 rs2 => encodeR 0b0000000#7 rs2 rs1 0b110#3 rd opOp
  | .and rd rs1 rs2 => encodeR 0b0000000#7 rs2 rs1 0b111#3 rd opOp
  | .mul rd rs1 rs2 => encodeR 0b0000001#7 rs2 rs1 0b000#3 rd opOp
  | .mulh rd rs1 rs2 => encodeR 0b0000001#7 rs2 rs1 0b001#3 rd opOp
  | .mulhsu rd rs1 rs2 => encodeR 0b0000001#7 rs2 rs1 0b010#3 rd opOp
  | .mulhu rd rs1 rs2 => encodeR 0b0000001#7 rs2 rs1 0b011#3 rd opOp
  | .div rd rs1 rs2 => encodeR 0b0000001#7 rs2 rs1 0b100#3 rd opOp
  | .divu rd rs1 rs2 => encodeR 0b0000001#7 rs2 rs1 0b101#3 rd opOp
  | .rem rd rs1 rs2 => encodeR 0b0000001#7 rs2 rs1 0b110#3 rd opOp
  | .remu rd rs1 rs2 => encodeR 0b0000001#7 rs2 rs1 0b111#3 rd opOp
  | .addi rd rs1 imm => encodeI imm rs1 0b000#3 rd opOpImm
  | .slti rd rs1 imm => encodeI imm rs1 0b010#3 rd opOpImm
  | .sltiu rd rs1 imm => encodeI imm rs1 0b011#3 rd opOpImm
  | .xori rd rs1 imm => encodeI imm rs1 0b100#3 rd opOpImm
  | .ori rd rs1 imm => encodeI imm rs1 0b110#3 rd opOpImm
  | .andi rd rs1 imm => encodeI imm rs1 0b111#3 rd opOpImm
  | .slli rd rs1 shamt => encodeShift 0b0000000#7 shamt rs1 0b001#3 rd
  | .srli rd rs1 shamt => encodeShift 0b0000000#7 shamt rs1 0b101#3 rd
  | .srai rd rs1 shamt => encodeShift 0b0100000#7 shamt rs1 0b101#3 rd
  | .lb rd rs1 imm => encodeI imm rs1 0b000#3 rd opLoad
  | .lh rd rs1 imm => encodeI imm rs1 0b001#3 rd opLoad
  | .lw rd rs1 imm => encodeI imm rs1 0b010#3 rd opLoad
  | .lbu rd rs1 imm => encodeI imm rs1 0b100#3 rd opLoad
  | .lhu rd rs1 imm => encodeI imm rs1 0b101#3 rd opLoad
  | .sb rs2 rs1 imm => encodeS imm rs2 rs1 0b000#3
  | .sh rs2 rs1 imm => encodeS imm rs2 rs1 0b001#3
  | .sw rs2 rs1 imm => encodeS imm rs2 rs1 0b010#3
  | .lui rd uimm20 => encodeU uimm20 rd opLui
  | .auipc rd uimm20 => encodeU uimm20 rd opAuipc
  | .jal rd offset => encodeJ offset rd
  | .jalr rd rs1 imm => encodeI imm rs1 0b000#3 rd opJalr
  | .beq rs1 rs2 offset => encodeB offset rs2 rs1 0b000#3
  | .bne rs1 rs2 offset => encodeB offset rs2 rs1 0b001#3
  | .blt rs1 rs2 offset => encodeB offset rs2 rs1 0b100#3
  | .bge rs1 rs2 offset => encodeB offset rs2 rs1 0b101#3
  | .bltu rs1 rs2 offset => encodeB offset rs2 rs1 0b110#3
  | .bgeu rs1 rs2 offset => encodeB offset rs2 rs1 0b111#3
  | .ecall => encodeI 0b000000000000#12 0#5 0b000#3 0#5 opSystem

/-! ### The opcode table (section 6 of 30_encoding.md; opcode_table.json), transcribed row by row -/

/-- The row of an instruction: its mnemonic, the mask of its fixed bits and their values. -/
def Instr.row : Instr → Row
  | .add _ _ _ => ⟨"add", 0xFE00707F#32, 0x00000033#32⟩
  | .sub _ _ _ => ⟨"sub", 0xFE00707F#32, 0x40000033#32⟩
  | .sll _ _ _ => ⟨"sll", 0xFE00707F#32, 0x00001033#32⟩
  | .slt _ _ _ => ⟨"slt", 0xFE00707F#32, 0x00002033#32⟩
  | .sltu _ _ _ => ⟨"sltu", 0xFE00707F#32, 0x00003033#32⟩
  | .xor _ _ _ => ⟨"xor", 0xFE00707F#32, 0x00004033#32⟩
  | .srl _ _ _ => ⟨"srl", 0xFE00707F#32, 0x00005033#32⟩
  | .sra _ _ _ => ⟨"sra", 0xFE00707F#32, 0x40005033#32⟩
  | .or _ _ _ => ⟨"or", 0xFE00707F#32, 0x00006033#32⟩
  | .and _ _ _ => ⟨"and", 0xFE00707F#32, 0x00007033#32⟩
  | .mul _ _ _ => ⟨"mul", 0xFE00707F#32, 0x02000033#32⟩
  | .mulh _ _ _ => ⟨"mulh", 0xFE00707F#32, 0x02001033#32⟩
  | .mulhsu _ _ _ => ⟨"mulhsu", 0xFE00707F#32, 0x02002033#32⟩
  | .mulhu _ _ _ => ⟨"mulhu", 0xFE00707F#32, 0x02003033#32⟩
  | .div _ _ _ => ⟨"div", 0xFE00707F#32, 0x02004033#32⟩
  | .divu _ _ _ => ⟨"divu", 0xFE00707F#32, 0x02005033#32⟩
  | .rem _ _ _ => ⟨"rem", 0xFE00707F#32, 0x02006033#32⟩
  | .remu _ _ _ => ⟨"remu", 0xFE00707F#32, 0x02007033#32⟩
  | .addi _ _ _ => ⟨"addi", 0x0000707F#32, 0x00000013#32⟩
  | .slti _ _ _ => ⟨"slti", 0x0000707F#32, 0x00002013#32⟩
  | .sltiu _ _ _ => ⟨"sltiu", 0x0000707F#32, 0x00003013#32⟩
  | .xori _ _ _ => ⟨"xori", 0x0000707F#32, 0x00004013#32⟩
  | .ori _ _ _ => ⟨"ori", 0x0000707F#32, 0x00006013#32⟩
  | .andi _ _ _ => ⟨"andi", 0x0000707F#32, 0x00007013#32⟩
  | .slli _ _ _ => ⟨"slli", 0xFE00707F#32, 0x00001013#32⟩
  | .srli _ _ _ => ⟨"srli", 0xFE00707F#32, 0x00005013#32⟩
  | .srai _ _ _ => ⟨"srai", 0xFE00707F#32, 0x40005013#32⟩
  | .lb _ _ _ => ⟨"lb", 0x0000707F#32, 0x00000003#32⟩
  | .lh _ _ _ => ⟨"lh", 0x0000707F#32, 0x00001003#32⟩
  | .lw _ _ _ => ⟨"lw", 0x0000707F#32, 0x00002003#32⟩
  | .lbu _ _ _ => ⟨"lbu", 0x0000707F#32, 0x00004003#32⟩
  | .lhu _ _ _ => ⟨"lhu", 0x0000707F#32, 0x00005003#32⟩
  | .sb _ _ _ => ⟨"sb", 0x0000707F#32, 0x00000023#32⟩
  | .sh _ _ _ => ⟨"sh", 0x0000707F#32, 0x00001023#32⟩
  | .sw _ _ _ => ⟨"sw", 0x0000707F#32, 0x00002023#32⟩
  | .lui _ _ => ⟨"lui", 0x0000007F#32, 0x00000037#32⟩
  | .auipc _ _ => ⟨"auipc", 0x0000007F#32, 0x00000017#32⟩
  | .jal _ _ => ⟨"jal", 0x0000007F#32, 0x0000006F#32⟩
  | .jalr _ _ _ => ⟨"jalr", 0x0000707F#32, 0x00000067#32⟩
  | .beq _ _ _ => ⟨"beq", 0x0000707F#32, 0x00000063#32⟩
  | .bne _ _ _ => ⟨"bne", 0x0000707F#32, 0x00001063#32⟩
  | .blt _ _ _ => ⟨"blt", 0x0000707F#32, 0x00004063#32⟩
  | .bge _ _ _ => ⟨"bge", 0x0000707F#32, 0x00005063#32⟩
  | .bltu _ _ _ => ⟨"bltu", 0x0000707F#32, 0x00006063#32⟩
  | .bgeu _ _ _ => ⟨"bgeu", 0x0000707F#32, 0x00007063#32⟩
  | .ecall => ⟨"ecall", 0xFFF0707F#32, 0x00000073#32⟩

/-- The bits of an instruction's word that the decoder examines: all but `ecall`'s `rd` and `rs1` (R120). -/
def Instr.examinedBits : Instr → Word
  | .ecall => 0xFFF0707F#32
  | _ => 0xFFFFFFFF#32

/-! One instruction of each row, in the source's order (00_scope.md R3). -/

def sampleAlu : List Instr := [.add 0 0 0, .sub 0 0 0, .sll 0 0 0, .slt 0 0 0, .sltu 0 0 0, .xor 0 0 0, .srl 0 0 0, .sra 0 0 0, .or 0 0 0, .and 0 0 0]
def sampleMulDiv : List Instr := [.mul 0 0 0, .mulh 0 0 0, .mulhsu 0 0 0, .mulhu 0 0 0, .div 0 0 0, .divu 0 0 0, .rem 0 0 0, .remu 0 0 0]
def sampleAluImm : List Instr := [.addi 0 0 0, .slti 0 0 0, .sltiu 0 0 0, .xori 0 0 0, .ori 0 0 0, .andi 0 0 0, .slli 0 0 0, .srli 0 0 0, .srai 0 0 0]
def sampleMemory : List Instr := [.lb 0 0 0, .lh 0 0 0, .lw 0 0 0, .lbu 0 0 0, .lhu 0 0 0, .sb 0 0 0, .sh 0 0 0, .sw 0 0 0, .lui 0 0, .auipc 0 0, .jal 0 0, .jalr 0 0 0]
def sampleControl : List Instr := [.beq 0 0 0, .bne 0 0 0, .blt 0 0 0, .bge 0 0 0, .bltu 0 0 0, .bgeu 0 0 0, .ecall]

def sampleInstrs : List Instr := sampleAlu ++ sampleMulDiv ++ sampleAluImm ++ sampleMemory ++ sampleControl

/-- The 46 rows of the opcode table. -/
def opcodeRows : List Row := sampleInstrs.map Instr.row

end Sys2Proof
end

