-- ==== Sys2Proof/Config.lean ====
section
/-! DEFINITION. The parameters of 00_scope.md R5 that stay fixed during a run, and the free values of the model.
`ENTRY_ADDR`, `INPUT` and the contents of `MEM` are arguments of `State.resetWith`, the others are fields of `Config`.
A `Config` is carried in the state unchanged, so a statement about every state holds for every choice of the parameters. -/

namespace Sys2Proof.Machine

/-- The sizes of a Memory access: 1, 2 and 4 bytes (20_memory.md R50, R58). -/
inductive Width where
  | byte
  | half
  | word
  deriving DecidableEq, Repr

/-- Memory contents: (address, byte) pairs; the canonical form is `Memory.wf` (Machine/Ops.lean). -/
abbrev Memory := List Host.Cell

/-- A request CORE issues to `MEM`: a read, or a write with the low bits of the value (20_memory.md R50 to R52). -/
inductive MemRequest where
  | read  (width : Width) (addr : Word)
  | write (width : Width) (addr : Word) (value : Word)
  deriving DecidableEq, Repr

/-- "out-of-range address behavior (fault vs. silent wrap) is the collaborator's policy" (20_memory.md R57). -/
inductive OutOfRange where
  | refuse
  | wrap
  deriving DecidableEq, Repr

/-- The policy of a Memory that is a byte array (20_memory.md R55 to R57). The reference memory backs and serves all; another
may back a window only, and outside it refuse or wrap, and may refuse misaligned accesses. Log 3. -/
structure MemPolicy where
  /-- `some (base, size)`: the bytes at `base` up to `base + size - 1` are backed, no others -/
  window      : Option (Nat × Nat)
  /-- what an access outside the window does -/
  outOfRange  : OutOfRange
  /-- an access whose address is no multiple of its size is refused -/
  alignedOnly : Bool
  deriving DecidableEq, Repr

/-- The reference memory's policy: "Every access at every address succeeds" (20_memory.md R56). -/
def MemPolicy.reference : MemPolicy := { window := none, outOfRange := .refuse, alignedOnly := false }

/-- The parameter `MEM`, "any object with these six operations" (20_memory.md R50). Log 3. -/
inductive MemModel where
  /-- a byte array with a policy -/
  | array (policy : MemPolicy)
  /-- any other collaborator, reads with side effects included (20_memory.md R60): which requests it serves and what its reads
  answer are free functions of the object, of the image it was loaded with and of every request it has seen -/
  | other (object : Nat)
  deriving DecidableEq, Repr

end Sys2Proof.Machine

namespace Sys2Proof

/-- "The exit call number" substituted at end-of-input: 3 or 93, the source does not say which
(00_scope.md R5 `EXIT_NUM`; 46_system.md R257(a)). Log 5. -/
inductive ExitNum where
  | three
  | ninetyThree
  deriving DecidableEq, Repr

/-- What `x10` holds after service 1 met end-of-input (00_scope.md R5 `EOF_A0`, "policy"; 46_system.md R257(c)). Log 6. -/
inductive EofA0 where
  /-- "any value (a draw)": the spec's default -/
  | anyValue
  /-- the arm writes no `x10` -/
  | unchanged
  /-- the arm writes one value pinned for the run -/
  | pinned (v : Word)
  deriving DecidableEq, Repr

/-- The width of the retired-instruction counter: "positive integer or unbounded" (00_scope.md R5 `CNT_W`). Log 8. -/
inductive CntW where
  | unbounded
  | bits (w : Nat) (positive : 0 < w)
  deriving DecidableEq, Repr

/-- The parameters that a run keeps (00_scope.md R5). -/
structure Config where
  exitNum     : ExitNum
  eofHaltsNow : Bool
  eofA0       : EofA0
  traceEn     : Bool
  cntW        : CntW
  mem         : Machine.MemModel
  deriving DecidableEq, Repr

/-- The defaults the spec chooses in 00_scope.md R5. -/
def Config.specDefault : Config :=
  { exitNum := .three, eofHaltsNow := false, eofA0 := .anyValue, traceEn := true, cntW := .unbounded,
    mem := .array .reference }

/-- The free value of the `n`-th draw, "an arbitrary 32-bit value" (46_system.md R257(c)). It has no body: nothing can be
proved about which word it is. Log 6. -/
opaque Config.freeWord : Nat → Word

/-- What a counter of `w` bits reads after `n` iterations, `n` at least `2^w`: "what it does beyond that is not specified"
(10_state.md R33). It has no body. Log 8. -/
opaque Config.freeCount (w n : Nat) : Nat

/-- Whether the collaborator `object`, loaded with `image` and having seen the requests `seen`, serves the next request
(20_memory.md R57). It has no body. Log 3. -/
opaque Config.otherServes (object : Nat) (image : Machine.Memory) (seen : List Machine.MemRequest)
    (request : Machine.MemRequest) : Bool

/-- What that collaborator answers to the next read, of which the width's low bits reach CORE (20_memory.md R51). It has no
body. Log 3. -/
opaque Config.otherAnswer (object : Nat) (image : Machine.Memory) (seen : List Machine.MemRequest)
    (width : Machine.Width) (addr : Word) : Word

end Sys2Proof
end

