-- ==== Sys2Proof/Machine/State.lean ====
section
/-! DEFINITION. The state of a run (10_state.md R20), why a step can have no next state, and the state after reset (R36).
There are no flags, control registers, exception registers, modes or other register files (10_state.md R29 to R31;
60_exceptions.md R300, R310), hence no field for any. -/

namespace Sys2Proof.Machine

/-- The sequencer's two states (10_state.md R32). -/
inductive RunState where
  | running
  | halted
  deriving DecidableEq, Repr

/-- The three diagnostic categories (46_system.md R258); the third has no trigger (R259). -/
inductive DiagKind where
  | unrecognisedInstruction
  | unrecognisedSyscall
  | malformedMSubcase
  deriving DecidableEq, Repr

/-- A diagnostic record `(kind, pc, value)` (46_system.md R258; log 12). -/
structure DiagRecord where
  kind  : DiagKind
  pc    : Word
  value : Word
  deriving DecidableEq, Repr

/-- A trace record `(pc, word)` (48_sequencer.md R274). -/
structure TraceRecord where
  pc   : Word
  word : Word
  deriving DecidableEq, Repr

/-- One transaction of CORE with a collaborator (20_memory.md R50; 46_system.md R252, R253, R258; 48_sequencer.md R274).
A fetch is a word read like any other (48_sequencer.md R271). Log 10. -/
inductive Event where
  | memRead  (width : Width) (addr : Word) (value : Word)
  | memWrite (width : Width) (addr : Word) (value : Word)
  | inGet    (answer : Option Byte)
  | outPut   (byte : Byte)
  | diag     (record : DiagRecord)
  | trace    (record : TraceRecord)
  deriving DecidableEq, Repr

/-- The state of a run (10_state.md R20). The first seven fields are the spec's; `out`, `diag_log` and `trace_log` are
computed from `events`; `input` and `cfg` are parameters of 00_scope.md R5 that no step changes; `draws` and `memSeen` are
the model's. -/
structure State where
  /-- `x[1]` to `x[31]`, in this order; `x[0]` is no storage (R20, R22). Read and written through `State.x`, `State.setReg` -/
  regs     : Vector Word 31
  /-- the address of the instruction to fetch (R26) -/
  pc       : Word
  /-- `run_state` (R32) -/
  runState : RunState
  /-- iterations completed, the natural number of R33; what a counter of `CNT_W` bits reads is `State.count` (log 8) -/
  retired  : Nat
  /-- contents of `MEM` where it is a byte array, else the image it was loaded with (20_memory.md R50; log 3) -/
  mem      : Memory
  /-- `in_pos`, the next unread byte of `INPUT` (46_system.md R252) -/
  inPos    : Nat
  /-- every transaction with a collaborator, oldest first, in the order of 48_sequencer.md R273 (log 10) -/
  events   : List Event
  /-- the parameter `INPUT` (00_scope.md R5; log 4) -/
  input    : List Byte
  /-- the other parameters of 00_scope.md R5 (logs 3, 5, 6, 7, 8) -/
  cfg      : Config
  /-- how many free values have been drawn (log 6) -/
  draws    : Nat
  /-- the requests `MEM` has seen, oldest first, kept where it is no byte array: its answers may depend on them (log 3) -/
  memSeen  : List MemRequest
  deriving DecidableEq, Repr

/-- Why a step has no next state. Every reason is the spec's: "stuck or fault, never a value". -/
inductive Fault where
  /-- Raised by `step` when `run_state` is Halted: "`Halted` has no successor" (10_state.md R32, 48_sequencer.md R279). It is
  the end of a run, not an error. Safe: nothing happens there in the hardware either. Log 9. -/
  | halted
  /-- Raised by `step` when `MEM` refuses the fetch (20_memory.md R57). Never with the reference memory. Safe. Log 3. -/
  | fetchRefused (addr : Word)
  /-- Raised by the loads when `MEM` refuses the read (20_memory.md R57). Never with the reference memory. Safe. Log 3. -/
  | loadRefused (width : Width) (addr : Word)
  /-- Raised by the stores when `MEM` refuses the write (20_memory.md R57). Never with the reference memory. Safe. Log 3. -/
  | storeRefused (width : Width) (addr : Word)
  deriving DecidableEq, Repr

/-- Why an instruction has no meaning in the model. -/
inductive Refusal where
  /-- Raised by `exec` for an instruction not modelled yet; no arm of `exec` does. Safe. -/
  | notModelled (mnemonic : String)
  deriving DecidableEq, Repr

/-- Reset, the construction of the engine (10_state.md R36, 70_reset_and_hazards.md R330): registers zero, `pc` at the entry
address, Running, nothing retired, read or written; memory is what the loader placed. -/
def State.resetWith (cfg : Config) (entryAddr : Word) (image : Memory) (input : List Byte) : State :=
  { regs := Vector.replicate 31 0, pc := entryAddr, runState := .running, retired := 0, mem := image, inPos := 0,
    events := [], input := input, cfg := cfg, draws := 0, memSeen := [] }

/-- Reset with the spec's default parameters. DESIGN CHOICE for those it gives no default: entry address 0 (log 1), nothing
listed in memory (log 2), empty input (log 4). -/
def State.reset : State := State.resetWith .specDefault 0 [] []

/-- The byte a transaction writes to the output stream, if it is such a write. -/
def Event.outByte : Event → Option Byte
  | .memRead _ _ _ => none
  | .memWrite _ _ _ => none
  | .inGet _ => none
  | .outPut b => some b
  | .diag _ => none
  | .trace _ => none

/-- The diagnostic record a transaction emits, if it is one. -/
def Event.diagRecord : Event → Option DiagRecord
  | .memRead _ _ _ => none
  | .memWrite _ _ _ => none
  | .inGet _ => none
  | .outPut _ => none
  | .diag r => some r
  | .trace _ => none

/-- The trace record a transaction emits, if it is one. -/
def Event.traceRecord : Event → Option TraceRecord
  | .memRead _ _ _ => none
  | .memWrite _ _ _ => none
  | .inGet _ => none
  | .outPut _ => none
  | .diag _ => none
  | .trace r => some r

/-- The request a transaction makes of `MEM`, if it is one. -/
def Event.request : Event → Option MemRequest
  | .memRead width a _ => some (.read width a)
  | .memWrite width a v => some (.write width a v)
  | .inGet _ => none
  | .outPut _ => none
  | .diag _ => none
  | .trace _ => none

/-- `out`, the bytes written to the output stream so far (46_system.md R253). -/
def State.out (s : State) : List Byte := s.events.filterMap Event.outByte

/-- `diag_log`, the diagnostic records emitted so far (46_system.md R258). -/
def State.diagLog (s : State) : List DiagRecord := s.events.filterMap Event.diagRecord

/-- `trace_log`, the trace records emitted so far (48_sequencer.md R274). -/
def State.traceLog (s : State) : List TraceRecord := s.events.filterMap Event.traceRecord

end Sys2Proof.Machine
end

