-- ==== Sys2Proof/Machine/Ops.lean ====
section
/-! DEFINITION. The operations every instruction is built from: the register file, Memory, the streams, the diagnostic and
trace channels, the pc and the counter. There is no operation for taking an exception or returning from one: the hardware
"raises no synchronous exception and takes no trap" and has nothing to return from (60_exceptions.md R300, R305, R306); its
abnormal events are the diagnostics, `State.diag`. -/

namespace Sys2Proof.Machine

/-! ### Register file -/

/-- `x[i]`: register `i`; `x[0]` always reads 0 (10_state.md R21, R22). -/
def State.x (s : State) (r : RegIdx) : Word :=
  if r = 0#5 then 0#32 else s.regs[r.toNat - 1]'(by have := r.isLt; omega)

/-- `x[i] <- v`; for `i = 0` the write is discarded (10_state.md R22; log 12). -/
def State.setReg (s : State) (r : RegIdx) (v : Word) : State :=
  if r = 0#5 then s else { s with regs := s.regs.set (r.toNat - 1) v (by have := r.isLt; omega) }

/-! ### Memory contents: byte reads and writes -/

/-- What a byte that nothing lists reads as. DESIGN CHOICE 0x00 (log 2). -/
def Memory.unlisted : Byte := 0

/-- The canonical form: addresses inside the 32-bit space, strictly rising, no entry equal to what an unlisted address
reads as. -/
def Memory.wf (m : Memory) : Bool :=
  decide (m.Pairwise fun p q => p.1 < q.1) && m.all fun p => decide (p.1 < 2 ^ 32) && decide (p.2 ≠ Memory.unlisted)

/-- The byte at an address. -/
def Memory.read : Memory → Nat → Byte
  | [], _ => Memory.unlisted
  | (k, v) :: rest, a => if k = a then v else Memory.read rest a

/-- Lists the byte `b` at address `a`, keeping the addresses rising. -/
def Memory.insert : Memory → Nat → Byte → Memory
  | [], a, b => [(a, b)]
  | (k, v) :: rest, a, b =>
    if k = a then (a, b) :: rest
    else if a < k then (a, b) :: (k, v) :: rest
    else (k, v) :: Memory.insert rest a b

/-- Writes one byte; writing what an unlisted address reads as removes the entry. -/
def Memory.write (m : Memory) (a : Nat) (b : Byte) : Memory :=
  if b = Memory.unlisted then m.filter fun p => p.1 ≠ a else Memory.insert m a b

/-- `B[a + k mod 2^32]` (20_memory.md R54, R56). -/
def Memory.byteAt (m : Memory) (a : Word) : Byte := m.read a.toNat

/-- Sets `B[a]`. -/
def Memory.setByte (m : Memory) (a : Word) (b : Byte) : Memory := m.write a.toNat b

/-! ### The Memory contract (20_memory.md R50): one load and one store at three widths, little-endian (R54), any alignment (R56).
Byte `k` of an access at `a` is the byte at `loc (a + k)`, the address sum modulo 2^32; for the reference memory `loc` is the
identity. -/

/-- The number of bytes an access moves (20_memory.md R58). -/
def Width.bytes : Width → Nat
  | .byte => 1
  | .half => 2
  | .word => 4

/-- The value of the bytes of an access, the lowest first, as an unsigned number (20_memory.md R51, R54; log 12). -/
def assemble (width : Width) (b : Nat → Byte) : Word :=
  match width with
  | .byte => (b 0).setWidth 32
  | .half => (b 1 ++ b 0).setWidth 32
  | .word => wordOfBytes (b 0) (b 1) (b 2) (b 3)

def Memory.loadVia (m : Memory) (loc : Word → Word) (width : Width) (a : Word) : Word :=
  assemble width fun k => m.byteAt (loc (a + BitVec.ofNat 32 k))

/-- Sets the first `n` bytes of an access to the low bytes of `v`, the lowest first. Where two of them name one byte, in a
wrapping window smaller than the access, the later one stays. DESIGN CHOICE (log 3). -/
def Memory.storeBytes (m : Memory) (loc : Word → Word) (a v : Word) : Nat → Memory
  | 0 => m
  | n + 1 => (Memory.storeBytes m loc a v n).setByte (loc (a + BitVec.ofNat 32 n)) (byteOfWord v n)

def Memory.storeVia (m : Memory) (loc : Word → Word) (width : Width) (a v : Word) : Memory :=
  m.storeBytes loc a v width.bytes

/-- `MemRead(addr, n)` of the reference memory (20_memory.md R51, R56; log 12). -/
def Memory.load (m : Memory) (width : Width) (a : Word) : Word := m.loadVia id width a

/-- `MemWrite(addr, n, v)` of the reference memory: the low `8n` bits of `v` (20_memory.md R52, R56; log 12). -/
def Memory.store (m : Memory) (width : Width) (a v : Word) : Memory := m.storeVia id width a v

/-! ### What the parameter `MEM` does with a request (20_memory.md R55 to R57, R60; log 3) -/

/-- The byte of a byte array that an address names: outside a wrapping window, the one as many bytes past the base, modulo
the size (20_memory.md R57, "silent wrap"). DESIGN CHOICE: the form of the wrap, and that a window that runs past `2^32`
continues at address 0 (log 3). -/
def MemPolicy.locate (p : MemPolicy) (a : Word) : Word :=
  match p.window, p.outOfRange with
  | some (base, size), .wrap => BitVec.ofNat 32 (base + (a - BitVec.ofNat 32 base).toNat % size)
  | _, _ => a

/-- Whether a byte array serves an access of `n` bytes at `a` (20_memory.md R56, R57): every byte it touches is inside the
window, or the window wraps; and the address is a multiple of the size where the memory is strict. DESIGN CHOICE: a
wrapping window of size 0 refuses every access, a refusing one that runs past `2^32` does not continue at 0, and alignment
is asked of the address as issued (log 3). -/
def admits (p : MemPolicy) (width : Width) (a : Word) : Bool :=
  (match p.window, p.outOfRange with
    | none, _ => true
    | some (_, size), .wrap => decide (0 < size)
    | some (base, size), .refuse =>
      (List.range width.bytes).all fun k =>
        decide (base ≤ (a + BitVec.ofNat 32 k).toNat) && decide ((a + BitVec.ofNat 32 k).toNat < base + size)) &&
  (!p.alignedOnly || decide (a.toNat % width.bytes = 0))

/-- The byte of the state's memory that an address names. -/
def MemModel.locate (mem : MemModel) (a : Word) : Word :=
  match mem with
  | .array p => p.locate a
  | .other _ => a

/-- The requests among some transactions that `MEM` has to remember. -/
def MemModel.requests (mem : MemModel) (new : List Event) : List MemRequest :=
  match mem with
  | .array _ => []
  | .other _ => new.filterMap Event.request

/-- Whether `MEM` serves the read `MemRead(a, n)`. -/
def State.servesRead (s : State) (width : Width) (a : Word) : Bool :=
  match s.cfg.mem with
  | .array p => admits p width a
  | .other object => Config.otherServes object s.mem s.memSeen (.read width a)

/-- What `MEM` answers to that read: an `8n`-bit unsigned number (20_memory.md R51). -/
def State.answer (s : State) (width : Width) (a : Word) : Word :=
  match s.cfg.mem with
  | .array p => s.mem.loadVia p.locate width a
  | .other object => zext (8 * width.bytes) (Config.otherAnswer object s.mem s.memSeen width a)

/-- Whether `MEM` serves the write `MemWrite(a, n, v)`; only the low `8n` bits of `v` reach it (20_memory.md R52). -/
def State.servesWrite (s : State) (width : Width) (a v : Word) : Bool :=
  match s.cfg.mem with
  | .array p => admits p width a
  | .other object => Config.otherServes object s.mem s.memSeen (.write width a (zext (8 * width.bytes) v))

/-- The contents after that write; another collaborator keeps its own, by the requests it has seen. -/
def State.stored (s : State) (width : Width) (a v : Word) : Memory :=
  match s.cfg.mem with
  | .array p => s.mem.storeVia p.locate width a v
  | .other _ => s.mem

/-! ### Transactions with the collaborators -/

/-- A transaction: recorded (log 10), and seen by `MEM` where it is a request to it (log 3). -/
def State.emit (s : State) (e : Event) : State :=
  { s with events := s.events ++ [e], memSeen := s.memSeen ++ s.cfg.mem.requests [e] }

/-- Issues `MemRead(a, n)`: the value and the state after the request, or `none` where `MEM` refuses (20_memory.md R51, R57). -/
def State.memRead (s : State) (width : Width) (a : Word) : Option (Word × State) :=
  if s.servesRead width a then some (s.answer width a, s.emit (.memRead width a (s.answer width a))) else none

/-- Issues `MemWrite(a, n, v)`, or `none` where `MEM` refuses (20_memory.md R52, R57). Only the low `8n` bits of `v` reach
Memory. -/
def State.memWrite (s : State) (width : Width) (a : Word) (v : Word) : Option State :=
  if s.servesWrite width a v then
    some ({ s with mem := s.stored width a v }.emit (.memWrite width a (zext (8 * width.bytes) v)))
  else none

/-- `in_get()`: the next byte of `INPUT`, consumed, or `none` at end-of-input (46_system.md R252; log 4). -/
def State.inGet (s : State) : Option Byte × State :=
  match s.input[s.inPos]? with
  | some b => (some b, { s with inPos := s.inPos + 1 }.emit (.inGet (some b)))
  | none => (none, s.emit (.inGet none))

/-- `out_put(b)` (46_system.md R253). -/
def State.outPut (s : State) (b : Byte) : State := s.emit (.outPut b)

/-- `diag(kind, (pc, value))`, with the pc of the instruction that causes it (46_system.md R258). -/
def State.diag (s : State) (kind : DiagKind) (value : Word) : State :=
  s.emit (.diag { kind := kind, pc := s.pc, value := value })

/-- `halt` (46_system.md R254). -/
def State.halt (s : State) : State := { s with runState := .halted }

/-- An arbitrary word, fresh at each use (46_system.md R257(c); log 6). -/
def State.draw (s : State) : Word × State := (Config.freeWord s.draws, { s with draws := s.draws + 1 })

/-- `EXIT_NUM` as a word (46_system.md R257(a)). -/
def exitWord : ExitNum → Word
  | .three => 3
  | .ninetyThree => 93

/-! ### The pc and how an instruction completes (48_sequencer.md R276; the PC multiplexer, 45_jump_branch.md R242) -/

/-- `pc <- t`. -/
def State.jump (s : State) (t : Word) : State := { s with pc := t }

/-- `pc <- pc + 4`. -/
def State.advance (s : State) : State := s.jump (s.pc + 4)

/-- Completes an instruction that writes `rd` and sets no target. -/
def writeBack (rd : RegIdx) (v : Word) (s : State) : Host.Outcome State Fault Refusal :=
  .next (s.setReg rd v).advance

/-- Completes a jump: the link to `rd`, then the target (45_jump_branch.md R231, R232). -/
def linkAndJump (rd : RegIdx) (target : Word) (s : State) : Host.Outcome State Fault Refusal :=
  .next ((s.setReg rd (s.pc + 4)).jump target)

/-- Completes a branch (45_jump_branch.md R234). -/
def branchIf (taken : Bool) (offset : BitVec 13) (s : State) : Host.Outcome State Fault Refusal :=
  .next (if taken then s.jump (s.pc + valueB offset) else s.advance)

/-- Completes a load: one read, then the extended value to `rd`; the read is issued also for `rd = 0`
(43_load_store.md R200). -/
def loadInto (width : Width) (extend : Word → Word) (rd : RegIdx) (a : Word) (s : State) :
    Host.Outcome State Fault Refusal :=
  match s.memRead width a with
  | some (v, s') => writeBack rd (extend v) s'
  | none => .fault (.loadRefused width a)

/-- Completes a store: one write (43_load_store.md R206). -/
def storeTo (width : Width) (a : Word) (v : Word) (s : State) : Host.Outcome State Fault Refusal :=
  match s.memWrite width a v with
  | some s' => .next s'.advance
  | none => .fault (.storeRefused width a)

/-! ### The steps of an iteration around the instruction (48_sequencer.md R270) -/

/-- Step 1: `bits = MemRead(pc, 4)` (R271). -/
def State.fetch (s : State) : Option (Word × State) := s.memRead .word s.pc

/-- Step 3: the trace record, if `TRACE_EN` (R274; log 7). -/
def State.traced (s : State) (bits : Word) : State :=
  if s.cfg.traceEn then s.emit (.trace { pc := s.pc, word := bits }) else s

/-- Step 6: `retired <- retired + 1` (R277; logs 8, 12). -/
def State.retire (s : State) : State := { s with retired := s.retired + 1 }

/-- What the retired-instruction counter reads: exact for runs shorter than `2^CNT_W` iterations, a free value of its width
beyond that (10_state.md R33, `CNT_W`; log 8). -/
def State.count (s : State) : Nat :=
  match s.cfg.cntW with
  | .unbounded => s.retired
  | .bits w _ => if s.retired < 2 ^ w then s.retired else Config.freeCount w s.retired % 2 ^ w

/-- The run's result, "the count of instructions retired during the run — returned when the terminal state is reached"
(48_sequencer.md R280). -/
def State.result (s : State) : Option Nat :=
  match s.runState with
  | .running => none
  | .halted => some s.count

/-- Step 6 after step 4 and 5: counts an iteration that reached it. -/
def retireOutcome : Host.Outcome State Fault Refusal → Host.Outcome State Fault Refusal
  | .next s => .next s.retire
  | .fault f => .fault f
  | .refused r => .refused r

/-! ### The trace sink's text form (48_sequencer.md R274) -/

/-- A lower-case hexadecimal digit. -/
def hexDigit (n : Nat) : Char := if n < 10 then Char.ofNat (48 + n) else Char.ofNat (87 + n)

/-- Eight lower-case hexadecimal digits (`%08x`). -/
def hexWord (w : Word) : List Char := [7, 6, 5, 4, 3, 2, 1, 0].map fun k => hexDigit (w.extractLsb' (4 * k) 4).toNat

/-- `"PC: 0x%08x: Instruction: 0x%08x"`. -/
def TraceRecord.text (r : TraceRecord) : List Char :=
  ['P', 'C', ':', ' ', '0', 'x'] ++ hexWord r.pc ++
    [':', ' ', 'I', 'n', 's', 't', 'r', 'u', 'c', 't', 'i', 'o', 'n', ':', ' ', '0', 'x'] ++ hexWord r.word

/-! ### Placing an instruction where the next fetch reads it -/

/-- `s` with the word `w` where a byte array reads the word at `pc` (Step.lean's `withFetchWord`). -/
def State.placeWord (s : State) (w : Word) : State := { s with mem := s.mem.storeVia s.cfg.mem.locate .word s.pc w }

end Sys2Proof.Machine
end

