-- ==== Sys2Proof/Machine/Flags.lean ====
section
/-! DEFINITION. The hardware has no flags: "No instruction sets or reads a carry, overflow, zero or sign flag"
(10_state.md R29). Comparisons write 0 or 1 to a register or decide a branch directly, and this file holds them. -/

namespace Sys2Proof.Machine

/-- `s(a) < s(b)` (40_alu_rtype.md R144). -/
def lessSigned (a b : Word) : Bool := decide (a.toInt < b.toInt)

/-- `u(a) < u(b)` (40_alu_rtype.md R145). -/
def lessUnsigned (a b : Word) : Bool := decide (a.toNat < b.toNat)

/-- "`slt`/`sltu` write 0/1" (40_alu_rtype.md R140). -/
def boolWord (c : Bool) : Word := if c then 1 else 0

end Sys2Proof.Machine
end

