-- ==== Sys2Proof/Machine/Operands.lean ====
section
/-! DEFINITION. The operand forms: register with register, register with immediate, shift amounts, base with displacement,
pc with offset. All sums are modulo 2^32 (00_scope.md R7, 10_state.md R27). -/

namespace Sys2Proof.Machine

/-- A shift amount taken from a register: its low 5 bits only (40_alu_rtype.md R143, R152). -/
def shiftAmount (b : Word) : Nat := (b.extractLsb' 0 5).toNat

/-- The address of a load, `x[rs1] + imm_i` (43_load_store.md R200). -/
def loadAddr (s : State) (rs1 : RegIdx) (imm : BitVec 12) : Word := s.x rs1 + valueI imm

/-- The address of a store, `x[rs1] + imm_s` (43_load_store.md R206). -/
def storeAddr (s : State) (rs1 : RegIdx) (imm : BitVec 12) : Word := s.x rs1 + valueS imm

/-- The target of `jal`, `pc + imm_j` (45_jump_branch.md R231). -/
def jalTarget (s : State) (offset : BitVec 21) : Word := s.pc + valueJ offset

/-- The target of `jalr`, `(x[rs1] + imm_i) & 0xFFFFFFFE` (45_jump_branch.md R232). -/
def jalrTarget (s : State) (rs1 : RegIdx) (imm : BitVec 12) : Word := (s.x rs1 + valueI imm) &&& 0xFFFFFFFE#32

end Sys2Proof.Machine
end

