-- ==== Sys2Proof/Machine/Alu.lean ====
section
/-! DEFINITION. ALU register-register instructions (40_alu_rtype.md). Both operands are read before the write (R151). -/

namespace Sys2Proof.Machine

/-- `add`: sum modulo 2^32 (R141). -/
def execAdd (rd rs1 rs2 : RegIdx) (s : State) : Host.Outcome State Fault Refusal :=
  writeBack rd (s.x rs1 + s.x rs2) s

/-- `sub`: difference modulo 2^32 (R142). -/
def execSub (rd rs1 rs2 : RegIdx) (s : State) : Host.Outcome State Fault Refusal :=
  writeBack rd (s.x rs1 - s.x rs2) s

/-- `sll`: left shift by the low 5 bits (R143). -/
def execSll (rd rs1 rs2 : RegIdx) (s : State) : Host.Outcome State Fault Refusal :=
  writeBack rd (s.x rs1 <<< shiftAmount (s.x rs2)) s

/-- `slt`: signed comparison (R144). -/
def execSlt (rd rs1 rs2 : RegIdx) (s : State) : Host.Outcome State Fault Refusal :=
  writeBack rd (boolWord (lessSigned (s.x rs1) (s.x rs2))) s

/-- `sltu`: unsigned comparison (R145). -/
def execSltu (rd rs1 rs2 : RegIdx) (s : State) : Host.Outcome State Fault Refusal :=
  writeBack rd (boolWord (lessUnsigned (s.x rs1) (s.x rs2))) s

/-- `xor`: bitwise (R146). -/
def execXor (rd rs1 rs2 : RegIdx) (s : State) : Host.Outcome State Fault Refusal :=
  writeBack rd (s.x rs1 ^^^ s.x rs2) s

/-- `srl`: zero-filling right shift by the low 5 bits (R147). -/
def execSrl (rd rs1 rs2 : RegIdx) (s : State) : Host.Outcome State Fault Refusal :=
  writeBack rd (s.x rs1 >>> shiftAmount (s.x rs2)) s

/-- `sra`: sign-filling right shift by the low 5 bits (R148). -/
def execSra (rd rs1 rs2 : RegIdx) (s : State) : Host.Outcome State Fault Refusal :=
  writeBack rd ((s.x rs1).sshiftRight (shiftAmount (s.x rs2))) s

/-- `or`: bitwise (R149). -/
def execOr (rd rs1 rs2 : RegIdx) (s : State) : Host.Outcome State Fault Refusal :=
  writeBack rd (s.x rs1 ||| s.x rs2) s

/-- `and`: bitwise (R150). -/
def execAnd (rd rs1 rs2 : RegIdx) (s : State) : Host.Outcome State Fault Refusal :=
  writeBack rd (s.x rs1 &&& s.x rs2) s

end Sys2Proof.Machine
end

