-- ==== Sys2Proof/Machine/AluImm.lean ====
section
/-! DEFINITION. ALU register-immediate instructions (42_alu_imm.md): the operations of Machine/Alu.lean with the second operand
replaced by the sign-extended immediate, for the logical and unsigned ones too (R180). -/

namespace Sys2Proof.Machine

/-- `addi`: sum modulo 2^32 (R181). -/
def execAddi (rd rs1 : RegIdx) (imm : BitVec 12) (s : State) : Host.Outcome State Fault Refusal :=
  writeBack rd (s.x rs1 + valueI imm) s

/-- `slti`: signed comparison (R182). -/
def execSlti (rd rs1 : RegIdx) (imm : BitVec 12) (s : State) : Host.Outcome State Fault Refusal :=
  writeBack rd (boolWord (lessSigned (s.x rs1) (valueI imm))) s

/-- `sltiu`: unsigned comparison with the sign-extended immediate (R183). -/
def execSltiu (rd rs1 : RegIdx) (imm : BitVec 12) (s : State) : Host.Outcome State Fault Refusal :=
  writeBack rd (boolWord (lessUnsigned (s.x rs1) (valueI imm))) s

/-- `xori`: bitwise (R184). -/
def execXori (rd rs1 : RegIdx) (imm : BitVec 12) (s : State) : Host.Outcome State Fault Refusal :=
  writeBack rd (s.x rs1 ^^^ valueI imm) s

/-- `ori`: bitwise (R185). -/
def execOri (rd rs1 : RegIdx) (imm : BitVec 12) (s : State) : Host.Outcome State Fault Refusal :=
  writeBack rd (s.x rs1 ||| valueI imm) s

/-- `andi`: bitwise (R186). -/
def execAndi (rd rs1 : RegIdx) (imm : BitVec 12) (s : State) : Host.Outcome State Fault Refusal :=
  writeBack rd (s.x rs1 &&& valueI imm) s

/-- `slli`: left shift (R187). -/
def execSlli (rd rs1 : RegIdx) (shamt : BitVec 5) (s : State) : Host.Outcome State Fault Refusal :=
  writeBack rd (s.x rs1 <<< shamt.toNat) s

/-- `srli`: zero-filling right shift (R188). -/
def execSrli (rd rs1 : RegIdx) (shamt : BitVec 5) (s : State) : Host.Outcome State Fault Refusal :=
  writeBack rd (s.x rs1 >>> shamt.toNat) s

/-- `srai`: sign-filling right shift (R189). -/
def execSrai (rd rs1 : RegIdx) (shamt : BitVec 5) (s : State) : Host.Outcome State Fault Refusal :=
  writeBack rd ((s.x rs1).sshiftRight shamt.toNat) s

end Sys2Proof.Machine
end

