-- ==== Sys2Proof/Machine/Control.lean ====
section
/-! DEFINITION. Jumps and branches (45_jump_branch.md). No delay slot, no alignment check of a target (R230, R233). -/

namespace Sys2Proof.Machine

/-- `jal` (R231). -/
def execJal (rd : RegIdx) (offset : BitVec 21) (s : State) : Host.Outcome State Fault Refusal :=
  linkAndJump rd (jalTarget s offset) s

/-- `jalr`: the target is computed before the link is written (R232). -/
def execJalr (rd rs1 : RegIdx) (imm : BitVec 12) (s : State) : Host.Outcome State Fault Refusal :=
  linkAndJump rd (jalrTarget s rs1 imm) s

/-- `beq`: equal (R235). -/
def execBeq (rs1 rs2 : RegIdx) (offset : BitVec 13) (s : State) : Host.Outcome State Fault Refusal :=
  branchIf (decide (s.x rs1 = s.x rs2)) offset s

/-- `bne`: not equal (R236). -/
def execBne (rs1 rs2 : RegIdx) (offset : BitVec 13) (s : State) : Host.Outcome State Fault Refusal :=
  branchIf (decide (s.x rs1 ≠ s.x rs2)) offset s

/-- `blt`: signed less (R237). -/
def execBlt (rs1 rs2 : RegIdx) (offset : BitVec 13) (s : State) : Host.Outcome State Fault Refusal :=
  branchIf (lessSigned (s.x rs1) (s.x rs2)) offset s

/-- `bge`: signed greater or equal, the complement of `blt` (R238). -/
def execBge (rs1 rs2 : RegIdx) (offset : BitVec 13) (s : State) : Host.Outcome State Fault Refusal :=
  branchIf (!lessSigned (s.x rs1) (s.x rs2)) offset s

/-- `bltu`: unsigned less (R239). -/
def execBltu (rs1 rs2 : RegIdx) (offset : BitVec 13) (s : State) : Host.Outcome State Fault Refusal :=
  branchIf (lessUnsigned (s.x rs1) (s.x rs2)) offset s

/-- `bgeu`: unsigned greater or equal, the complement of `bltu` (R240). -/
def execBgeu (rs1 rs2 : RegIdx) (offset : BitVec 13) (s : State) : Host.Outcome State Fault Refusal :=
  branchIf (!lessUnsigned (s.x rs1) (s.x rs2)) offset s

end Sys2Proof.Machine
end

