-- ==== Sys2Proof/Machine/LoadStore.lean ====
section
/-! DEFINITION. Loads and stores (43_load_store.md): one addressing mode, base register plus sign-extended displacement; the base is not
modified; no alignment or access check by CORE (R200, R206; 20_memory.md R55). -/

namespace Sys2Proof.Machine

/-- `lb`: sign-extended byte (R201). -/
def execLb (rd rs1 : RegIdx) (imm : BitVec 12) (s : State) : Host.Outcome State Fault Refusal :=
  loadInto .byte (sext 8) rd (loadAddr s rs1 imm) s

/-- `lh`: sign-extended half-word (R202). -/
def execLh (rd rs1 : RegIdx) (imm : BitVec 12) (s : State) : Host.Outcome State Fault Refusal :=
  loadInto .half (sext 16) rd (loadAddr s rs1 imm) s

/-- `lw`: word (R203). -/
def execLw (rd rs1 : RegIdx) (imm : BitVec 12) (s : State) : Host.Outcome State Fault Refusal :=
  loadInto .word id rd (loadAddr s rs1 imm) s

/-- `lbu`: zero-extended byte (R204). -/
def execLbu (rd rs1 : RegIdx) (imm : BitVec 12) (s : State) : Host.Outcome State Fault Refusal :=
  loadInto .byte (zext 8) rd (loadAddr s rs1 imm) s

/-- `lhu`: zero-extended half-word (R205). -/
def execLhu (rd rs1 : RegIdx) (imm : BitVec 12) (s : State) : Host.Outcome State Fault Refusal :=
  loadInto .half (zext 16) rd (loadAddr s rs1 imm) s

/-- `sb`: the low byte of `rs2` (R207). -/
def execSb (rs2 rs1 : RegIdx) (imm : BitVec 12) (s : State) : Host.Outcome State Fault Refusal :=
  storeTo .byte (storeAddr s rs1 imm) (s.x rs2) s

/-- `sh`: the low half-word of `rs2` (R208). -/
def execSh (rs2 rs1 : RegIdx) (imm : BitVec 12) (s : State) : Host.Outcome State Fault Refusal :=
  storeTo .half (storeAddr s rs1 imm) (s.x rs2) s

/-- `sw`: the word of `rs2` (R209). -/
def execSw (rs2 rs1 : RegIdx) (imm : BitVec 12) (s : State) : Host.Outcome State Fault Refusal :=
  storeTo .word (storeAddr s rs1 imm) (s.x rs2) s

end Sys2Proof.Machine
end

