-- ==== Sys2Proof/Machine/MulDiv.lean ====
section
/-! DEFINITION. The multiply/divide unit (41_muldiv.md). Products and quotients are exact integers, narrowed at the end. No operand value
raises anything (R160); the result is there within the iteration (R171); the unit holds no state (10_state.md R31). -/

namespace Sys2Proof.Machine

/-- Bits 63 to 32 of an exact 64-bit product (R162 to R164). -/
def highWord (p : Int) : Word := (BitVec.ofInt 64 p).extractLsb' 32 32

/-- Signed quotient: -1 for divisor 0, the dividend for `0x80000000 / -1`, else the quotient rounded toward zero
(R165, R169). -/
def divSigned (a b : Word) : Word :=
  if b = 0 then 0xFFFFFFFF#32
  else if a = 0x80000000#32 ∧ b = 0xFFFFFFFF#32 then 0x80000000#32
  else BitVec.ofInt 32 (a.toInt.tdiv b.toInt)

/-- Unsigned quotient: all ones for divisor 0 (R166). -/
def divUnsigned (a b : Word) : Word :=
  if b = 0 then 0xFFFFFFFF#32 else BitVec.ofNat 32 (a.toNat / b.toNat)

/-- Signed remainder: the dividend for divisor 0, 0 for `0x80000000 rem -1` (R167, R169). -/
def remSigned (a b : Word) : Word :=
  if b = 0 then a
  else if a = 0x80000000#32 ∧ b = 0xFFFFFFFF#32 then 0
  else BitVec.ofInt 32 (a.toInt - b.toInt * a.toInt.tdiv b.toInt)

/-- Unsigned remainder: the dividend for divisor 0 (R168). -/
def remUnsigned (a b : Word) : Word :=
  if b = 0 then a else BitVec.ofNat 32 (a.toNat % b.toNat)

/-- `mul`: low 32 bits of the product (R161). -/
def execMul (rd rs1 rs2 : RegIdx) (s : State) : Host.Outcome State Fault Refusal :=
  writeBack rd (s.x rs1 * s.x rs2) s

/-- `mulh`: high word, signed by signed (R162). -/
def execMulh (rd rs1 rs2 : RegIdx) (s : State) : Host.Outcome State Fault Refusal :=
  writeBack rd (highWord ((s.x rs1).toInt * (s.x rs2).toInt)) s

/-- `mulhsu`: high word, signed `rs1` by unsigned `rs2` (R163). -/
def execMulhsu (rd rs1 rs2 : RegIdx) (s : State) : Host.Outcome State Fault Refusal :=
  writeBack rd (highWord ((s.x rs1).toInt * ((s.x rs2).toNat : Int))) s

/-- `mulhu`: high word, unsigned by unsigned (R164). -/
def execMulhu (rd rs1 rs2 : RegIdx) (s : State) : Host.Outcome State Fault Refusal :=
  writeBack rd (highWord (((s.x rs1).toNat : Int) * ((s.x rs2).toNat : Int))) s

/-- `div`: signed quotient (R165). -/
def execDiv (rd rs1 rs2 : RegIdx) (s : State) : Host.Outcome State Fault Refusal :=
  writeBack rd (divSigned (s.x rs1) (s.x rs2)) s

/-- `divu`: unsigned quotient (R166). -/
def execDivu (rd rs1 rs2 : RegIdx) (s : State) : Host.Outcome State Fault Refusal :=
  writeBack rd (divUnsigned (s.x rs1) (s.x rs2)) s

/-- `rem`: signed remainder (R167). -/
def execRem (rd rs1 rs2 : RegIdx) (s : State) : Host.Outcome State Fault Refusal :=
  writeBack rd (remSigned (s.x rs1) (s.x rs2)) s

/-- `remu`: unsigned remainder (R168). -/
def execRemu (rd rs1 rs2 : RegIdx) (s : State) : Host.Outcome State Fault Refusal :=
  writeBack rd (remUnsigned (s.x rs1) (s.x rs2)) s

end Sys2Proof.Machine
end

