-- ==== Sys2Proof/Machine/System.lean ====
section
/-! DEFINITION. The system call and unrecognised words (46_system.md). `ecall` is a service dispatch, not a trap (R250). -/

namespace Sys2Proof.Machine

/-- The service register `a7` and the argument and result register `a0` (R250, 10_state.md R23). -/
def regA7 : RegIdx := 17
def regA0 : RegIdx := 10

/-- What service 1 does to `x10` at end-of-input (R257(c), `EOF_A0`; log 6). -/
def eofResult (s : State) : State :=
  match s.cfg.eofA0 with
  | .anyValue => s.draw.2.setReg regA0 s.draw.1
  | .unchanged => s
  | .pinned v => s.setReg regA0 v

/-- Service 1 at end-of-input: `x[17] <- EXIT_NUM`, `x10` per `EOF_A0`, and the halt where `EOF_HALTS_NOW` (R257; logs 5, 6). -/
def serviceEof (s : State) : State :=
  let s' := eofResult (s.setReg regA7 (exitWord s.cfg.exitNum))
  if s.cfg.eofHaltsNow then s'.halt else s'

/-- Service 1, read one character into `x10`, zero-extended (R250, R252; log 12). -/
def serviceRead (s : State) : State :=
  match s.inGet with
  | (some c, s') => s'.setReg regA0 (c.setWidth 32)
  | (none, s') => serviceEof s'

/-- Service 2, write the low byte of `x10` (R250, R253). -/
def serviceWrite (s : State) : State := s.outPut ((s.x regA0).extractLsb' 0 8)

/-- The dispatch on all 32 bits of `x17` (R250, R251; log 12). -/
def service (s : State) : State :=
  if s.x regA7 = 1 then serviceRead s
  else if s.x regA7 = 2 then serviceWrite s
  else if s.x regA7 = 3 ∨ s.x regA7 = 93 then s.halt
  else s.diag .unrecognisedSyscall (s.x regA7)

/-- `ecall` (R250): the service, then `pc + 4` in every arm, the halting one too (R260; log 12). -/
def execEcall (s : State) : Host.Outcome State Fault Refusal :=
  Host.Outcome.next (service s).advance

/-- A word that is none of the 46 instructions: a category-1 diagnostic and `pc + 4`; the run goes on (R256, R261). -/
def execUnrecognised (bits : Word) (s : State) : Host.Outcome State Fault Refusal :=
  Host.Outcome.next (s.diag .unrecognisedInstruction bits).advance

end Sys2Proof.Machine
end

