-- ==== Sys2Proof/Machine/UpperImm.lean ====
section
/-! DEFINITION. Upper-immediate instructions (44_upper_imm.md). -/

namespace Sys2Proof.Machine

/-- `lui` (R221). -/
def execLui (rd : RegIdx) (uimm20 : BitVec 20) (s : State) : Host.Outcome State Fault Refusal :=
  writeBack rd (valueU uimm20) s

/-- `auipc`: `pc` is the address of the instruction itself (R222). -/
def execAuipc (rd : RegIdx) (uimm20 : BitVec 20) (s : State) : Host.Outcome State Fault Refusal :=
  writeBack rd (s.pc + valueU uimm20) s

end Sys2Proof.Machine
end

