-- ==== Sys2Proof/Machine/Step.lean ====
section
/-! DEFINITION. One iteration of the sequencer's loop as one step (48_sequencer.md R270, R278), and where an instruction is
placed so that the next step runs it. -/

namespace Sys2Proof.Machine

/-- Steps 4 and 5: the recognised instruction's meaning, or that of an unrecognised word (48_sequencer.md R275, R276). -/
def dispatch (bits : Word) (s : State) : Host.Outcome State Fault Refusal :=
  match decode bits with
  | .instr i => exec i s
  | .unrecognised => execUnrecognised bits s

/-- One iteration: fetch, decode, trace, execute with the pc update, count (R270). In `Halted` none begins (R279; log 9);
where `MEM` refuses the fetch the iteration does not complete (R271, 20_memory.md R57; log 3). -/
def step (s : State) : Host.Outcome State Fault Refusal :=
  match s.runState with
  | .halted => .fault .halted
  | .running =>
    match s.fetch with
    | none => .fault (.fetchRefused s.pc)
    | some (bits, s') => retireOutcome (dispatch bits (s'.traced bits))

/-- `s` with the instruction whose bits are `w` stored where `step` fetches next, at `pc` (log 1). -/
def State.withFetchWord (s : State) (nbits w : Nat) : State := s.placeWord (BitVec.ofNat 32 (w % 2 ^ nbits))

end Sys2Proof.Machine
end

