-- ==== Sys2Proof/Safety.lean ====
section
/-! DEFINITION. The terms the statements are made in: what an instruction may change, which registers it names, where the pc
goes, the invariant of a run, and the shape of a whole family's rule. They speak of the state through its accessors
(`State.x`, `Memory.byteAt`, `State.out`, ...), never through the operations the meanings are built from. -/

namespace Sys2Proof.Machine

/-! ### What a next state may differ in -/

/-- `t` is `s` but for the registers, the pc and the transactions `new`, which stand after the earlier ones; `MEM` has seen its
requests among them. -/
def KeepsRest (s t : State) (new : List Event) : Prop :=
  t.events = s.events ++ new ∧ t.mem = s.mem ∧ t.runState = s.runState ∧ t.retired = s.retired ∧ t.inPos = s.inPos ∧
    t.input = s.input ∧ t.cfg = s.cfg ∧ t.draws = s.draws ∧ t.memSeen = s.memSeen ++ s.cfg.mem.requests new

/-- `t` is `s` with `v` in register `rd` (nothing where `rd = 0`, and `x[0]` reads 0), the pc at `next` and the transactions
`new`; every other register, memory and everything else are unchanged. -/
def WritesRd (s t : State) (rd : RegIdx) (v next : Word) (new : List Event) : Prop :=
  (∀ r : RegIdx, t.x r = if r = 0 then 0 else if r = rd then v else s.x r) ∧ t.pc = next ∧ KeepsRest s t new

/-- `t` is `s` with the pc at `next` and the transactions `new`; no register is written. -/
def WritesNoReg (s t : State) (next : Word) (new : List Event) : Prop :=
  (∀ r : RegIdx, t.x r = s.x r) ∧ t.pc = next ∧ KeepsRest s t new

/-! ### The rule of one instruction: its encoding and its effect (the shape of R141 to R240) -/

/-- A register-register instruction: the R layout with these numbers decodes to it, and it completes in every state, writing
a value that stands in relation `f` to its two operands (R151, R160). -/
def RegRegRule (funct7 : BitVec 7) (funct3 : BitVec 3) (mk : RegIdx → RegIdx → RegIdx → Instr)
    (f : Word → Word → Word → Prop) : Prop :=
  ∀ (rd rs1 rs2 : RegIdx) (s : State),
    decode (funct7 ++ rs2 ++ rs1 ++ funct3 ++ rd ++ 0b0110011#7) = .instr (mk rd rs1 rs2) ∧
    ∃ t v, exec (mk rd rs1 rs2) s = .next t ∧ f (s.x rs1) (s.x rs2) v ∧ WritesRd s t rd v (s.pc + 4) []

/-- A register-immediate instruction: the I layout decodes to it, and it completes in every state, writing the function `f`
of its operand and of the immediate as a signed number. -/
def RegImmRule (funct3 : BitVec 3) (mk : RegIdx → RegIdx → BitVec 12 → Instr) (f : Word → Int → Word) : Prop :=
  ∀ (rd rs1 : RegIdx) (imm : BitVec 12) (s : State),
    decode (imm ++ rs1 ++ funct3 ++ rd ++ 0b0010011#7) = .instr (mk rd rs1 imm) ∧
    ∃ t, exec (mk rd rs1 imm) s = .next t ∧ WritesRd s t rd (f (s.x rs1) imm.toInt) (s.pc + 4) []

/-- A shift-immediate instruction. -/
def ShiftImmRule (funct7 : BitVec 7) (funct3 : BitVec 3) (mk : RegIdx → RegIdx → BitVec 5 → Instr)
    (f : Word → Nat → Word) : Prop :=
  ∀ (rd rs1 : RegIdx) (shamt : BitVec 5) (s : State),
    decode (funct7 ++ shamt ++ rs1 ++ funct3 ++ rd ++ 0b0010011#7) = .instr (mk rd rs1 shamt) ∧
    ∃ t, exec (mk rd rs1 shamt) s = .next t ∧ WritesRd s t rd (f (s.x rs1) shamt.toNat) (s.pc + 4) []

/-- A load of `n` bytes: the I layout decodes to it; where `MEM`, whatever it is, serves the read at `ea = x[rs1] + imm`, it
completes, having issued exactly one read, and writes the function `f` of the bytes of the answer, the lowest first; where
`MEM` is a byte array, these are the bytes that `ea`, `ea + 1`, ... name (the spec's D3, D4, logs 3, 12; under a wrapping
window the model's choice, log 3). -/
def LoadRule (funct3 : BitVec 3) (mk : RegIdx → RegIdx → BitVec 12 → Instr) (width : Width)
    (f : (Nat → Byte) → Word) : Prop :=
  ∀ (rd rs1 : RegIdx) (imm : BitVec 12) (s : State) (ea : Word), ea = BitVec.ofInt 32 ((s.x rs1).toNat + imm.toInt) →
    decode (imm ++ rs1 ++ funct3 ++ rd ++ 0b0000011#7) = .instr (mk rd rs1 imm) ∧
    (s.servesRead width ea = true →
      ∃ t, exec (mk rd rs1 imm) s = .next t ∧
        WritesRd s t rd (f fun k => BitVec.ofNat 8 ((s.answer width ea).toNat / 2 ^ (8 * k))) (s.pc + 4)
          [.memRead width ea (s.answer width ea)]) ∧
    (∀ p, s.cfg.mem = .array p → ∀ k < width.bytes,
      BitVec.ofNat 8 ((s.answer width ea).toNat / 2 ^ (8 * k)) = s.mem.byteAt (p.locate (ea + BitVec.ofNat 32 k)))

/-- A store of `n` bytes: the S layout decodes to it; where `MEM`, whatever it is, serves the write at `ea = x[rs1] + imm`, it
completes, no register is written, exactly one write is issued, and every byte is unchanged that no address `ea` to
`ea + n - 1` names. Where `MEM` is a byte array without a wrapping window, the `n` bytes from `ea` (modulo 2^32) become the low
bytes of `x[rs2]`, lowest first, and no others change (the spec's D3, D4; logs 3, 12); with one, the same of the bytes these addresses name (the
model's choice, log 3). -/
def StoreRule (funct3 : BitVec 3) (mk : RegIdx → RegIdx → BitVec 12 → Instr) (width : Width) (n : Nat) : Prop :=
  ∀ (rs2 rs1 : RegIdx) (imm : BitVec 12) (s : State) (ea : Word), ea = BitVec.ofInt 32 ((s.x rs1).toNat + imm.toInt) →
    decode (imm.extractLsb' 5 7 ++ rs2 ++ rs1 ++ funct3 ++ imm.extractLsb' 0 5 ++ 0b0100011#7) =
      .instr (mk rs2 rs1 imm) ∧
    (s.servesWrite width ea (s.x rs2) = true →
      ∃ t, exec (mk rs2 rs1 imm) s = .next t ∧
        (∀ a : Word, (∀ k < n, a ≠ s.cfg.mem.locate (ea + BitVec.ofNat 32 k)) → t.mem.byteAt a = s.mem.byteAt a) ∧
        (∀ p, s.cfg.mem = .array p → p.outOfRange = .refuse → ∀ a : Word, t.mem.byteAt a =
          if (a - ea).toNat < n then BitVec.ofNat 8 ((s.x rs2).toNat / 2 ^ (8 * (a - ea).toNat)) else s.mem.byteAt a) ∧
        (∀ p, s.cfg.mem = .array p → ∀ k < n,
          (∀ j < n, k < j → p.locate (ea + BitVec.ofNat 32 k) ≠ p.locate (ea + BitVec.ofNat 32 j)) →
          t.mem.byteAt (p.locate (ea + BitVec.ofNat 32 k)) = BitVec.ofNat 8 ((s.x rs2).toNat / 2 ^ (8 * k))) ∧
        (∀ r : RegIdx, t.x r = s.x r) ∧ t.pc = s.pc + 4 ∧
        KeepsRest s { t with mem := s.mem } [.memWrite width ea (BitVec.ofNat 32 ((s.x rs2).toNat % 2 ^ (8 * n)))])

/-- A branch: the B layout with an even offset decodes to it, and it completes in every state: `pc + offset` where the
condition holds of its two operands, `pc + 4` where it does not; it writes no register. -/
def BranchRule (funct3 : BitVec 3) (mk : RegIdx → RegIdx → BitVec 13 → Instr) (cond : Word → Word → Prop) : Prop :=
  ∀ (rs1 rs2 : RegIdx) (offset : BitVec 13) (s : State),
    (offset.toNat % 2 = 0 →
      decode (offset.extractLsb' 12 1 ++ offset.extractLsb' 5 6 ++ rs2 ++ rs1 ++ funct3 ++ offset.extractLsb' 1 4 ++
        offset.extractLsb' 11 1 ++ 0b1100011#7) = .instr (mk rs1 rs2 offset)) ∧
    ∃ t, exec (mk rs1 rs2 offset) s = .next t ∧
      (cond (s.x rs1) (s.x rs2) → WritesNoReg s t (BitVec.ofInt 32 (s.pc.toNat + offset.toInt)) []) ∧
      (¬ cond (s.x rs1) (s.x rs2) → WritesNoReg s t (s.pc + 4) [])

/-! ### Division as R169 describes it -/

/-- `q` and `r` are quotient and remainder of `a` by `b`, rounded toward zero: the remainder is smaller than the divisor and
has the dividend's sign or is zero (41_muldiv.md R169). -/
def TruncatedDivision (a b q r : Int) : Prop :=
  a = b * q + r ∧ |r| < |b| ∧ (0 ≤ a → 0 ≤ r) ∧ (a ≤ 0 → r ≤ 0)

/-! ### Register access (10_state.md R24) -/

end Sys2Proof.Machine

namespace Sys2Proof

/-- The registers an instruction may write (R24). -/
def Instr.dests : Instr → List RegIdx
  | .add rd _ _ => [rd]
  | .sub rd _ _ => [rd]
  | .sll rd _ _ => [rd]
  | .slt rd _ _ => [rd]
  | .sltu rd _ _ => [rd]
  | .xor rd _ _ => [rd]
  | .srl rd _ _ => [rd]
  | .sra rd _ _ => [rd]
  | .or rd _ _ => [rd]
  | .and rd _ _ => [rd]
  | .mul rd _ _ => [rd]
  | .mulh rd _ _ => [rd]
  | .mulhsu rd _ _ => [rd]
  | .mulhu rd _ _ => [rd]
  | .div rd _ _ => [rd]
  | .divu rd _ _ => [rd]
  | .rem rd _ _ => [rd]
  | .remu rd _ _ => [rd]
  | .addi rd _ _ => [rd]
  | .slti rd _ _ => [rd]
  | .sltiu rd _ _ => [rd]
  | .xori rd _ _ => [rd]
  | .ori rd _ _ => [rd]
  | .andi rd _ _ => [rd]
  | .slli rd _ _ => [rd]
  | .srli rd _ _ => [rd]
  | .srai rd _ _ => [rd]
  | .lb rd _ _ => [rd]
  | .lh rd _ _ => [rd]
  | .lw rd _ _ => [rd]
  | .lbu rd _ _ => [rd]
  | .lhu rd _ _ => [rd]
  | .sb _ _ _ => []
  | .sh _ _ _ => []
  | .sw _ _ _ => []
  | .lui rd _ => [rd]
  | .auipc rd _ => [rd]
  | .jal rd _ => [rd]
  | .jalr rd _ _ => [rd]
  | .beq _ _ _ => []
  | .bne _ _ _ => []
  | .blt _ _ _ => []
  | .bge _ _ _ => []
  | .bltu _ _ _ => []
  | .bgeu _ _ _ => []
  | .ecall => [10, 17]

/-- The registers an instruction may read (R24). -/
def Instr.sources : Instr → List RegIdx
  | .add _ rs1 rs2 => [rs1, rs2]
  | .sub _ rs1 rs2 => [rs1, rs2]
  | .sll _ rs1 rs2 => [rs1, rs2]
  | .slt _ rs1 rs2 => [rs1, rs2]
  | .sltu _ rs1 rs2 => [rs1, rs2]
  | .xor _ rs1 rs2 => [rs1, rs2]
  | .srl _ rs1 rs2 => [rs1, rs2]
  | .sra _ rs1 rs2 => [rs1, rs2]
  | .or _ rs1 rs2 => [rs1, rs2]
  | .and _ rs1 rs2 => [rs1, rs2]
  | .mul _ rs1 rs2 => [rs1, rs2]
  | .mulh _ rs1 rs2 => [rs1, rs2]
  | .mulhsu _ rs1 rs2 => [rs1, rs2]
  | .mulhu _ rs1 rs2 => [rs1, rs2]
  | .div _ rs1 rs2 => [rs1, rs2]
  | .divu _ rs1 rs2 => [rs1, rs2]
  | .rem _ rs1 rs2 => [rs1, rs2]
  | .remu _ rs1 rs2 => [rs1, rs2]
  | .addi _ rs1 _ => [rs1]
  | .slti _ rs1 _ => [rs1]
  | .sltiu _ rs1 _ => [rs1]
  | .xori _ rs1 _ => [rs1]
  | .ori _ rs1 _ => [rs1]
  | .andi _ rs1 _ => [rs1]
  | .slli _ rs1 _ => [rs1]
  | .srli _ rs1 _ => [rs1]
  | .srai _ rs1 _ => [rs1]
  | .lb _ rs1 _ => [rs1]
  | .lh _ rs1 _ => [rs1]
  | .lw _ rs1 _ => [rs1]
  | .lbu _ rs1 _ => [rs1]
  | .lhu _ rs1 _ => [rs1]
  | .sb rs2 rs1 _ => [rs1, rs2]
  | .sh rs2 rs1 _ => [rs1, rs2]
  | .sw rs2 rs1 _ => [rs1, rs2]
  | .lui _ _ => []
  | .auipc _ _ => []
  | .jal _ _ => []
  | .jalr _ rs1 _ => [rs1]
  | .beq rs1 rs2 _ => [rs1, rs2]
  | .bne rs1 rs2 _ => [rs1, rs2]
  | .blt rs1 rs2 _ => [rs1, rs2]
  | .bge rs1 rs2 _ => [rs1, rs2]
  | .bltu rs1 rs2 _ => [rs1, rs2]
  | .bgeu rs1 rs2 _ => [rs1, rs2]
  | .ecall => [10, 17]

/-- The format of an instruction's word (30_encoding.md R88, R100). -/
def Instr.format : Instr → Format
  | .add _ _ _ => .r
  | .sub _ _ _ => .r
  | .sll _ _ _ => .r
  | .slt _ _ _ => .r
  | .sltu _ _ _ => .r
  | .xor _ _ _ => .r
  | .srl _ _ _ => .r
  | .sra _ _ _ => .r
  | .or _ _ _ => .r
  | .and _ _ _ => .r
  | .mul _ _ _ => .r
  | .mulh _ _ _ => .r
  | .mulhsu _ _ _ => .r
  | .mulhu _ _ _ => .r
  | .div _ _ _ => .r
  | .divu _ _ _ => .r
  | .rem _ _ _ => .r
  | .remu _ _ _ => .r
  | .addi _ _ _ => .i
  | .slti _ _ _ => .i
  | .sltiu _ _ _ => .i
  | .xori _ _ _ => .i
  | .ori _ _ _ => .i
  | .andi _ _ _ => .i
  | .slli _ _ _ => .i
  | .srli _ _ _ => .i
  | .srai _ _ _ => .i
  | .lb _ _ _ => .i
  | .lh _ _ _ => .i
  | .lw _ _ _ => .i
  | .lbu _ _ _ => .i
  | .lhu _ _ _ => .i
  | .sb _ _ _ => .s
  | .sh _ _ _ => .s
  | .sw _ _ _ => .s
  | .lui _ _ => .u
  | .auipc _ _ => .u
  | .jal _ _ => .j
  | .jalr _ _ _ => .i
  | .beq _ _ _ => .b
  | .bne _ _ _ => .b
  | .blt _ _ _ => .b
  | .bge _ _ _ => .b
  | .bltu _ _ _ => .b
  | .bgeu _ _ _ => .b
  | .ecall => .system

/-- The 32-bit value of an instruction's immediate; for `srai` the selector bit 10 is part of it (30_encoding.md R91 to R97;
42_alu_imm.md R189). Zero for the formats that have none (R97; log 12). -/
def Instr.immediate : Instr → Word
  | .add _ _ _ => 0
  | .sub _ _ _ => 0
  | .sll _ _ _ => 0
  | .slt _ _ _ => 0
  | .sltu _ _ _ => 0
  | .xor _ _ _ => 0
  | .srl _ _ _ => 0
  | .sra _ _ _ => 0
  | .or _ _ _ => 0
  | .and _ _ _ => 0
  | .mul _ _ _ => 0
  | .mulh _ _ _ => 0
  | .mulhsu _ _ _ => 0
  | .mulhu _ _ _ => 0
  | .div _ _ _ => 0
  | .divu _ _ _ => 0
  | .rem _ _ _ => 0
  | .remu _ _ _ => 0
  | .addi _ _ imm => BitVec.ofInt 32 imm.toInt
  | .slti _ _ imm => BitVec.ofInt 32 imm.toInt
  | .sltiu _ _ imm => BitVec.ofInt 32 imm.toInt
  | .xori _ _ imm => BitVec.ofInt 32 imm.toInt
  | .ori _ _ imm => BitVec.ofInt 32 imm.toInt
  | .andi _ _ imm => BitVec.ofInt 32 imm.toInt
  | .slli _ _ shamt => BitVec.ofNat 32 shamt.toNat
  | .srli _ _ shamt => BitVec.ofNat 32 shamt.toNat
  | .srai _ _ shamt => BitVec.ofNat 32 (0x400 + shamt.toNat)
  | .lb _ _ imm => BitVec.ofInt 32 imm.toInt
  | .lh _ _ imm => BitVec.ofInt 32 imm.toInt
  | .lw _ _ imm => BitVec.ofInt 32 imm.toInt
  | .lbu _ _ imm => BitVec.ofInt 32 imm.toInt
  | .lhu _ _ imm => BitVec.ofInt 32 imm.toInt
  | .sb _ _ imm => BitVec.ofInt 32 imm.toInt
  | .sh _ _ imm => BitVec.ofInt 32 imm.toInt
  | .sw _ _ imm => BitVec.ofInt 32 imm.toInt
  | .lui _ u => BitVec.ofNat 32 (u.toNat * 2 ^ 12)
  | .auipc _ u => BitVec.ofNat 32 (u.toNat * 2 ^ 12)
  | .jal _ offset => BitVec.ofInt 32 offset.toInt
  | .jalr _ _ imm => BitVec.ofInt 32 imm.toInt
  | .beq _ _ offset => BitVec.ofInt 32 offset.toInt
  | .bne _ _ offset => BitVec.ofInt 32 offset.toInt
  | .blt _ _ offset => BitVec.ofInt 32 offset.toInt
  | .bge _ _ offset => BitVec.ofInt 32 offset.toInt
  | .bltu _ _ offset => BitVec.ofInt 32 offset.toInt
  | .bgeu _ _ offset => BitVec.ofInt 32 offset.toInt
  | .ecall => 0

end Sys2Proof

namespace Sys2Proof.Machine

/-- The selects of the PC multiplexer (45_jump_branch.md R242). -/
inductive PcSelect where
  | pcPlus4
  | pcJal (offset : BitVec 21)
  | pcBranch (offset : BitVec 13)
  | pcJalr (rs1 : RegIdx) (imm : BitVec 12)
  deriving DecidableEq, Repr

/-- A branch selects its target exactly when its condition is true (R242, 48_sequencer.md R276). -/
def selectBranch (taken : Bool) (offset : BitVec 13) : PcSelect := if taken then .pcBranch offset else .pcPlus4

/-- The select, from the instruction's kind and the branch condition alone (R242, 48_sequencer.md R276). -/
def pcSelect (i : Instr) (s : State) : PcSelect :=
  match i with
  | .add _ _ _ => .pcPlus4
  | .sub _ _ _ => .pcPlus4
  | .sll _ _ _ => .pcPlus4
  | .slt _ _ _ => .pcPlus4
  | .sltu _ _ _ => .pcPlus4
  | .xor _ _ _ => .pcPlus4
  | .srl _ _ _ => .pcPlus4
  | .sra _ _ _ => .pcPlus4
  | .or _ _ _ => .pcPlus4
  | .and _ _ _ => .pcPlus4
  | .mul _ _ _ => .pcPlus4
  | .mulh _ _ _ => .pcPlus4
  | .mulhsu _ _ _ => .pcPlus4
  | .mulhu _ _ _ => .pcPlus4
  | .div _ _ _ => .pcPlus4
  | .divu _ _ _ => .pcPlus4
  | .rem _ _ _ => .pcPlus4
  | .remu _ _ _ => .pcPlus4
  | .addi _ _ _ => .pcPlus4
  | .slti _ _ _ => .pcPlus4
  | .sltiu _ _ _ => .pcPlus4
  | .xori _ _ _ => .pcPlus4
  | .ori _ _ _ => .pcPlus4
  | .andi _ _ _ => .pcPlus4
  | .slli _ _ _ => .pcPlus4
  | .srli _ _ _ => .pcPlus4
  | .srai _ _ _ => .pcPlus4
  | .lb _ _ _ => .pcPlus4
  | .lh _ _ _ => .pcPlus4
  | .lw _ _ _ => .pcPlus4
  | .lbu _ _ _ => .pcPlus4
  | .lhu _ _ _ => .pcPlus4
  | .sb _ _ _ => .pcPlus4
  | .sh _ _ _ => .pcPlus4
  | .sw _ _ _ => .pcPlus4
  | .lui _ _ => .pcPlus4
  | .auipc _ _ => .pcPlus4
  | .jal _ offset => .pcJal offset
  | .jalr _ rs1 imm => .pcJalr rs1 imm
  | .beq rs1 rs2 offset => selectBranch (decide (s.x rs1 = s.x rs2)) offset
  | .bne rs1 rs2 offset => selectBranch (decide (s.x rs1 ≠ s.x rs2)) offset
  | .blt rs1 rs2 offset => selectBranch (decide ((s.x rs1).toInt < (s.x rs2).toInt)) offset
  | .bge rs1 rs2 offset => selectBranch (decide ((s.x rs1).toInt ≥ (s.x rs2).toInt)) offset
  | .bltu rs1 rs2 offset => selectBranch (decide ((s.x rs1).toNat < (s.x rs2).toNat)) offset
  | .bgeu rs1 rs2 offset => selectBranch (decide ((s.x rs1).toNat ≥ (s.x rs2).toNat)) offset
  | .ecall => .pcPlus4

/-- The next pc of a select, in exact arithmetic modulo 2^32; `jalr` clears bit 0 (R242). -/
def PcSelect.next (p : PcSelect) (s : State) : Word :=
  match p with
  | .pcPlus4 => BitVec.ofNat 32 (s.pc.toNat + 4)
  | .pcJal offset => BitVec.ofInt 32 (s.pc.toNat + offset.toInt)
  | .pcBranch offset => BitVec.ofInt 32 (s.pc.toNat + offset.toInt)
  | .pcJalr rs1 imm => BitVec.ofNat 32 ((BitVec.ofInt 32 ((s.x rs1).toNat + imm.toInt)).toNat / 2 * 2)

/-- The address a store is issued at, and how many bytes; `none` for an instruction that stores nothing (20_memory.md R58). -/
def storesTo (i : Instr) (s : State) : Option (Word × Nat) :=
  match i with
  | .add _ _ _ => none
  | .sub _ _ _ => none
  | .sll _ _ _ => none
  | .slt _ _ _ => none
  | .sltu _ _ _ => none
  | .xor _ _ _ => none
  | .srl _ _ _ => none
  | .sra _ _ _ => none
  | .or _ _ _ => none
  | .and _ _ _ => none
  | .mul _ _ _ => none
  | .mulh _ _ _ => none
  | .mulhsu _ _ _ => none
  | .mulhu _ _ _ => none
  | .div _ _ _ => none
  | .divu _ _ _ => none
  | .rem _ _ _ => none
  | .remu _ _ _ => none
  | .addi _ _ _ => none
  | .slti _ _ _ => none
  | .sltiu _ _ _ => none
  | .xori _ _ _ => none
  | .ori _ _ _ => none
  | .andi _ _ _ => none
  | .slli _ _ _ => none
  | .srli _ _ _ => none
  | .srai _ _ _ => none
  | .lb _ _ _ => none
  | .lh _ _ _ => none
  | .lw _ _ _ => none
  | .lbu _ _ _ => none
  | .lhu _ _ _ => none
  | .sb _ rs1 imm => some (BitVec.ofInt 32 ((s.x rs1).toNat + imm.toInt), 1)
  | .sh _ rs1 imm => some (BitVec.ofInt 32 ((s.x rs1).toNat + imm.toInt), 2)
  | .sw _ rs1 imm => some (BitVec.ofInt 32 ((s.x rs1).toNat + imm.toInt), 4)
  | .lui _ _ => none
  | .auipc _ _ => none
  | .jal _ _ => none
  | .jalr _ _ _ => none
  | .beq _ _ _ => none
  | .bne _ _ _ => none
  | .blt _ _ _ => none
  | .bge _ _ _ => none
  | .bltu _ _ _ => none
  | .bgeu _ _ _ => none
  | .ecall => none

/-- The read of a load at `x[rs1] + imm`. -/
def readAt (s : State) (width : Width) (rs1 : RegIdx) (imm : BitVec 12) : Event :=
  .memRead width (BitVec.ofInt 32 ((s.x rs1).toNat + imm.toInt))
    (s.answer width (BitVec.ofInt 32 ((s.x rs1).toNat + imm.toInt)))

/-- The write of a store at `x[rs1] + imm`: the low bits of `x[rs2]`. -/
def writeAt (s : State) (width : Width) (rs2 rs1 : RegIdx) (imm : BitVec 12) : Event :=
  .memWrite width (BitVec.ofInt 32 ((s.x rs1).toNat + imm.toInt))
    (BitVec.ofNat 32 ((s.x rs2).toNat % 2 ^ (8 * width.bytes)))

/-- The data accesses of an instruction in the state it acts on: one read of a load, one write of a store, none of any other (20_memory.md R58). -/
def dataAccess (i : Instr) (s : State) : List Event :=
  match i with
  | .add _ _ _ => []
  | .sub _ _ _ => []
  | .sll _ _ _ => []
  | .slt _ _ _ => []
  | .sltu _ _ _ => []
  | .xor _ _ _ => []
  | .srl _ _ _ => []
  | .sra _ _ _ => []
  | .or _ _ _ => []
  | .and _ _ _ => []
  | .mul _ _ _ => []
  | .mulh _ _ _ => []
  | .mulhsu _ _ _ => []
  | .mulhu _ _ _ => []
  | .div _ _ _ => []
  | .divu _ _ _ => []
  | .rem _ _ _ => []
  | .remu _ _ _ => []
  | .addi _ _ _ => []
  | .slti _ _ _ => []
  | .sltiu _ _ _ => []
  | .xori _ _ _ => []
  | .ori _ _ _ => []
  | .andi _ _ _ => []
  | .slli _ _ _ => []
  | .srli _ _ _ => []
  | .srai _ _ _ => []
  | .lb _ rs1 imm => [readAt s .byte rs1 imm]
  | .lh _ rs1 imm => [readAt s .half rs1 imm]
  | .lw _ rs1 imm => [readAt s .word rs1 imm]
  | .lbu _ rs1 imm => [readAt s .byte rs1 imm]
  | .lhu _ rs1 imm => [readAt s .half rs1 imm]
  | .sb rs2 rs1 imm => [writeAt s .byte rs2 rs1 imm]
  | .sh rs2 rs1 imm => [writeAt s .half rs2 rs1 imm]
  | .sw rs2 rs1 imm => [writeAt s .word rs2 rs1 imm]
  | .lui _ _ => []
  | .auipc _ _ => []
  | .jal _ _ => []
  | .jalr _ _ _ => []
  | .beq _ _ _ => []
  | .bne _ _ _ => []
  | .blt _ _ _ => []
  | .bge _ _ _ => []
  | .bltu _ _ _ => []
  | .bgeu _ _ _ => []
  | .ecall => []

/-- The same of whatever a word decodes to; an unrecognised word accesses nothing (46_system.md R256). -/
def dataAccessOf (d : Decoded) (s : State) : List Event :=
  match d with
  | .instr i => dataAccess i s
  | .unrecognised => []

/-! ### Free values -/

/-- Whether the instruction leaves a free value in `x10`: an `ecall` with service 1 at end-of-input, where `EOF_A0` is any value
(46_system.md R257(c); log 6). Two runs need not agree on it, whatever their draw counters. -/
abbrev DrawsA0 (i : Instr) (s : State) : Prop :=
  i = .ecall ∧ s.x 17 = 1 ∧ s.input[s.inPos]? = none ∧ s.cfg.eofA0 = .anyValue

/-! ### Runs -/

/-- `t` is reached from `s` by exactly `n` iterations, each of which completed (48_sequencer.md R270). -/
def Reaches : Nat → State → State → Prop
  | 0, s, t => t = s
  | n + 1, s, t => ∃ u, step s = .next u ∧ Reaches n u t

/-! ### The invariant of a run -/

/-- What holds of every state of a run that starts at a reset with a canonical memory image: memory keeps its canonical form;
the input index stays inside `INPUT` (46_system.md R252); no category-3 record was ever emitted (R259); one trace record per
iteration where tracing is on (48_sequencer.md R274); the output bytes, input bytes and diagnostics together are at most
one per iteration (48_sequencer.md R273, 46_system.md R258); and a `MEM` that is a byte array remembers no request. -/
def State.Inv (s : State) : Prop :=
  s.mem.wf = true ∧ s.inPos ≤ s.input.length ∧ (∀ d ∈ s.diagLog, d.kind ≠ .malformedMSubcase) ∧
    (s.cfg.traceEn = true → s.traceLog.length = s.retired) ∧
    s.out.length + s.inPos + s.diagLog.length ≤ s.retired ∧ (∀ p, s.cfg.mem = .array p → s.memSeen = [])

/-- Whether a transaction goes through Memory. -/
def Event.isMemory : Event → Bool
  | .memRead _ _ _ => true
  | .memWrite _ _ _ => true
  | .inGet _ => false
  | .outPut _ => false
  | .diag _ => false
  | .trace _ => false

end Sys2Proof.Machine
end

