-- ==== Sys2Proof/Certificates/Slice0/Obligations.lean ====
section
/-! DEFINITION. The statements about the model, each a reading of rules of spec/ (the cites stand in OBLIGATIONS.json). -/

open Sys2Proof Sys2Proof.Machine

/-! ### Decoder and encoder -/

/-- Every well-formed instruction, with every operand at every value its encoding admits, decodes back from its word. -/
def Obligations.EncodedInstructionDecodesBack : Prop :=
  ∀ i : Instr, i.wellFormed = true → decode (encode i) = .instr i

/-- A recognised word decodes to a well-formed instruction, whose encoding is the word itself in every bit the decoder
examines (all bits, but for `ecall`'s `rd` and `rs1`, R120). -/
def Obligations.DecodedWordEncodesBack : Prop :=
  ∀ (w : Word) (i : Instr), decode w = .instr i → i.wellFormed = true ∧ encode i = w &&& i.examinedBits

/-- The structured decoder is the opcode table: a word is a row's instruction exactly when `w &&& mask = pattern`, it is
unrecognised exactly when it satisfies no row, and it satisfies at most one. -/
def Obligations.ClassificationIsTheOpcodeTable : Prop :=
  ∀ w : Word,
    (∀ i, decode w = .instr i → i.row ∈ opcodeRows ∧ w &&& i.row.mask = i.row.pattern) ∧
    (∀ row ∈ opcodeRows, w &&& row.mask = row.pattern → ∃ i, decode w = .instr i ∧ i.row = row) ∧
    (decode w = .unrecognised ↔ ∀ row ∈ opcodeRows, w &&& row.mask ≠ row.pattern) ∧
    (∀ row ∈ opcodeRows, ∀ row' ∈ opcodeRows, w &&& row.mask = row.pattern → w &&& row'.mask = row'.pattern → row = row')

/-- Words written out from the encoding tables: one of every family (30_encoding.md R88, R102 to R111). -/
def Obligations.WrittenOutWordsDecode : Prop :=
  decode 0b0000000_00010_00001_000_00011_0110011#32 = .instr (.add 3 1 2) ∧
  decode 0b0000001_00010_00001_010_00011_0110011#32 = .instr (.mulhsu 3 1 2) ∧
  decode 0b100000000000_00110_000_00101_0010011#32 = .instr (.addi 5 6 0x800) ∧
  decode 0b0100000_00100_00110_101_00101_0010011#32 = .instr (.srai 5 6 4) ∧
  decode 0b111111111111_00110_000_00101_0000011#32 = .instr (.lb 5 6 0xFFF) ∧
  decode 0b0111111_00101_00110_010_11111_0100011#32 = .instr (.sw 5 6 0x7FF) ∧
  decode 0b11111111111111111111_00001_0110111#32 = .instr (.lui 1 0xFFFFF) ∧
  decode 0b1_1111111100_1_11111111_00001_1101111#32 = .instr (.jal 1 0x1FFFF8) ∧
  decode 0b000000000101_00110_000_00001_1100111#32 = .instr (.jalr 1 6 5) ∧
  decode 0b1_111111_00010_00001_000_1110_1_1100011#32 = .instr (.beq 1 2 0x1FFC) ∧
  decode 0b000000000000_00001_000_00001_1110011#32 = .instr .ecall ∧
  decode 0b000000000001_00000_000_00000_1110011#32 = .unrecognised

/-- `extract_bits` for every value and bounds: the inclusive range right-justified (R80), bounds swapped where they are in the
wrong order (R81), refused where one exceeds 31 (outside the contract, R81; the form of the refusal is the model's choice,
log 11). -/
def Obligations.ExtractBitsIsFloorAndRemainder : Prop :=
  ∀ (v : Word) (hi lo : Nat),
    (lo ≤ hi → hi ≤ 31 → extractBits v hi lo = some (BitVec.ofNat 32 (v.toNat / 2 ^ lo % 2 ^ (hi - lo + 1)))) ∧
    extractBits v lo hi = extractBits v hi lo ∧
    (31 < max hi lo → extractBits v hi lo = none)

/-- `sign_extend` for every value and width: the low bits read as two's complement (R82); identity at 32 (R83); refused outside
1 to 32 (outside the contract, R83; the form of the refusal is the model's choice, log 11); idempotent (R84), and it keeps the
low bits. -/
def Obligations.SignExtendIsTwosComplement : Prop :=
  ∀ (v : Word) (n : Nat),
    (1 ≤ n → n ≤ 32 → ∃ e, signExtendBits v n = some e ∧
      e.toInt = (if v.toNat % 2 ^ n < 2 ^ (n - 1) then (v.toNat % 2 ^ n : Int) else (v.toNat % 2 ^ n : Int) - 2 ^ n) ∧
      e.toNat % 2 ^ n = v.toNat % 2 ^ n ∧ signExtendBits e n = some e ∧ (n = 32 → e = v)) ∧
    (n = 0 ∨ 32 < n → signExtendBits v n = none)

/-- The seven fields of every word are its bits at the stated places, and six of them put together are the word. -/
def Obligations.FieldsCoverTheWord : Prop :=
  ∀ w : Word,
    w = fieldFunct7 w ++ fieldRs2 w ++ fieldRs1 w ++ fieldFunct3 w ++ fieldRd w ++ fieldOpcode w ∧
    fieldFunct12 w = fieldFunct7 w ++ fieldRs2 w ∧
    extractBits w 6 0 = some ((fieldOpcode w).setWidth 32) ∧ extractBits w 11 7 = some ((fieldRd w).setWidth 32) ∧
    extractBits w 14 12 = some ((fieldFunct3 w).setWidth 32) ∧ extractBits w 19 15 = some ((fieldRs1 w).setWidth 32) ∧
    extractBits w 24 20 = some ((fieldRs2 w).setWidth 32) ∧ extractBits w 31 25 = some ((fieldFunct7 w).setWidth 32) ∧
    extractBits w 31 20 = some ((fieldFunct12 w).setWidth 32)

/-- The I, S, B, U and J immediates of every word, bit by bit (R91, R92, R94, R96); that the U immediate is the upper 20 bits in
place is the spec's own decision (R95, D7; log 12). -/
def Obligations.ImmediatesBitByBit : Prop :=
  ∀ (w : Word) (k : Nat), k < 32 →
    (immI w).getLsbD k = (if k < 12 then w.getLsbD (k + 20) else w.getLsbD 31) ∧
    (immS w).getLsbD k =
      (if k < 5 then w.getLsbD (k + 7) else if k < 12 then w.getLsbD (k + 20) else w.getLsbD 31) ∧
    (immB w).getLsbD k =
      (if k = 0 then false else if k < 5 then w.getLsbD (k + 7) else if k < 11 then w.getLsbD (k + 20)
       else if k = 11 then w.getLsbD 7 else w.getLsbD 31) ∧
    (immU w).getLsbD k = (if k < 12 then false else w.getLsbD k) ∧
    (immJ w).getLsbD k =
      (if k = 0 then false else if k < 11 then w.getLsbD (k + 20) else if k = 11 then w.getLsbD 20
       else if k < 20 then w.getLsbD k else w.getLsbD 31)

/-- The instruction the decoder hands on has the format and the immediate of the descriptor of its word; zero for the formats
that have no immediate is the spec's decision (R97, D8; log 12). -/
def Obligations.DecodedInstructionMatchesTheDescriptor : Prop :=
  ∀ (w : Word) (i : Instr), decode w = .instr i →
    (describe w).format = i.format ∧ (describe w).immediate = i.immediate

/-! ### State, reset, register file -/

/-- Reset for every choice of the parameters: every register reads 0, `pc` is the entry address, Running, nothing retired,
read, written or recorded; memory is the loader's image. The stream indices and logs are the spec's decision (R36, D26; log
12); that `MEM` has seen no request is the model's choice, for a field of its own (`memSeen`, log 3). -/
def Obligations.ResetLeavesTheStatedValues : Prop :=
  ∀ (cfg : Config) (entry : Word) (image : Memory) (input : List Byte),
    let s := State.resetWith cfg entry image input
    (∀ r : RegIdx, s.x r = 0) ∧ s.pc = entry ∧ s.runState = .running ∧ s.retired = 0 ∧ s.mem = image ∧ s.inPos = 0 ∧
      s.out = [] ∧ s.diagLog = [] ∧ s.traceLog = [] ∧ s.input = input ∧ s.cfg = cfg ∧ s.memSeen = [] ∧ s.result = none

/-- `x[i]` is the value last written to it, no write to another register changes it, and a write to `x[0]` changes
no state (10_state.md section 2; the spec's D30, log 12). -/
def Obligations.RegisterReadsTheLastWrite : Prop :=
  ∀ (s : State) (r q : RegIdx) (v : Word),
    (s.setReg r v).x q = (if q = 0 then 0 else if q = r then v else s.x q) ∧ s.setReg 0 v = s ∧
      KeepsRest s (s.setReg r v) [] ∧ (s.setReg r v).pc = s.pc

/-! ### Memory -/

/-- In the reference memory half-words and words are their bytes, lowest address least significant, addresses modulo 2^32, at
any alignment. The byte order and the service of every access are the spec's decisions (D3, D4, D5; logs 3, 12). -/
def Obligations.ReadsAreLittleEndian : Prop :=
  ∀ (m : Memory) (a : Word),
    (m.load .byte a).toNat = (m.byteAt a).toNat ∧
    (m.load .half a).toNat = (m.byteAt a).toNat + 2 ^ 8 * (m.byteAt (BitVec.ofNat 32 (a.toNat + 1))).toNat ∧
    (m.load .word a).toNat = (m.byteAt a).toNat + 2 ^ 8 * (m.byteAt (BitVec.ofNat 32 (a.toNat + 1))).toNat +
      2 ^ 16 * (m.byteAt (BitVec.ofNat 32 (a.toNat + 2))).toNat +
      2 ^ 24 * (m.byteAt (BitVec.ofNat 32 (a.toNat + 3))).toNat

/-- In the reference memory a write of `n` bytes sets exactly the `n` bytes from its address (modulo 2^32), lowest first, and
nothing else (the spec's decisions D3, D4, D5; logs 3, 12). -/
def Obligations.WritesSetExactlyTheirBytes : Prop :=
  ∀ (m : Memory) (width : Width) (a v c : Word),
    (m.store width a v).byteAt c =
      if (c - a).toNat < width.bytes then BitVec.ofNat 8 (v.toNat / 2 ^ (8 * (c - a).toNat)) else m.byteAt c

/-- A narrow access at `k` bytes into a wide one, of every width, value, address and offset that fits (the same width at offset 0
included): it reads those bytes of what the wide write stored, and a narrow write there changes those bytes of what a wide read
gives and no others (R61, derived; the spec's decisions D3, D4; logs 3, 12). -/
def Obligations.MixedWidthAccessSeesBytes : Prop :=
  ∀ (m : Memory) (wide narrow : Width) (a v : Word) (k : Nat), k + narrow.bytes ≤ wide.bytes →
    (m.store wide a v).load narrow (a + BitVec.ofNat 32 k) =
      BitVec.ofNat 32 (v.toNat / 2 ^ (8 * k) % 2 ^ (8 * narrow.bytes)) ∧
    ∀ j < 32, ((m.store narrow (a + BitVec.ofNat 32 k) v).load wide a).getLsbD j =
      if 8 * k ≤ j ∧ j < 8 * (k + narrow.bytes) then v.getLsbD (j - 8 * k) else (m.load wide a).getLsbD j

/-- Where `MEM`, whatever it is, refuses the access, a load or a store does not complete: it stops by name, also for `rd = 0`. What
a refusal does is the spec's reading (R57, D5) in the model's form (log 3). -/
def Obligations.RefusedAccessStops : Prop :=
  ∀ (s : State) (rd rs1 rs2 : RegIdx) (imm : BitVec 12) (ea : Word), ea = BitVec.ofInt 32 ((s.x rs1).toNat + imm.toInt) →
    (s.servesRead .byte ea = false →
      exec (.lb rd rs1 imm) s = .fault (.loadRefused .byte ea) ∧ exec (.lbu rd rs1 imm) s = .fault (.loadRefused .byte ea)) ∧
    (s.servesWrite .byte ea (s.x rs2) = false → exec (.sb rs2 rs1 imm) s = .fault (.storeRefused .byte ea)) ∧
    (s.servesRead .half ea = false →
      exec (.lh rd rs1 imm) s = .fault (.loadRefused .half ea) ∧ exec (.lhu rd rs1 imm) s = .fault (.loadRefused .half ea)) ∧
    (s.servesWrite .half ea (s.x rs2) = false → exec (.sh rs2 rs1 imm) s = .fault (.storeRefused .half ea)) ∧
    (s.servesRead .word ea = false → exec (.lw rd rs1 imm) s = .fault (.loadRefused .word ea)) ∧
    (s.servesWrite .word ea (s.x rs2) = false → exec (.sw rs2 rs1 imm) s = .fault (.storeRefused .word ea))

/-- A byte array with a wrapping window that is not empty and stands inside the address space: every address names a byte
of the window, and an address inside it names its own byte; an address at or past the base and the one the window's size
further, where that too is inside the address space, name one byte; an access is served exactly where alignment is not
asked for or its address is a multiple of its width (20_memory.md R57, "silent wrap"; the form of the wrap is the model's
choice, log 3). -/
def Obligations.WrappingMemoryStaysInside : Prop :=
  ∀ (p : MemPolicy) (base size : Nat) (width : Width) (a : Word), p.window = some (base, size) → p.outOfRange = .wrap →
    0 < size → base + size ≤ 2 ^ 32 →
    (base ≤ (p.locate a).toNat ∧ (p.locate a).toNat < base + size) ∧
    (base ≤ a.toNat → a.toNat < base + size → p.locate a = a) ∧
    (base ≤ a.toNat → a.toNat + size < 2 ^ 32 → p.locate (a + BitVec.ofNat 32 size) = p.locate a) ∧
    (admits p width a = true ↔ p.alignedOnly = false ∨ a.toNat % width.bytes = 0)

/-! ### ALU and multiply/divide unit -/

/-- `add` and `sub` on every operand pair, modulo 2^32. -/
def Obligations.AddAndSubWrap : Prop :=
  RegRegRule 0b0000000#7 0b000#3 .add (fun a b v => v = BitVec.ofNat 32 (a.toNat + b.toNat)) ∧
  RegRegRule 0b0100000#7 0b000#3 .sub (fun a b v => v = BitVec.ofInt 32 (a.toInt - b.toInt))

/-- `sll`, `srl`, `sra`: by the low 5 bits of the second operand. -/
def Obligations.ShiftsUseTheLowFiveBits : Prop :=
  RegRegRule 0b0000000#7 0b001#3 .sll (fun a b v => v = BitVec.ofNat 32 (a.toNat * 2 ^ (b.toNat % 32))) ∧
  RegRegRule 0b0000000#7 0b101#3 .srl (fun a b v => v = BitVec.ofNat 32 (a.toNat / 2 ^ (b.toNat % 32))) ∧
  RegRegRule 0b0100000#7 0b101#3 .sra (fun a b v => v = BitVec.ofInt 32 (Int.fdiv a.toInt (2 ^ (b.toNat % 32))))

/-- `slt` and `sltu` write 1 or 0, by the signed and the unsigned order. -/
def Obligations.SetLessThanWritesZeroOrOne : Prop :=
  RegRegRule 0b0000000#7 0b010#3 .slt (fun a b v => (a.toInt < b.toInt → v = 1) ∧ (b.toInt ≤ a.toInt → v = 0)) ∧
  RegRegRule 0b0000000#7 0b011#3 .sltu (fun a b v => (a.toNat < b.toNat → v = 1) ∧ (b.toNat ≤ a.toNat → v = 0))

/-- `xor`, `or`, `and`, bit by bit. -/
def Obligations.LogicIsBitwise : Prop :=
  RegRegRule 0b0000000#7 0b100#3 .xor (fun a b v => ∀ k, v.getLsbD k = xor (a.getLsbD k) (b.getLsbD k)) ∧
  RegRegRule 0b0000000#7 0b110#3 .or (fun a b v => ∀ k, v.getLsbD k = (a.getLsbD k || b.getLsbD k)) ∧
  RegRegRule 0b0000000#7 0b111#3 .and (fun a b v => ∀ k, v.getLsbD k = (a.getLsbD k && b.getLsbD k))

/-- `mul`: the low word of the product; `mulh`, `mulhsu`, `mulhu`: bits 63 to 32 of the exact product. -/
def Obligations.MultiplyGivesLowAndHighWords : Prop :=
  RegRegRule 0b0000001#7 0b000#3 .mul (fun a b v => v = BitVec.ofInt 32 (a.toInt * b.toInt)) ∧
  RegRegRule 0b0000001#7 0b001#3 .mulh (fun a b v => v = BitVec.ofInt 32 (Int.fdiv (a.toInt * b.toInt) (2 ^ 32))) ∧
  RegRegRule 0b0000001#7 0b010#3 .mulhsu (fun a b v => v = BitVec.ofInt 32 (Int.fdiv (a.toInt * b.toNat) (2 ^ 32))) ∧
  RegRegRule 0b0000001#7 0b011#3 .mulhu (fun a b v => v = BitVec.ofNat 32 (a.toNat * b.toNat / 2 ^ 32))

/-- `div` and `rem` on every operand pair: the two edge cases as stated, else quotient and remainder rounded toward zero. The
rounding is the spec's own decision (41_muldiv.md R169, D13; log 13). -/
def Obligations.SignedDivisionTruncates : Prop :=
  RegRegRule 0b0000001#7 0b100#3 .div (fun a b v =>
    (b = 0 → v = 0xFFFFFFFF#32) ∧ (a = 0x80000000#32 → b = 0xFFFFFFFF#32 → v = 0x80000000#32) ∧
    (b ≠ 0 → ¬ (a = 0x80000000#32 ∧ b = 0xFFFFFFFF#32) → ∃ r, TruncatedDivision a.toInt b.toInt v.toInt r)) ∧
  RegRegRule 0b0000001#7 0b110#3 .rem (fun a b v =>
    (b = 0 → v = a) ∧ (a = 0x80000000#32 → b = 0xFFFFFFFF#32 → v = 0) ∧
    (b ≠ 0 → ¬ (a = 0x80000000#32 ∧ b = 0xFFFFFFFF#32) → ∃ q, TruncatedDivision a.toInt b.toInt q v.toInt))

/-- `divu` and `remu` on every operand pair. -/
def Obligations.UnsignedDivisionFloors : Prop :=
  RegRegRule 0b0000001#7 0b101#3 .divu (fun a b v =>
    (b = 0 → v = 0xFFFFFFFF#32) ∧ (b ≠ 0 → ∃ r, a.toNat = b.toNat * v.toNat + r ∧ r < b.toNat)) ∧
  RegRegRule 0b0000001#7 0b111#3 .remu (fun a b v =>
    (b = 0 → v = a) ∧ (b ≠ 0 → ∃ q, a.toNat = b.toNat * q + v.toNat ∧ v.toNat < b.toNat))

/-- In every row of the division table the divisor times the quotient plus the remainder is the dividend modulo 2^32, with the
quotient and remainder the instructions write. -/
def Obligations.QuotientAndRemainderRecombine : Prop :=
  ∀ (s : State) (rd rs1 rs2 : RegIdx), rd ≠ 0 →
    (∃ t t', exec (.div rd rs1 rs2) s = .next t ∧ exec (.rem rd rs1 rs2) s = .next t' ∧
      s.x rs2 * t.x rd + t'.x rd = s.x rs1) ∧
    (∃ t t', exec (.divu rd rs1 rs2) s = .next t ∧ exec (.remu rd rs1 rs2) s = .next t' ∧
      s.x rs2 * t.x rd + t'.x rd = s.x rs1)

/-- `addi`, `slti`, `sltiu`: the immediate sign-extended to 32 bits first, for the unsigned comparison too. -/
def Obligations.ImmediateArithmeticAndCompare : Prop :=
  RegImmRule 0b000#3 .addi (fun a imm => BitVec.ofInt 32 (a.toInt + imm)) ∧
  RegImmRule 0b010#3 .slti (fun a imm => if a.toInt < imm then 1 else 0) ∧
  RegImmRule 0b011#3 .sltiu (fun a imm => if (a.toNat : Int) < imm % 2 ^ 32 then 1 else 0)

/-- `xori`, `ori`, `andi` with the sign-extended immediate. -/
def Obligations.ImmediateLogic : Prop :=
  RegImmRule 0b100#3 .xori (fun a imm => a ^^^ BitVec.ofInt 32 imm) ∧
  RegImmRule 0b110#3 .ori (fun a imm => a ||| BitVec.ofInt 32 imm) ∧
  RegImmRule 0b111#3 .andi (fun a imm => a &&& BitVec.ofInt 32 imm)

/-- `slli`, `srli`, `srai` by the 5-bit amount of the word; a word of `slli` with bits 31:25 not all zero is unrecognised. -/
def Obligations.ImmediateShifts : Prop :=
  ShiftImmRule 0b0000000#7 0b001#3 .slli (fun a n => BitVec.ofNat 32 (a.toNat * 2 ^ n)) ∧
  ShiftImmRule 0b0000000#7 0b101#3 .srli (fun a n => BitVec.ofNat 32 (a.toNat / 2 ^ n)) ∧
  ShiftImmRule 0b0100000#7 0b101#3 .srai (fun a n => BitVec.ofInt 32 (Int.fdiv a.toInt (2 ^ n))) ∧
  (∀ w : Word, fieldOpcode w = 0b0010011#7 → fieldFunct3 w = 0b001#3 → fieldFunct7 w ≠ 0 → decode w = .unrecognised)

/-! ### Loads and stores -/

/-- The five loads: address, one read, extension, register write, frame, for every `MEM` that serves the read (R200 to
R205; the read is issued for `rd = 0` too, the spec's decision D20; log 12). That the bytes of the answer are those of a
byte array at `ea`, `ea + 1`, ..., lowest first and at any alignment, is the spec's decision (D3, D4; logs 3, 12); which
bytes these addresses name under a wrapping window is the model's choice (log 3). -/
def Obligations.LoadsExtendWhatMemoryHolds : Prop :=
  LoadRule 0b000#3 .lb .byte (fun b => BitVec.ofInt 32 (b 0).toInt) ∧
  LoadRule 0b001#3 .lh .half (fun b => BitVec.ofInt 32 ((b 0).toNat + 2 ^ 8 * (b 1).toInt)) ∧
  LoadRule 0b010#3 .lw .word
    (fun b => BitVec.ofNat 32 ((b 0).toNat + 2 ^ 8 * (b 1).toNat + 2 ^ 16 * (b 2).toNat + 2 ^ 24 * (b 3).toNat)) ∧
  LoadRule 0b100#3 .lbu .byte (fun b => BitVec.ofNat 32 (b 0).toNat) ∧
  LoadRule 0b101#3 .lhu .half (fun b => BitVec.ofNat 32 ((b 0).toNat + 2 ^ 8 * (b 1).toNat))

/-- The three stores: address, one write, no register written, for every `MEM` that serves the write (R206 to R209). That
it sets exactly the bytes of a byte array at `ea`, `ea + 1`, ..., lowest first and at any alignment, is the spec's decision
(D3, D4; logs 3, 12); which bytes these addresses name under a wrapping window, and that the image of a `MEM` that is no
byte array stays, are the model's choice (log 3). -/
def Obligations.StoresWriteTheirBytesAlone : Prop :=
  StoreRule 0b000#3 .sb .byte 1 ∧ StoreRule 0b001#3 .sh .half 2 ∧ StoreRule 0b010#3 .sw .word 4

/-! ### Upper immediates, jumps, branches -/

/-- `lui` writes the U-immediate, shifted once. -/
def Obligations.LuiWritesTheUpperImmediate : Prop :=
  ∀ (rd : RegIdx) (u : BitVec 20) (s : State),
    decode (u ++ rd ++ 0b0110111#7) = .instr (.lui rd u) ∧
    ∃ t, exec (.lui rd u) s = .next t ∧ WritesRd s t rd (BitVec.ofNat 32 (u.toNat * 2 ^ 12)) (s.pc + 4) []

/-- `auipc` adds the U-immediate to the address of the instruction itself. -/
def Obligations.AuipcAddsToItsOwnAddress : Prop :=
  ∀ (rd : RegIdx) (u : BitVec 20) (s : State),
    decode (u ++ rd ++ 0b0010111#7) = .instr (.auipc rd u) ∧
    ∃ t, exec (.auipc rd u) s = .next t ∧
      WritesRd s t rd (BitVec.ofNat 32 (s.pc.toNat + u.toNat * 2 ^ 12)) (s.pc + 4) []

/-- `jal` links `pc + 4` (nothing where `rd = 0`) and goes to `pc + imm_j`. -/
def Obligations.JalLinksAndJumps : Prop :=
  ∀ (rd : RegIdx) (offset : BitVec 21) (s : State),
    (offset.toNat % 2 = 0 →
      decode (offset.extractLsb' 20 1 ++ offset.extractLsb' 1 10 ++ offset.extractLsb' 11 1 ++ offset.extractLsb' 12 8 ++
        rd ++ 0b1101111#7) = .instr (.jal rd offset)) ∧
    ∃ t, exec (.jal rd offset) s = .next t ∧
      WritesRd s t rd (s.pc + 4) (BitVec.ofInt 32 (s.pc.toNat + offset.toInt)) []

/-- `jalr` goes to `x[rs1] + imm_i`, read before the link is written, with bit 0 cleared, and links `pc + 4`. -/
def Obligations.JalrClearsBitZeroAndLinks : Prop :=
  ∀ (rd rs1 : RegIdx) (imm : BitVec 12) (s : State) (sum : Word), sum = BitVec.ofInt 32 ((s.x rs1).toNat + imm.toInt) →
    decode (imm ++ rs1 ++ 0b000#3 ++ rd ++ 0b1100111#7) = .instr (.jalr rd rs1 imm) ∧
    ∃ t, exec (.jalr rd rs1 imm) s = .next t ∧
      WritesRd s t rd (s.pc + 4) (BitVec.ofNat 32 (sum.toNat - sum.toNat % 2)) []

/-- The six branches: condition, taken and not-taken pc, nothing else changed. -/
def Obligations.BranchesCompareAndSelect : Prop :=
  BranchRule 0b000#3 .beq (fun a b => a = b) ∧ BranchRule 0b001#3 .bne (fun a b => a ≠ b) ∧
  BranchRule 0b100#3 .blt (fun a b => a.toInt < b.toInt) ∧ BranchRule 0b101#3 .bge (fun a b => a.toInt ≥ b.toInt) ∧
  BranchRule 0b110#3 .bltu (fun a b => a.toNat < b.toNat) ∧ BranchRule 0b111#3 .bgeu (fun a b => a.toNat ≥ b.toNat)

/-! ### ecall and unrecognised words -/

/-- Service 1 with a byte left: consumed, and zero-extended into `x10` (the extension is the spec's decision D14; log 12). -/
def Obligations.EcallReadsOneCharacter : Prop :=
  ∀ (s : State) (b : Byte), s.x 17 = 1 → s.input[s.inPos]? = some b →
    ∃ t, exec .ecall s = .next t ∧ (∀ r : RegIdx, t.x r = if r = 10 then BitVec.ofNat 32 b.toNat else s.x r) ∧
      t.pc = s.pc + 4 ∧ t.inPos = s.inPos + 1 ∧ KeepsRest s { t with inPos := s.inPos } [.inGet (some b)]

/-- Service 1 at end-of-input, for both values of `EXIT_NUM`, both of `EOF_HALTS_NOW` and every policy of `EOF_A0`: `x17` holds
an exit call number, the run halts in this iteration only where the parameter says so, `x10` is kept or pinned where the
policy says so and otherwise unconstrained here. The spec's own reading (R257, D15; logs 5, 6). -/
def Obligations.EcallAtEndOfInput : Prop :=
  ∀ s : State, s.x 17 = 1 → s.input[s.inPos]? = none →
    ∃ t, exec .ecall s = .next t ∧
      t.x 17 = (match s.cfg.exitNum with | .three => 3 | .ninetyThree => 93) ∧
      (∀ r : RegIdx, r ≠ 17 → r ≠ 10 → t.x r = s.x r) ∧
      (∀ v, s.cfg.eofA0 = .pinned v → t.x 10 = v) ∧ (s.cfg.eofA0 = .unchanged → t.x 10 = s.x 10) ∧
      t.runState = (if s.cfg.eofHaltsNow then .halted else s.runState) ∧ t.pc = s.pc + 4 ∧
      t.draws = (if s.cfg.eofA0 = .anyValue then s.draws + 1 else s.draws) ∧
      KeepsRest s { t with runState := s.runState, draws := s.draws } [.inGet none]

/-- Service 2 appends the low byte of `x10` to the output; no register changes. -/
def Obligations.EcallWritesTheLowByte : Prop :=
  ∀ s : State, s.x 17 = 2 →
    ∃ t, exec .ecall s = .next t ∧ WritesNoReg s t (s.pc + 4) [.outPut (BitVec.ofNat 8 (s.x 10).toNat)] ∧
      t.out = s.out ++ [BitVec.ofNat 8 (s.x 10).toNat]

/-- Services 3 and 93 halt; the pc still advances, nothing else changes (the spec's decision D16; log 12). -/
def Obligations.EcallHalts : Prop :=
  ∀ s : State, s.x 17 = 3 ∨ s.x 17 = 93 →
    ∃ t, exec .ecall s = .next t ∧ t.runState = .halted ∧ WritesNoReg s { t with runState := s.runState } (s.pc + 4) []

/-- Any other service number: one category-2 record, nothing else; the run goes on at `pc + 4`. -/
def Obligations.UnknownServiceIsReportedOnly : Prop :=
  ∀ s : State, s.x 17 ≠ 1 → s.x 17 ≠ 2 → s.x 17 ≠ 3 → s.x 17 ≠ 93 →
    ∃ (t : State) (d : DiagRecord), exec .ecall s = .next t ∧ d.kind = .unrecognisedSyscall ∧
      WritesNoReg s t (s.pc + 4) [.diag d] ∧ t.diagLog = s.diagLog ++ [d] ∧ t.out = s.out

/-- The record of an unknown service holds the pc of the `ecall` and all 32 bits of `x17`. The spec's own choice of fields
(R258, D18; log 12). -/
def Obligations.UnknownServiceRecordHoldsPcAndNumber : Prop :=
  ∀ s t : State, s.x 17 ≠ 1 → s.x 17 ≠ 2 → s.x 17 ≠ 3 → s.x 17 ≠ 93 → exec .ecall s = .next t →
    t.diagLog = s.diagLog ++ [{ kind := .unrecognisedSyscall, pc := s.pc, value := s.x 17 }]

/-- An unrecognised word, run as one iteration: the fetch, the trace record where tracing is on, one category-1 record with
the pc and the word, `pc + 4` once, `retired + 1`; no register, memory byte or stream changes, and the run goes on (R256).
The trace record, its place in the order and the record's fields are the spec's decisions (R258, R273, R274; D18, D21, D25; logs
7, 10, 12). -/
def Obligations.UnrecognisedWordIsReportedOnly : Prop :=
  ∀ (s : State) (w : Word), s.runState = .running → s.servesRead .word s.pc = true → s.answer .word s.pc = w →
    decode w = .unrecognised →
    ∃ t, step s = .next t ∧ t.retired = s.retired + 1 ∧
      WritesNoReg s { t with retired := s.retired } (s.pc + 4)
        ([.memRead .word s.pc w] ++ (if s.cfg.traceEn then [.trace { pc := s.pc, word := w }] else []) ++
          [.diag { kind := .unrecognisedInstruction, pc := s.pc, value := w }])

/-! ### The iteration -/

/-- When the word at `pc` decodes to `i`, a step is `exec i` after the fetch and the trace record, and the count after it. -/
def Obligations.StepRunsTheDecodedInstruction : Prop :=
  ∀ (s : State) (i : Instr), s.runState = .running → s.servesRead .word s.pc = true →
    decode (s.answer .word s.pc) = .instr i →
    step s = retireOutcome (exec i ((s.emit (.memRead .word s.pc (s.answer .word s.pc))).traced (s.answer .word s.pc)))

/-- In Halted no iteration begins; where `MEM` refuses the fetch the iteration does not complete. The spec's
decisions (D22, D5) in the model's form (logs 3, 9). -/
def Obligations.StepStopsWhenHaltedOrFetchRefused : Prop :=
  ∀ s : State,
    (s.runState = .halted → step s = .fault .halted) ∧
    (s.runState = .running → s.servesRead .word s.pc = false → step s = .fault (.fetchRefused s.pc))

/-- Nothing aborts an iteration: with the reference memory every running state has a next state, whatever word it fetches. -/
def Obligations.EveryRunningStateSteps : Prop :=
  ∀ s : State, s.runState = .running → s.cfg.mem = .array .reference → ∃ t, step s = .next t

/-- The only way to Halted: an `ecall` with `x17` 3 or 93, or at end-of-input where `EOF_HALTS_NOW` (the spec's decisions
D15, D16; logs 5, 12). -/
def Obligations.OnlyEcallHalts : Prop :=
  ∀ s t : State, step s = .next t → t.runState = .halted →
    decode (s.answer .word s.pc) = .instr .ecall ∧
      (s.x 17 = 3 ∨ s.x 17 = 93 ∨ (s.x 17 = 1 ∧ s.input[s.inPos]? = none ∧ s.cfg.eofHaltsNow = true))

/-- `retired` counts the iterations: after `n` steps it has grown by `n`, whatever was executed (the spec's
decisions D16, D17; logs 8, 12). -/
def Obligations.RetiredCountsIterations : Prop :=
  ∀ (n : Nat) (s t : State), Reaches n s t → t.retired = s.retired + n

/-- The counter of every width `CNT_W`, on every run: it reads the number of iterations where it is unbounded, or where the run
is shorter than `2^CNT_W`; beyond that it reads a number of its width, and no more is said (10_state.md R33, D17; log 8). The
run's result is what it reads in Halted, and there is none before. -/
def Obligations.CounterOfEveryWidthCounts : Prop :=
  ∀ (cfg : Config) (entry : Word) (image : Memory) (input : List Byte) (n : Nat) (t : State),
    Reaches n (State.resetWith cfg entry image input) t →
    (cfg.cntW = .unbounded → t.count = n) ∧
    (∀ w h, cfg.cntW = .bits w h → t.count < 2 ^ w ∧ (n < 2 ^ w → t.count = n)) ∧
    (t.runState = .halted → t.result = some t.count) ∧ (t.runState = .running → t.result = none)

/-- The transactions of one step, in order: the fetch at `pc`, the trace record where tracing is on, then at most one
more (the spec's decisions D21, D25; logs 7, 10). -/
def Obligations.OneFetchThenAtMostOneTransaction : Prop :=
  ∀ s t : State, step s = .next t → ∃ rest : List Event,
    t.events = s.events ++ [.memRead .word s.pc (s.answer .word s.pc)] ++
      (if s.cfg.traceEn then [.trace { pc := s.pc, word := s.answer .word s.pc }] else []) ++ rest ∧
    rest.length ≤ 1 ∧ (∀ e ∈ rest, ∀ r, e ≠ .trace r)

/-- The Memory requests of one step, with width, address and value: the fetch of 4 bytes at `pc` first, then one read of a
load or one write of a store, none of any other instruction and none of an unrecognised word. The data access is of the state
after the fetch, whose answer may depend on it (20_memory.md R60). -/
def Obligations.MemoryRequestsOfEveryStep : Prop :=
  ∀ s t : State, step s = .next t → ∃ new : List Event, t.events = s.events ++ new ∧
    new.filter Event.isMemory =
      .memRead .word s.pc (s.answer .word s.pc) ::
        dataAccessOf (decode (s.answer .word s.pc)) (s.emit (.memRead .word s.pc (s.answer .word s.pc)))

/-- Every byte of memory outside the bytes an instruction stores to (those its addresses name) reads as before; an
instruction that is no store changes no byte, and no instruction one of the image of a `MEM` that is no byte array. Which
bytes the addresses name under a wrapping window, and that the image of another collaborator stays, are the model's choice
(log 3). -/
def Obligations.MemoryFrameOfEveryInstruction : Prop :=
  ∀ (i : Instr) (s t : State), exec i s = .next t →
    (storesTo i s = none → t.mem = s.mem) ∧
    (∀ (ea : Word) (n : Nat), storesTo i s = some (ea, n) →
      ∀ a : Word, (∀ k < n, a ≠ s.cfg.mem.locate (ea + BitVec.ofNat 32 k)) → t.mem.byteAt a = s.mem.byteAt a) ∧
    (∀ object, s.cfg.mem = .other object → t.mem = s.mem)

/-- Every register an instruction does not name as a destination reads as before (`ecall` names `x10` and `x17`). -/
def Obligations.RegisterFrameOfEveryInstruction : Prop :=
  ∀ (i : Instr) (s t : State), exec i s = .next t → ∀ r : RegIdx, r ∉ i.dests → t.x r = s.x r

/-- The next pc of every instruction is the PC multiplexer's, decided by the kind of instruction and the branch condition
(the spec's rendering R242, D1; log 12). -/
def Obligations.NextPcIsTheMultiplexers : Prop :=
  ∀ (i : Instr) (s t : State), exec i s = .next t → t.pc = (pcSelect i s).next s

/-- A register an instruction does not name as a source cannot influence it: two states that agree but for that register and
the draw counter have the same outcome but for that register (and agree in it too where the instruction writes it), and draw
equally often. Where the instruction leaves a free value in `x10` (`DrawsA0`), nothing is said of `x10`: the two draws need
not agree (R257(c); log 6). -/
def Obligations.UnnamedRegisterCannotInfluence : Prop :=
  ∀ (i : Instr) (s : State) (r : RegIdx) (v : Word) (d : Nat), r ∉ i.sources →
    match exec i s, exec i { s.setReg r v with draws := d } with
    | .next t, .next t' =>
        (∀ q : RegIdx, q ≠ r → (q = 10 → ¬ DrawsA0 i s) → t'.x q = t.x q) ∧ t'.pc = t.pc ∧
          KeepsRest t { t' with draws := t.draws } [] ∧ t'.draws + s.draws = t.draws + d ∧
          (if r ∈ i.dests then t'.x r = t.x r else t'.x r = (s.setReg r v).x r)
    | .fault f, .fault f' => f = f'
    | .refused e, .refused e' => e = e'
    | _, _ => False

/-- The counter, the logs and the draw counter cannot influence an instruction: with others before it, it does the same, adds
the same transactions and draws equally often. Where it leaves a free value in `x10` (`DrawsA0`), nothing is said of `x10`:
the two draws need not agree (R257(c); log 6). -/
def Obligations.CounterAndLogsCannotInfluence : Prop :=
  ∀ (i : Instr) (s : State) (n d : Nat) (log : List Event),
    match exec i s, exec i { s with retired := n, events := log, draws := d } with
    | .next t, .next t' =>
        t' = { t with regs := t'.regs, retired := n, events := t'.events, draws := t'.draws } ∧
          (∀ q : RegIdx, (q = 10 → ¬ DrawsA0 i s) → t'.x q = t.x q) ∧ t.retired = s.retired ∧
          t'.draws + s.draws = t.draws + d ∧ ∃ new, t.events = s.events ++ new ∧ t'.events = log ++ new
    | .fault f, .fault f' => f = f'
    | .refused e, .refused e' => e = e'
    | _, _ => False

/-- A store into the instruction stream is seen by the very next fetch: after a step that runs `sw` to the address of the next
instruction, the next iteration fetches the word stored, where `MEM` is a byte array in which the word's four addresses name
four bytes (the spec's derivation R67; byte order D3, logs 3, 12). -/
def Obligations.NextFetchSeesTheStore : Prop :=
  ∀ (s t : State) (p : MemPolicy) (rs2 rs1 : RegIdx) (imm : BitVec 12), s.cfg.mem = .array p →
    (∀ j k : Nat, j < k → k < 4 → p.locate (s.pc + 4 + BitVec.ofNat 32 j) ≠ p.locate (s.pc + 4 + BitVec.ofNat 32 k)) →
    step s = .next t → decode (s.answer .word s.pc) = .instr (.sw rs2 rs1 imm) →
    BitVec.ofInt 32 ((s.x rs1).toNat + imm.toInt) = s.pc + 4 →
    t.answer .word t.pc = s.x rs2

/-! ### Invariants -/

/-- The invariant holds after reset with a canonical image, whatever the parameters. The empty logs and stream index are
the spec's decision (R36, D26; log 12); that a byte array remembers no request is the model's choice, for a field of its
own (`memSeen`, log 3). -/
def Obligations.ResetEstablishesTheInvariant : Prop :=
  ∀ (cfg : Config) (entry : Word) (image : Memory) (input : List Byte), image.wf = true →
    (State.resetWith cfg entry image input).Inv

/-- Every step keeps the invariant: canonical memory, input index in range, no category-3 record, one trace record per
iteration, at most one stream or diagnostic event per iteration, and no request remembered for a byte array
(the spec's decisions D19, D21, D25; logs 3, 7, 10, 12). -/
def Obligations.StepKeepsTheInvariant : Prop :=
  ∀ s t : State, s.Inv → step s = .next t → t.Inv

/-- Bit 0 of the pc stays 0, whatever is executed (the spec's derivation R28). -/
def Obligations.PcStaysEven : Prop :=
  ∀ s t : State, s.pc.toNat % 2 = 0 → step s = .next t → t.pc.toNat % 2 = 0

/-- No step changes a parameter, and the three logs only grow. -/
def Obligations.ParametersFixedAndLogsAppendOnly : Prop :=
  ∀ s t : State, step s = .next t →
    t.cfg = s.cfg ∧ t.input = s.input ∧ s.inPos ≤ t.inPos ∧
      s.out <+: t.out ∧ s.diagLog <+: t.diagLog ∧
      t.traceLog = s.traceLog ++ (if s.cfg.traceEn then [{ pc := s.pc, word := s.answer .word s.pc }] else [])

/-- `x[0]` reads 0 in every state, and a step that runs an instruction whose only destination is `x[0]` changes no
register (the spec's decision D30; log 12). -/
def Obligations.WritesToX0AreDiscarded : Prop :=
  ∀ (s t : State) (i : Instr), step s = .next t → decode (s.answer .word s.pc) = .instr i → i.dests = [0] →
    ∀ r : RegIdx, t.x 0 = 0 ∧ t.x r = s.x r
end

