-- ==== Sys2Proof/Laws/Decode.lean ====
section
/-! SUPPORT. The decoder's fields of an encoded word, and a word put together again from its fields: the two halves of
"decode and encode agree" (30_encoding.md R86, R88, R91 to R96). -/

namespace Sys2Proof

/-! ### Taking a field out of a concatenation -/

/-- The low part of a concatenation. -/
theorem extract_low {v w : Nat} (x : BitVec v) (y : BitVec w) : (x ++ y).extractLsb' 0 w = y := by
  apply BitVec.eq_of_getLsbD_eq
  intro i hi
  simp [BitVec.getLsbD_append, hi]

/-- A field above the low part. -/
theorem extract_skip {v w : Nat} (x : BitVec v) (y : BitVec w) (start len : Nat) (h : w ≤ start) :
    (x ++ y).extractLsb' start len = x.extractLsb' (start - w) len :=
  BitVec.extractLsb'_append_eq_of_le h

/-- The whole of what is left. -/
theorem extract_all {v : Nat} (x : BitVec v) : x.extractLsb' 0 v = x := BitVec.extractLsb'_eq_self

/-! ### R format -/

theorem fieldOpcode_encodeR (funct7 : BitVec 7) (rs2 rs1 : RegIdx) (funct3 : BitVec 3) (rd : RegIdx) (opcode : BitVec 7) :
    fieldOpcode (encodeR funct7 rs2 rs1 funct3 rd opcode) = opcode := by
  unfold fieldOpcode encodeR
  exact extract_low _ _

theorem fieldRd_encodeR (funct7 : BitVec 7) (rs2 rs1 : RegIdx) (funct3 : BitVec 3) (rd : RegIdx) (opcode : BitVec 7) :
    fieldRd (encodeR funct7 rs2 rs1 funct3 rd opcode) = rd := by
  unfold fieldRd encodeR
  rw [extract_skip _ _ _ _ (by omega)]
  exact extract_low _ _

theorem fieldFunct3_encodeR (funct7 : BitVec 7) (rs2 rs1 : RegIdx) (funct3 : BitVec 3) (rd : RegIdx) (opcode : BitVec 7) :
    fieldFunct3 (encodeR funct7 rs2 rs1 funct3 rd opcode) = funct3 := by
  unfold fieldFunct3 encodeR
  rw [extract_skip _ _ _ _ (by omega), extract_skip _ _ _ _ (by omega)]
  exact extract_low _ _

theorem fieldRs1_encodeR (funct7 : BitVec 7) (rs2 rs1 : RegIdx) (funct3 : BitVec 3) (rd : RegIdx) (opcode : BitVec 7) :
    fieldRs1 (encodeR funct7 rs2 rs1 funct3 rd opcode) = rs1 := by
  unfold fieldRs1 encodeR
  rw [extract_skip _ _ _ _ (by omega), extract_skip _ _ _ _ (by omega), extract_skip _ _ _ _ (by omega)]
  exact extract_low _ _

theorem fieldRs2_encodeR (funct7 : BitVec 7) (rs2 rs1 : RegIdx) (funct3 : BitVec 3) (rd : RegIdx) (opcode : BitVec 7) :
    fieldRs2 (encodeR funct7 rs2 rs1 funct3 rd opcode) = rs2 := by
  unfold fieldRs2 encodeR
  rw [extract_skip _ _ _ _ (by omega), extract_skip _ _ _ _ (by omega), extract_skip _ _ _ _ (by omega), extract_skip _ _ _ _ (by omega)]
  exact extract_low _ _

theorem fieldFunct7_encodeR (funct7 : BitVec 7) (rs2 rs1 : RegIdx) (funct3 : BitVec 3) (rd : RegIdx) (opcode : BitVec 7) :
    fieldFunct7 (encodeR funct7 rs2 rs1 funct3 rd opcode) = funct7 := by
  unfold fieldFunct7 encodeR
  rw [extract_skip _ _ _ _ (by omega), extract_skip _ _ _ _ (by omega), extract_skip _ _ _ _ (by omega), extract_skip _ _ _ _ (by omega), extract_skip _ _ _ _ (by omega)]
  exact extract_all _

/-! ### I format -/

theorem fieldOpcode_encodeI (imm : BitVec 12) (rs1 : RegIdx) (funct3 : BitVec 3) (rd : RegIdx) (opcode : BitVec 7) :
    fieldOpcode (encodeI imm rs1 funct3 rd opcode) = opcode := by
  unfold fieldOpcode encodeI
  exact extract_low _ _

theorem fieldRd_encodeI (imm : BitVec 12) (rs1 : RegIdx) (funct3 : BitVec 3) (rd : RegIdx) (opcode : BitVec 7) :
    fieldRd (encodeI imm rs1 funct3 rd opcode) = rd := by
  unfold fieldRd encodeI
  rw [extract_skip _ _ _ _ (by omega)]
  exact extract_low _ _

theorem fieldFunct3_encodeI (imm : BitVec 12) (rs1 : RegIdx) (funct3 : BitVec 3) (rd : RegIdx) (opcode : BitVec 7) :
    fieldFunct3 (encodeI imm rs1 funct3 rd opcode) = funct3 := by
  unfold fieldFunct3 encodeI
  rw [extract_skip _ _ _ _ (by omega), extract_skip _ _ _ _ (by omega)]
  exact extract_low _ _

theorem fieldRs1_encodeI (imm : BitVec 12) (rs1 : RegIdx) (funct3 : BitVec 3) (rd : RegIdx) (opcode : BitVec 7) :
    fieldRs1 (encodeI imm rs1 funct3 rd opcode) = rs1 := by
  unfold fieldRs1 encodeI
  rw [extract_skip _ _ _ _ (by omega), extract_skip _ _ _ _ (by omega), extract_skip _ _ _ _ (by omega)]
  exact extract_low _ _

theorem bitsI_encodeI (imm : BitVec 12) (rs1 : RegIdx) (funct3 : BitVec 3) (rd : RegIdx) (opcode : BitVec 7) :
    bitsI (encodeI imm rs1 funct3 rd opcode) = imm := by
  unfold bitsI encodeI
  rw [extract_skip _ _ _ _ (by omega), extract_skip _ _ _ _ (by omega), extract_skip _ _ _ _ (by omega), extract_skip _ _ _ _ (by omega)]
  exact extract_all _

theorem fieldFunct12_encodeI (imm : BitVec 12) (rs1 : RegIdx) (funct3 : BitVec 3) (rd : RegIdx) (opcode : BitVec 7) :
    fieldFunct12 (encodeI imm rs1 funct3 rd opcode) = imm := by
  unfold fieldFunct12 encodeI
  rw [extract_skip _ _ _ _ (by omega), extract_skip _ _ _ _ (by omega), extract_skip _ _ _ _ (by omega), extract_skip _ _ _ _ (by omega)]
  exact extract_all _

/-! ### Shift-immediate variant -/

/-- The shift amount is bits 24:20 (R93). -/
theorem bitsShamt_eq (w : Word) : bitsShamt w = w.extractLsb' 20 5 := by
  apply BitVec.eq_of_getLsbD_eq
  intro i hi
  simp [bitsShamt, bitsI, hi, show i < 12 by omega]

theorem fieldOpcode_encodeShift (funct7 : BitVec 7) (shamt : BitVec 5) (rs1 : RegIdx) (funct3 : BitVec 3) (rd : RegIdx) :
    fieldOpcode (encodeShift funct7 shamt rs1 funct3 rd) = opOpImm := by
  unfold fieldOpcode encodeShift
  exact extract_low _ _

theorem fieldRd_encodeShift (funct7 : BitVec 7) (shamt : BitVec 5) (rs1 : RegIdx) (funct3 : BitVec 3) (rd : RegIdx) :
    fieldRd (encodeShift funct7 shamt rs1 funct3 rd) = rd := by
  unfold fieldRd encodeShift
  rw [extract_skip _ _ _ _ (by omega)]
  exact extract_low _ _

theorem fieldFunct3_encodeShift (funct7 : BitVec 7) (shamt : BitVec 5) (rs1 : RegIdx) (funct3 : BitVec 3) (rd : RegIdx) :
    fieldFunct3 (encodeShift funct7 shamt rs1 funct3 rd) = funct3 := by
  unfold fieldFunct3 encodeShift
  rw [extract_skip _ _ _ _ (by omega), extract_skip _ _ _ _ (by omega)]
  exact extract_low _ _

theorem fieldRs1_encodeShift (funct7 : BitVec 7) (shamt : BitVec 5) (rs1 : RegIdx) (funct3 : BitVec 3) (rd : RegIdx) :
    fieldRs1 (encodeShift funct7 shamt rs1 funct3 rd) = rs1 := by
  unfold fieldRs1 encodeShift
  rw [extract_skip _ _ _ _ (by omega), extract_skip _ _ _ _ (by omega), extract_skip _ _ _ _ (by omega)]
  exact extract_low _ _

theorem bitsShamt_encodeShift (funct7 : BitVec 7) (shamt : BitVec 5) (rs1 : RegIdx) (funct3 : BitVec 3) (rd : RegIdx) :
    bitsShamt (encodeShift funct7 shamt rs1 funct3 rd) = shamt := by
  rw [bitsShamt_eq]
  unfold encodeShift
  rw [extract_skip _ _ _ _ (by omega), extract_skip _ _ _ _ (by omega), extract_skip _ _ _ _ (by omega), extract_skip _ _ _ _ (by omega)]
  exact extract_low _ _

theorem fieldFunct7_encodeShift (funct7 : BitVec 7) (shamt : BitVec 5) (rs1 : RegIdx) (funct3 : BitVec 3) (rd : RegIdx) :
    fieldFunct7 (encodeShift funct7 shamt rs1 funct3 rd) = funct7 := by
  unfold fieldFunct7 encodeShift
  rw [extract_skip _ _ _ _ (by omega), extract_skip _ _ _ _ (by omega), extract_skip _ _ _ _ (by omega), extract_skip _ _ _ _ (by omega), extract_skip _ _ _ _ (by omega)]
  exact extract_all _

/-! ### S format -/

theorem fieldOpcode_encodeS (imm : BitVec 12) (rs2 rs1 : RegIdx) (funct3 : BitVec 3) :
    fieldOpcode (encodeS imm rs2 rs1 funct3) = opStore := by
  unfold fieldOpcode encodeS
  exact extract_low _ _

theorem fieldFunct3_encodeS (imm : BitVec 12) (rs2 rs1 : RegIdx) (funct3 : BitVec 3) :
    fieldFunct3 (encodeS imm rs2 rs1 funct3) = funct3 := by
  unfold fieldFunct3 encodeS
  rw [extract_skip _ _ _ _ (by omega), extract_skip _ _ _ _ (by omega)]
  exact extract_low _ _

theorem fieldRs1_encodeS (imm : BitVec 12) (rs2 rs1 : RegIdx) (funct3 : BitVec 3) :
    fieldRs1 (encodeS imm rs2 rs1 funct3) = rs1 := by
  unfold fieldRs1 encodeS
  rw [extract_skip _ _ _ _ (by omega), extract_skip _ _ _ _ (by omega), extract_skip _ _ _ _ (by omega)]
  exact extract_low _ _

theorem fieldRs2_encodeS (imm : BitVec 12) (rs2 rs1 : RegIdx) (funct3 : BitVec 3) :
    fieldRs2 (encodeS imm rs2 rs1 funct3) = rs2 := by
  unfold fieldRs2 encodeS
  rw [extract_skip _ _ _ _ (by omega), extract_skip _ _ _ _ (by omega), extract_skip _ _ _ _ (by omega), extract_skip _ _ _ _ (by omega)]
  exact extract_low _ _

/-- The two parts of the S-immediate put together (R92). -/
theorem joinS (imm : BitVec 12) : imm.extractLsb' 5 7 ++ imm.extractLsb' 0 5 = imm := by
  apply BitVec.eq_of_getLsbD_eq
  intro i hi
  interval_cases i <;> simp only [BitVec.getLsbD_append, BitVec.getLsbD_extractLsb'] <;> simp

theorem bitsS_encodeS (imm : BitVec 12) (rs2 rs1 : RegIdx) (funct3 : BitVec 3) : bitsS (encodeS imm rs2 rs1 funct3) = imm := by
  have h1 : (encodeS imm rs2 rs1 funct3).extractLsb' 25 7 = imm.extractLsb' 5 7 := by
    unfold encodeS
    rw [extract_skip _ _ _ _ (by omega), extract_skip _ _ _ _ (by omega), extract_skip _ _ _ _ (by omega), extract_skip _ _ _ _ (by omega), extract_skip _ _ _ _ (by omega)]
    exact extract_all _
  have h2 : (encodeS imm rs2 rs1 funct3).extractLsb' 7 5 = imm.extractLsb' 0 5 := by
    unfold encodeS
    rw [extract_skip _ _ _ _ (by omega)]
    exact extract_low _ _
  unfold bitsS
  rw [h1, h2, joinS]

/-! ### B format -/

theorem fieldOpcode_encodeB (offset : BitVec 13) (rs2 rs1 : RegIdx) (funct3 : BitVec 3) :
    fieldOpcode (encodeB offset rs2 rs1 funct3) = opBranch := by
  unfold fieldOpcode encodeB
  exact extract_low _ _

theorem fieldFunct3_encodeB (offset : BitVec 13) (rs2 rs1 : RegIdx) (funct3 : BitVec 3) :
    fieldFunct3 (encodeB offset rs2 rs1 funct3) = funct3 := by
  unfold fieldFunct3 encodeB
  rw [extract_skip _ _ _ _ (by omega), extract_skip _ _ _ _ (by omega), extract_skip _ _ _ _ (by omega)]
  exact extract_low _ _

theorem fieldRs1_encodeB (offset : BitVec 13) (rs2 rs1 : RegIdx) (funct3 : BitVec 3) :
    fieldRs1 (encodeB offset rs2 rs1 funct3) = rs1 := by
  unfold fieldRs1 encodeB
  rw [extract_skip _ _ _ _ (by omega), extract_skip _ _ _ _ (by omega), extract_skip _ _ _ _ (by omega), extract_skip _ _ _ _ (by omega)]
  exact extract_low _ _

theorem fieldRs2_encodeB (offset : BitVec 13) (rs2 rs1 : RegIdx) (funct3 : BitVec 3) :
    fieldRs2 (encodeB offset rs2 rs1 funct3) = rs2 := by
  unfold fieldRs2 encodeB
  rw [extract_skip _ _ _ _ (by omega), extract_skip _ _ _ _ (by omega), extract_skip _ _ _ _ (by omega), extract_skip _ _ _ _ (by omega), extract_skip _ _ _ _ (by omega)]
  exact extract_low _ _

/-- The parts of the B-immediate put together; bit 0 is not stored (R94). -/
theorem joinB (offset : BitVec 13) (h : offset.getLsbD 0 = false) :
    offset.extractLsb' 12 1 ++ offset.extractLsb' 11 1 ++ offset.extractLsb' 5 6 ++ offset.extractLsb' 1 4 ++ 0#1 =
      offset := by
  have h0 : offset[0] = false := by simpa using h
  apply BitVec.eq_of_getLsbD_eq
  intro i hi
  interval_cases i <;> simp only [BitVec.getLsbD_append, BitVec.getLsbD_extractLsb'] <;> simp [h0]

theorem bitsB_encodeB (offset : BitVec 13) (rs2 rs1 : RegIdx) (funct3 : BitVec 3) (h : offset.getLsbD 0 = false) :
    bitsB (encodeB offset rs2 rs1 funct3) = offset := by
  have h1 : (encodeB offset rs2 rs1 funct3).extractLsb' 31 1 = offset.extractLsb' 12 1 := by
    unfold encodeB
    rw [extract_skip _ _ _ _ (by omega), extract_skip _ _ _ _ (by omega), extract_skip _ _ _ _ (by omega), extract_skip _ _ _ _ (by omega), extract_skip _ _ _ _ (by omega), extract_skip _ _ _ _ (by omega), extract_skip _ _ _ _ (by omega)]
    exact extract_all _
  have h2 : (encodeB offset rs2 rs1 funct3).extractLsb' 7 1 = offset.extractLsb' 11 1 := by
    unfold encodeB
    rw [extract_skip _ _ _ _ (by omega)]
    exact extract_low _ _
  have h3 : (encodeB offset rs2 rs1 funct3).extractLsb' 25 6 = offset.extractLsb' 5 6 := by
    unfold encodeB
    rw [extract_skip _ _ _ _ (by omega), extract_skip _ _ _ _ (by omega), extract_skip _ _ _ _ (by omega), extract_skip _ _ _ _ (by omega), extract_skip _ _ _ _ (by omega), extract_skip _ _ _ _ (by omega)]
    exact extract_low _ _
  have h4 : (encodeB offset rs2 rs1 funct3).extractLsb' 8 4 = offset.extractLsb' 1 4 := by
    unfold encodeB
    rw [extract_skip _ _ _ _ (by omega), extract_skip _ _ _ _ (by omega)]
    exact extract_low _ _
  unfold bitsB
  rw [h1, h2, h3, h4]
  exact joinB offset h

/-! ### U format -/

theorem fieldOpcode_encodeU (uimm20 : BitVec 20) (rd : RegIdx) (opcode : BitVec 7) :
    fieldOpcode (encodeU uimm20 rd opcode) = opcode := by
  unfold fieldOpcode encodeU
  exact extract_low _ _

theorem fieldRd_encodeU (uimm20 : BitVec 20) (rd : RegIdx) (opcode : BitVec 7) :
    fieldRd (encodeU uimm20 rd opcode) = rd := by
  unfold fieldRd encodeU
  rw [extract_skip _ _ _ _ (by omega)]
  exact extract_low _ _

theorem bitsU_encodeU (uimm20 : BitVec 20) (rd : RegIdx) (opcode : BitVec 7) :
    bitsU (encodeU uimm20 rd opcode) = uimm20 := by
  unfold bitsU encodeU
  rw [extract_skip _ _ _ _ (by omega), extract_skip _ _ _ _ (by omega)]
  exact extract_all _

/-! ### J format -/

theorem fieldOpcode_encodeJ (offset : BitVec 21) (rd : RegIdx) :
    fieldOpcode (encodeJ offset rd) = opJal := by
  unfold fieldOpcode encodeJ
  exact extract_low _ _

theorem fieldRd_encodeJ (offset : BitVec 21) (rd : RegIdx) :
    fieldRd (encodeJ offset rd) = rd := by
  unfold fieldRd encodeJ
  rw [extract_skip _ _ _ _ (by omega)]
  exact extract_low _ _

/-- The parts of the J-immediate put together; bit 0 is not stored (R96). -/
theorem joinJ (offset : BitVec 21) (h : offset.getLsbD 0 = false) :
    offset.extractLsb' 20 1 ++ offset.extractLsb' 12 8 ++ offset.extractLsb' 11 1 ++ offset.extractLsb' 1 10 ++ 0#1 =
      offset := by
  have h0 : offset[0] = false := by simpa using h
  apply BitVec.eq_of_getLsbD_eq
  intro i hi
  interval_cases i <;> simp only [BitVec.getLsbD_append, BitVec.getLsbD_extractLsb'] <;> simp [h0]

theorem bitsJ_encodeJ (offset : BitVec 21) (rd : RegIdx) (h : offset.getLsbD 0 = false) : bitsJ (encodeJ offset rd) = offset := by
  have h1 : (encodeJ offset rd).extractLsb' 31 1 = offset.extractLsb' 20 1 := by
    unfold encodeJ
    rw [extract_skip _ _ _ _ (by omega), extract_skip _ _ _ _ (by omega), extract_skip _ _ _ _ (by omega), extract_skip _ _ _ _ (by omega), extract_skip _ _ _ _ (by omega)]
    exact extract_all _
  have h2 : (encodeJ offset rd).extractLsb' 12 8 = offset.extractLsb' 12 8 := by
    unfold encodeJ
    rw [extract_skip _ _ _ _ (by omega), extract_skip _ _ _ _ (by omega)]
    exact extract_low _ _
  have h3 : (encodeJ offset rd).extractLsb' 20 1 = offset.extractLsb' 11 1 := by
    unfold encodeJ
    rw [extract_skip _ _ _ _ (by omega), extract_skip _ _ _ _ (by omega), extract_skip _ _ _ _ (by omega)]
    exact extract_low _ _
  have h4 : (encodeJ offset rd).extractLsb' 21 10 = offset.extractLsb' 1 10 := by
    unfold encodeJ
    rw [extract_skip _ _ _ _ (by omega), extract_skip _ _ _ _ (by omega), extract_skip _ _ _ _ (by omega), extract_skip _ _ _ _ (by omega)]
    exact extract_low _ _
  unfold bitsJ
  rw [h1, h2, h3, h4]
  exact joinJ offset h

/-! ### A word from its fields (R86) -/

theorem encodeR_fields (w : Word) :
    encodeR (fieldFunct7 w) (fieldRs2 w) (fieldRs1 w) (fieldFunct3 w) (fieldRd w) (fieldOpcode w) = w := by
  apply BitVec.eq_of_getLsbD_eq
  intro i hi
  interval_cases i <;>
    simp only [encodeR, fieldFunct7, fieldRs2, fieldRs1, fieldFunct3, fieldRd, fieldOpcode,
      BitVec.getLsbD_append, BitVec.getLsbD_extractLsb'] <;> simp

theorem encodeI_fields (w : Word) :
    encodeI (bitsI w) (fieldRs1 w) (fieldFunct3 w) (fieldRd w) (fieldOpcode w) = w := by
  apply BitVec.eq_of_getLsbD_eq
  intro i hi
  interval_cases i <;>
    simp only [encodeI, bitsI, fieldRs1, fieldFunct3, fieldRd, fieldOpcode,
      BitVec.getLsbD_append, BitVec.getLsbD_extractLsb'] <;> simp

theorem encodeShift_fields (w : Word) (h : fieldOpcode w = opOpImm) :
    encodeShift (fieldFunct7 w) (bitsShamt w) (fieldRs1 w) (fieldFunct3 w) (fieldRd w) = w := by
  unfold encodeShift
  rw [← h]
  apply BitVec.eq_of_getLsbD_eq
  intro i hi
  interval_cases i <;>
    simp only [fieldFunct7, bitsShamt_eq, fieldRs1, fieldFunct3, fieldRd, fieldOpcode,
      BitVec.getLsbD_append, BitVec.getLsbD_extractLsb'] <;> simp

theorem encodeS_fields (w : Word) (h : fieldOpcode w = opStore) :
    encodeS (bitsS w) (fieldRs2 w) (fieldRs1 w) (fieldFunct3 w) = w := by
  unfold encodeS
  rw [← h]
  apply BitVec.eq_of_getLsbD_eq
  intro i hi
  interval_cases i <;>
    simp only [bitsS, fieldRs2, fieldRs1, fieldFunct3, fieldOpcode,
      BitVec.getLsbD_append, BitVec.getLsbD_extractLsb'] <;> simp

theorem encodeB_fields (w : Word) (h : fieldOpcode w = opBranch) :
    encodeB (bitsB w) (fieldRs2 w) (fieldRs1 w) (fieldFunct3 w) = w := by
  unfold encodeB
  rw [← h]
  apply BitVec.eq_of_getLsbD_eq
  intro i hi
  interval_cases i <;>
    simp only [bitsB, fieldRs2, fieldRs1, fieldFunct3, fieldOpcode,
      BitVec.getLsbD_append, BitVec.getLsbD_extractLsb'] <;> simp

theorem encodeU_fields (w : Word) :
    encodeU (bitsU w) (fieldRd w) (fieldOpcode w) = w := by
  apply BitVec.eq_of_getLsbD_eq
  intro i hi
  interval_cases i <;>
    simp only [encodeU, bitsU, fieldRd, fieldOpcode,
      BitVec.getLsbD_append, BitVec.getLsbD_extractLsb'] <;> simp

theorem encodeJ_fields (w : Word) (h : fieldOpcode w = opJal) :
    encodeJ (bitsJ w) (fieldRd w) = w := by
  unfold encodeJ
  rw [← h]
  apply BitVec.eq_of_getLsbD_eq
  intro i hi
  interval_cases i <;>
    simp only [bitsJ, fieldRd, fieldOpcode,
      BitVec.getLsbD_append, BitVec.getLsbD_extractLsb'] <;> simp

/-- Bit 0 of a decoded branch offset is 0 (R94). -/
theorem bitsB_even (w : Word) : (bitsB w).getLsbD 0 = false := by
  simp only [bitsB, BitVec.getLsbD_append]; simp

/-- Bit 0 of a decoded jump offset is 0 (R96). -/
theorem bitsJ_even (w : Word) : (bitsJ w).getLsbD 0 = false := by
  simp only [bitsJ, BitVec.getLsbD_append]; simp

end Sys2Proof
end

