-- ==== Sys2Proof/Laws/Memory.lean ====
section
/-! SUPPORT. Memory: read after write, what a write leaves alone, and that every operation keeps the canonical form. -/

namespace Sys2Proof.Machine

theorem Memory.read_nil (a : Nat) : Memory.read [] a = Memory.unlisted := rfl

theorem Memory.read_insert (m : Memory) (a : Nat) (b : Byte) (c : Nat) :
    (m.insert a b).read c = if c = a then b else m.read c := by
  induction m with
  | nil => simp only [Memory.insert, Memory.read]; split <;> split <;> simp_all
  | cons p rest ih =>
    obtain ⟨k, v⟩ := p
    simp only [Memory.insert]
    by_cases h1 : k = a
    · subst h1
      rcases eq_or_ne c k with rfl | hc
      · simp [Memory.read]
      · simp [Memory.read, hc, hc.symm]
    by_cases h2 : a < k
    · simp only [h1, h2, if_false, if_true, Memory.read]
      rcases eq_or_ne c a with rfl | hc
      · simp
      · simp [hc, hc.symm]
    · simp only [h1, h2, if_false, Memory.read, ih]
      by_cases hc : c = a
      · subst hc; simp [h1]
      · simp [hc]

theorem Memory.read_erase (m : Memory) (a c : Nat) :
    Memory.read (m.filter fun p => p.1 ≠ a) c = if c = a then Memory.unlisted else m.read c := by
  induction m with
  | nil => simp [Memory.read]
  | cons p rest ih =>
    obtain ⟨k, v⟩ := p
    by_cases hk : k = a
    · subst hk
      simp only [ne_eq, decide_not, decide_true, Bool.not_true, Bool.false_eq_true, not_false_eq_true,
        List.filter_cons_of_neg] at ih ⊢
      rw [ih]
      rcases eq_or_ne c k with rfl | hc
      · simp
      · simp [Memory.read, hc, hc.symm]
    · have : decide (k ≠ a) = true := by simp [hk]
      simp only [List.filter_cons, this, if_true, Memory.read, ih]
      by_cases hc : c = a
      · subst hc; simp [hk]
      · simp [hc]

/-- One byte written: it reads back, every other address is unchanged. -/
theorem Memory.read_write (m : Memory) (a : Nat) (b : Byte) (c : Nat) :
    (m.write a b).read c = if c = a then b else m.read c := by
  unfold Memory.write
  split
  · next h => rw [Memory.read_erase, h]
  · exact Memory.read_insert m a b c

/-- The same through 32-bit addresses. -/
theorem Memory.byteAt_setByte (m : Memory) (a : Word) (b : Byte) (c : Word) :
    (m.setByte a b).byteAt c = if c = a then b else m.byteAt c := by
  simp only [Memory.byteAt, Memory.setByte, Memory.read_write, BitVec.toNat_inj]

@[simp] theorem Memory.byteAt_setByte_same (m : Memory) (a : Word) (b : Byte) : (m.setByte a b).byteAt a = b := by
  simp [Memory.byteAt_setByte]

theorem Memory.byteAt_setByte_ne (m : Memory) {a c : Word} (b : Byte) (h : c ≠ a) :
    (m.setByte a b).byteAt c = m.byteAt c := by
  simp [Memory.byteAt_setByte, h]

/-! ### The canonical form -/

/-- The canonical form as a proposition. -/
theorem Memory.wf_iff (m : Memory) :
    m.wf = true ↔ m.Pairwise (fun p q => p.1 < q.1) ∧ ∀ p ∈ m, p.1 < 2 ^ 32 ∧ p.2 ≠ Memory.unlisted := by
  simp [Memory.wf, List.all_eq_true]

theorem Memory.mem_insert {m : Memory} {a : Nat} {b : Byte} {p : Nat × Byte} (h : p ∈ m.insert a b) :
    p = (a, b) ∨ p ∈ m := by
  induction m with
  | nil => simp [Memory.insert] at h; exact .inl h
  | cons q rest ih =>
    obtain ⟨k, v⟩ := q
    simp only [Memory.insert] at h
    split at h
    · rcases List.mem_cons.1 h with h | h
      · exact .inl h
      · exact .inr (List.mem_cons_of_mem _ h)
    · split at h
      · rcases List.mem_cons.1 h with h | h
        · exact .inl h
        · exact .inr h
      · rcases List.mem_cons.1 h with h | h
        · exact .inr (h ▸ List.mem_cons_self)
        · exact (ih h).imp id (List.mem_cons_of_mem _)

theorem Memory.pairwise_insert {m : Memory} (h : m.Pairwise fun p q => p.1 < q.1) (a : Nat) (b : Byte) :
    (m.insert a b).Pairwise fun p q => p.1 < q.1 := by
  induction m with
  | nil => simp [Memory.insert]
  | cons q rest ih =>
    obtain ⟨k, v⟩ := q
    obtain ⟨h1, h2⟩ := List.pairwise_cons.1 h
    simp only [Memory.insert]
    split
    · next hk => subst hk; exact List.pairwise_cons.2 ⟨h1, h2⟩
    · next hk =>
      split
      · next hlt =>
        refine List.pairwise_cons.2 ⟨fun p hp => ?_, h⟩
        rcases List.mem_cons.1 hp with rfl | hp
        · exact hlt
        · exact Nat.lt_trans hlt (h1 p hp)
      · next hlt =>
        refine List.pairwise_cons.2 ⟨fun p hp => ?_, ih h2⟩
        rcases Memory.mem_insert hp with rfl | hp
        · simp only; omega
        · exact h1 p hp

/-- A byte write keeps the canonical form. -/
theorem Memory.wf_write {m : Memory} (h : m.wf = true) {a : Nat} (ha : a < 2 ^ 32) (b : Byte) :
    (m.write a b).wf = true := by
  rw [Memory.wf_iff] at *
  obtain ⟨hp, hm⟩ := h
  unfold Memory.write
  split
  · exact ⟨hp.filter _, fun p hp' => hm p (List.mem_of_mem_filter hp')⟩
  · next hb =>
    refine ⟨Memory.pairwise_insert hp a b, fun p hp' => ?_⟩
    rcases Memory.mem_insert hp' with rfl | hp'
    · exact ⟨ha, hb⟩
    · exact hm p hp'

theorem Memory.wf_setByte {m : Memory} (h : m.wf = true) (a : Word) (b : Byte) : (m.setByte a b).wf = true :=
  Memory.wf_write h a.isLt b

theorem Memory.wf_storeBytes {m : Memory} (h : m.wf = true) (loc : Word → Word) (a v : Word) (n : Nat) :
    (m.storeBytes loc a v n).wf = true := by
  induction n with
  | zero => exact h
  | succ n ih => exact Memory.wf_setByte ih _ _

/-- Every write through the Memory contract keeps the canonical form. -/
theorem Memory.wf_storeVia {m : Memory} (h : m.wf = true) (loc : Word → Word) (width : Width) (a v : Word) :
    (m.storeVia loc width a v).wf = true :=
  Memory.wf_storeBytes h loc a v width.bytes

/-! ### Wide accesses -/

theorem Memory.byteAt_storeBytes_succ (m : Memory) (loc : Word → Word) (a v : Word) (n : Nat) (c : Word) :
    (m.storeBytes loc a v (n + 1)).byteAt c =
      if c = loc (a + BitVec.ofNat 32 n) then byteOfWord v n else (m.storeBytes loc a v n).byteAt c :=
  Memory.byteAt_setByte _ _ _ _

/-- A write leaves every byte alone that none of its addresses names. -/
theorem Memory.byteAt_storeBytes_outside (m : Memory) (loc : Word → Word) (a v c : Word) (n : Nat)
    (h : ∀ k < n, c ≠ loc (a + BitVec.ofNat 32 k)) : (m.storeBytes loc a v n).byteAt c = m.byteAt c := by
  induction n with
  | zero => rfl
  | succ n ih =>
    rw [Memory.byteAt_storeBytes_succ, if_neg (h n n.lt_succ_self), ih fun k hk => h k (Nat.lt_succ_of_lt hk)]

/-- A write sets the byte each of its addresses names; where two name one byte, the later. -/
theorem Memory.byteAt_storeBytes_inside (m : Memory) (loc : Word → Word) (a v : Word) (n k : Nat) (hk : k < n)
    (h : ∀ j < n, k < j → loc (a + BitVec.ofNat 32 k) ≠ loc (a + BitVec.ofNat 32 j)) :
    (m.storeBytes loc a v n).byteAt (loc (a + BitVec.ofNat 32 k)) = byteOfWord v k := by
  induction n with
  | zero => omega
  | succ n ih =>
    rw [Memory.byteAt_storeBytes_succ]
    by_cases hkn : k = n
    · rw [if_pos (by rw [hkn]), hkn]
    · rw [if_neg (h n n.lt_succ_self (by omega)), ih (by omega) fun j hj hkj => h j (by omega) hkj]

/-- A word is its four bytes. -/
theorem wordOfBytes_byteOfWord (v : Word) :
    wordOfBytes (byteOfWord v 0) (byteOfWord v 1) (byteOfWord v 2) (byteOfWord v 3) = v := by
  apply BitVec.eq_of_getLsbD_eq
  intro i hi
  simp only [wordOfBytes, byteOfWord, BitVec.getLsbD_append, BitVec.getLsbD_extractLsb']
  have : i < 8 ∨ (8 ≤ i ∧ i < 16) ∨ (16 ≤ i ∧ i < 24) ∨ (24 ≤ i ∧ i < 32) := by omega
  rcases this with h | ⟨h, h'⟩ | ⟨h, h'⟩ | ⟨h, h'⟩
  · simp [h]
  · have e : 8 + (i - 8) = i := by omega
    have : i - 8 < 8 := by omega
    simp [show ¬ i < 8 by omega, this, e]
  · have e : 16 + (i - 8 - 8) = i := by omega
    have : i - 8 - 8 < 8 := by omega
    simp [show ¬ i < 8 by omega, show ¬ i - 8 < 8 by omega, this, e]
  · have e : 24 + (i - 8 - 8 - 8) = i := by omega
    have : i - 8 - 8 - 8 < 8 := by omega
    simp [show ¬ i < 8 by omega, show ¬ i - 8 < 8 by omega, show ¬ i - 8 - 8 < 8 by omega, this, e]

/-- The value of an access bit by bit: bit `j` is bit `j mod 8` of byte `j / 8`, and the bits above the width are zero
(20_memory.md R51, R54). -/
theorem getLsbD_assemble (width : Width) (b : Nat → Byte) (j : Nat) :
    (assemble width b).getLsbD j = if j < 8 * width.bytes then (b (j / 8)).getLsbD (j % 8) else false := by
  split
  · next h =>
    have : j < 32 := by cases width <;> simp [Width.bytes] at h <;> omega
    interval_cases j <;> cases width <;>
      first
      | (simp [Width.bytes] at h; done)
      | (simp only [assemble, wordOfBytes, BitVec.getLsbD_setWidth, BitVec.getLsbD_append]
         simp)
  · next h =>
    cases width <;> simp [Width.bytes] at h <;>
      simp [assemble, wordOfBytes, BitVec.getLsbD_setWidth] <;>
      intros <;> first | omega | exact BitVec.getLsbD_of_ge _ _ (by omega)

theorem Memory.getLsbD_loadVia (m : Memory) (loc : Word → Word) (width : Width) (a : Word) (j : Nat) :
    (m.loadVia loc width a).getLsbD j =
      if j < 8 * width.bytes then (m.byteAt (loc (a + BitVec.ofNat 32 (j / 8)))).getLsbD (j % 8) else false :=
  getLsbD_assemble width _ j

/-! ### Where the bytes of a byte array stand -/

/-- Without a wrapping window every address names its own byte. -/
theorem MemPolicy.locate_refuse {p : MemPolicy} (h : p.outOfRange = .refuse) (a : Word) : p.locate a = a := by
  unfold MemPolicy.locate; split
  · next h' => rw [h] at h'; cases h'
  · rfl

@[simp] theorem MemPolicy.locate_reference (a : Word) : MemPolicy.reference.locate a = a := rfl

theorem MemPolicy.locate_reference_eq : MemPolicy.reference.locate = id := rfl

end Sys2Proof.Machine
end

