-- ==== Sys2Proof/Laws/State.lean ====
section
/-! SUPPORT. One lemma per field per update of the state, so that no proof unfolds a record update, and the register file's
read-after-write laws (10_state.md R21, R22). -/

namespace Sys2Proof.Machine

/-! ### The requests `MEM` remembers -/

@[simp] theorem MemModel.requests_array (p : MemPolicy) (new : List Event) : (MemModel.array p).requests new = [] := rfl
@[simp] theorem MemModel.requests_nil (mem : MemModel) : mem.requests [] = [] := by cases mem <;> rfl
theorem MemModel.requests_append (mem : MemModel) (a b : List Event) :
    mem.requests (a ++ b) = mem.requests a ++ mem.requests b := by
  cases mem with
  | array p => rfl
  | other object => exact List.filterMap_append
theorem MemModel.requests_cons (mem : MemModel) (e : Event) (new : List Event) :
    mem.requests (e :: new) = mem.requests [e] ++ mem.requests new := MemModel.requests_append mem [e] new
@[simp] theorem MemModel.requests_inGet (mem : MemModel) (c : Option Byte) : mem.requests [.inGet c] = [] := by cases mem <;> rfl
@[simp] theorem MemModel.requests_outPut (mem : MemModel) (b : Byte) : mem.requests [.outPut b] = [] := by cases mem <;> rfl
@[simp] theorem MemModel.requests_diag (mem : MemModel) (r : DiagRecord) : mem.requests [.diag r] = [] := by cases mem <;> rfl
@[simp] theorem MemModel.requests_trace (mem : MemModel) (r : TraceRecord) : mem.requests [.trace r] = [] := by cases mem <;> rfl

/-! ### s.setReg r v -/

@[simp] theorem State.setReg_pc (s : State) (r : RegIdx) (v : Word) : (s.setReg r v).pc = s.pc := by
  unfold State.setReg; split <;> rfl
@[simp] theorem State.setReg_runState (s : State) (r : RegIdx) (v : Word) : (s.setReg r v).runState = s.runState := by
  unfold State.setReg; split <;> rfl
@[simp] theorem State.setReg_retired (s : State) (r : RegIdx) (v : Word) : (s.setReg r v).retired = s.retired := by
  unfold State.setReg; split <;> rfl
@[simp] theorem State.setReg_mem (s : State) (r : RegIdx) (v : Word) : (s.setReg r v).mem = s.mem := by
  unfold State.setReg; split <;> rfl
@[simp] theorem State.setReg_inPos (s : State) (r : RegIdx) (v : Word) : (s.setReg r v).inPos = s.inPos := by
  unfold State.setReg; split <;> rfl
@[simp] theorem State.setReg_events (s : State) (r : RegIdx) (v : Word) : (s.setReg r v).events = s.events := by
  unfold State.setReg; split <;> rfl
@[simp] theorem State.setReg_input (s : State) (r : RegIdx) (v : Word) : (s.setReg r v).input = s.input := by
  unfold State.setReg; split <;> rfl
@[simp] theorem State.setReg_cfg (s : State) (r : RegIdx) (v : Word) : (s.setReg r v).cfg = s.cfg := by
  unfold State.setReg; split <;> rfl
@[simp] theorem State.setReg_draws (s : State) (r : RegIdx) (v : Word) : (s.setReg r v).draws = s.draws := by
  unfold State.setReg; split <;> rfl
@[simp] theorem State.setReg_memSeen (s : State) (r : RegIdx) (v : Word) : (s.setReg r v).memSeen = s.memSeen := by
  unfold State.setReg; split <;> rfl

/-! ### s.emit e -/

@[simp] theorem State.emit_regs (s : State) (e : Event) : (s.emit e).regs = s.regs := rfl
@[simp] theorem State.emit_pc (s : State) (e : Event) : (s.emit e).pc = s.pc := rfl
@[simp] theorem State.emit_runState (s : State) (e : Event) : (s.emit e).runState = s.runState := rfl
@[simp] theorem State.emit_retired (s : State) (e : Event) : (s.emit e).retired = s.retired := rfl
@[simp] theorem State.emit_mem (s : State) (e : Event) : (s.emit e).mem = s.mem := rfl
@[simp] theorem State.emit_inPos (s : State) (e : Event) : (s.emit e).inPos = s.inPos := rfl
@[simp] theorem State.emit_events (s : State) (e : Event) :
    (s.emit e).events = s.events ++ [e] := rfl
@[simp] theorem State.emit_input (s : State) (e : Event) : (s.emit e).input = s.input := rfl
@[simp] theorem State.emit_cfg (s : State) (e : Event) : (s.emit e).cfg = s.cfg := rfl
@[simp] theorem State.emit_draws (s : State) (e : Event) : (s.emit e).draws = s.draws := rfl
@[simp] theorem State.emit_memSeen (s : State) (e : Event) :
    (s.emit e).memSeen = s.memSeen ++ s.cfg.mem.requests [e] := rfl

/-! ### s.outPut b -/

@[simp] theorem State.outPut_regs (s : State) (b : Byte) : (s.outPut b).regs = s.regs := rfl
@[simp] theorem State.outPut_pc (s : State) (b : Byte) : (s.outPut b).pc = s.pc := rfl
@[simp] theorem State.outPut_runState (s : State) (b : Byte) : (s.outPut b).runState = s.runState := rfl
@[simp] theorem State.outPut_retired (s : State) (b : Byte) : (s.outPut b).retired = s.retired := rfl
@[simp] theorem State.outPut_mem (s : State) (b : Byte) : (s.outPut b).mem = s.mem := rfl
@[simp] theorem State.outPut_inPos (s : State) (b : Byte) : (s.outPut b).inPos = s.inPos := rfl
@[simp] theorem State.outPut_events (s : State) (b : Byte) :
    (s.outPut b).events = s.events ++ [.outPut b] := rfl
@[simp] theorem State.outPut_input (s : State) (b : Byte) : (s.outPut b).input = s.input := rfl
@[simp] theorem State.outPut_cfg (s : State) (b : Byte) : (s.outPut b).cfg = s.cfg := rfl
@[simp] theorem State.outPut_draws (s : State) (b : Byte) : (s.outPut b).draws = s.draws := rfl
@[simp] theorem State.outPut_memSeen (s : State) (b : Byte) : (s.outPut b).memSeen = s.memSeen := by
  simp [State.outPut]

/-! ### s.diag k v -/

@[simp] theorem State.diag_regs (s : State) (k : DiagKind) (v : Word) : (s.diag k v).regs = s.regs := rfl
@[simp] theorem State.diag_pc (s : State) (k : DiagKind) (v : Word) : (s.diag k v).pc = s.pc := rfl
@[simp] theorem State.diag_runState (s : State) (k : DiagKind) (v : Word) : (s.diag k v).runState = s.runState := rfl
@[simp] theorem State.diag_retired (s : State) (k : DiagKind) (v : Word) : (s.diag k v).retired = s.retired := rfl
@[simp] theorem State.diag_mem (s : State) (k : DiagKind) (v : Word) : (s.diag k v).mem = s.mem := rfl
@[simp] theorem State.diag_inPos (s : State) (k : DiagKind) (v : Word) : (s.diag k v).inPos = s.inPos := rfl
@[simp] theorem State.diag_events (s : State) (k : DiagKind) (v : Word) :
    (s.diag k v).events = s.events ++ [.diag { kind := k, pc := s.pc, value := v }] := rfl
@[simp] theorem State.diag_input (s : State) (k : DiagKind) (v : Word) : (s.diag k v).input = s.input := rfl
@[simp] theorem State.diag_cfg (s : State) (k : DiagKind) (v : Word) : (s.diag k v).cfg = s.cfg := rfl
@[simp] theorem State.diag_draws (s : State) (k : DiagKind) (v : Word) : (s.diag k v).draws = s.draws := rfl
@[simp] theorem State.diag_memSeen (s : State) (k : DiagKind) (v : Word) : (s.diag k v).memSeen = s.memSeen := by
  simp [State.diag]

/-! ### s.halt -/

@[simp] theorem State.halt_regs (s : State) : (s.halt).regs = s.regs := rfl
@[simp] theorem State.halt_pc (s : State) : (s.halt).pc = s.pc := rfl
@[simp] theorem State.halt_runState (s : State) :
    (s.halt).runState = .halted := rfl
@[simp] theorem State.halt_retired (s : State) : (s.halt).retired = s.retired := rfl
@[simp] theorem State.halt_mem (s : State) : (s.halt).mem = s.mem := rfl
@[simp] theorem State.halt_inPos (s : State) : (s.halt).inPos = s.inPos := rfl
@[simp] theorem State.halt_events (s : State) : (s.halt).events = s.events := rfl
@[simp] theorem State.halt_input (s : State) : (s.halt).input = s.input := rfl
@[simp] theorem State.halt_cfg (s : State) : (s.halt).cfg = s.cfg := rfl
@[simp] theorem State.halt_draws (s : State) : (s.halt).draws = s.draws := rfl
@[simp] theorem State.halt_memSeen (s : State) : (s.halt).memSeen = s.memSeen := rfl

/-! ### s.jump t -/

@[simp] theorem State.jump_regs (s : State) (t : Word) : (s.jump t).regs = s.regs := rfl
@[simp] theorem State.jump_pc (s : State) (t : Word) :
    (s.jump t).pc = t := rfl
@[simp] theorem State.jump_runState (s : State) (t : Word) : (s.jump t).runState = s.runState := rfl
@[simp] theorem State.jump_retired (s : State) (t : Word) : (s.jump t).retired = s.retired := rfl
@[simp] theorem State.jump_mem (s : State) (t : Word) : (s.jump t).mem = s.mem := rfl
@[simp] theorem State.jump_inPos (s : State) (t : Word) : (s.jump t).inPos = s.inPos := rfl
@[simp] theorem State.jump_events (s : State) (t : Word) : (s.jump t).events = s.events := rfl
@[simp] theorem State.jump_input (s : State) (t : Word) : (s.jump t).input = s.input := rfl
@[simp] theorem State.jump_cfg (s : State) (t : Word) : (s.jump t).cfg = s.cfg := rfl
@[simp] theorem State.jump_draws (s : State) (t : Word) : (s.jump t).draws = s.draws := rfl
@[simp] theorem State.jump_memSeen (s : State) (t : Word) : (s.jump t).memSeen = s.memSeen := rfl

/-! ### s.advance -/

@[simp] theorem State.advance_regs (s : State) : (s.advance).regs = s.regs := rfl
@[simp] theorem State.advance_pc (s : State) :
    (s.advance).pc = s.pc + 4 := rfl
@[simp] theorem State.advance_runState (s : State) : (s.advance).runState = s.runState := rfl
@[simp] theorem State.advance_retired (s : State) : (s.advance).retired = s.retired := rfl
@[simp] theorem State.advance_mem (s : State) : (s.advance).mem = s.mem := rfl
@[simp] theorem State.advance_inPos (s : State) : (s.advance).inPos = s.inPos := rfl
@[simp] theorem State.advance_events (s : State) : (s.advance).events = s.events := rfl
@[simp] theorem State.advance_input (s : State) : (s.advance).input = s.input := rfl
@[simp] theorem State.advance_cfg (s : State) : (s.advance).cfg = s.cfg := rfl
@[simp] theorem State.advance_draws (s : State) : (s.advance).draws = s.draws := rfl
@[simp] theorem State.advance_memSeen (s : State) : (s.advance).memSeen = s.memSeen := rfl

/-! ### s.retire -/

@[simp] theorem State.retire_regs (s : State) : (s.retire).regs = s.regs := rfl
@[simp] theorem State.retire_pc (s : State) : (s.retire).pc = s.pc := rfl
@[simp] theorem State.retire_runState (s : State) : (s.retire).runState = s.runState := rfl
@[simp] theorem State.retire_retired (s : State) :
    (s.retire).retired = s.retired + 1 := rfl
@[simp] theorem State.retire_mem (s : State) : (s.retire).mem = s.mem := rfl
@[simp] theorem State.retire_inPos (s : State) : (s.retire).inPos = s.inPos := rfl
@[simp] theorem State.retire_events (s : State) : (s.retire).events = s.events := rfl
@[simp] theorem State.retire_input (s : State) : (s.retire).input = s.input := rfl
@[simp] theorem State.retire_cfg (s : State) : (s.retire).cfg = s.cfg := rfl
@[simp] theorem State.retire_draws (s : State) : (s.retire).draws = s.draws := rfl
@[simp] theorem State.retire_memSeen (s : State) : (s.retire).memSeen = s.memSeen := rfl

/-! ### s.traced w -/

@[simp] theorem State.traced_regs (s : State) (w : Word) : (s.traced w).regs = s.regs := by
  unfold State.traced; split <;> rfl
@[simp] theorem State.traced_pc (s : State) (w : Word) : (s.traced w).pc = s.pc := by
  unfold State.traced; split <;> rfl
@[simp] theorem State.traced_runState (s : State) (w : Word) : (s.traced w).runState = s.runState := by
  unfold State.traced; split <;> rfl
@[simp] theorem State.traced_retired (s : State) (w : Word) : (s.traced w).retired = s.retired := by
  unfold State.traced; split <;> rfl
@[simp] theorem State.traced_mem (s : State) (w : Word) : (s.traced w).mem = s.mem := by
  unfold State.traced; split <;> rfl
@[simp] theorem State.traced_inPos (s : State) (w : Word) : (s.traced w).inPos = s.inPos := by
  unfold State.traced; split <;> rfl
@[simp] theorem State.traced_events (s : State) (w : Word) :
    (s.traced w).events = s.events ++ if s.cfg.traceEn then [.trace { pc := s.pc, word := w }] else [] := by
  unfold State.traced; split <;> simp [State.emit]
@[simp] theorem State.traced_input (s : State) (w : Word) : (s.traced w).input = s.input := by
  unfold State.traced; split <;> rfl
@[simp] theorem State.traced_cfg (s : State) (w : Word) : (s.traced w).cfg = s.cfg := by
  unfold State.traced; split <;> rfl
@[simp] theorem State.traced_draws (s : State) (w : Word) : (s.traced w).draws = s.draws := by
  unfold State.traced; split <;> rfl
@[simp] theorem State.traced_memSeen (s : State) (w : Word) : (s.traced w).memSeen = s.memSeen := by
  unfold State.traced; split <;> simp [State.emit]

/-! ### s.placeWord w -/

@[simp] theorem State.placeWord_regs (s : State) (w : Word) : (s.placeWord w).regs = s.regs := rfl
@[simp] theorem State.placeWord_pc (s : State) (w : Word) : (s.placeWord w).pc = s.pc := rfl
@[simp] theorem State.placeWord_runState (s : State) (w : Word) : (s.placeWord w).runState = s.runState := rfl
@[simp] theorem State.placeWord_retired (s : State) (w : Word) : (s.placeWord w).retired = s.retired := rfl
@[simp] theorem State.placeWord_mem (s : State) (w : Word) :
    (s.placeWord w).mem = s.mem.storeVia s.cfg.mem.locate .word s.pc w := rfl
@[simp] theorem State.placeWord_inPos (s : State) (w : Word) : (s.placeWord w).inPos = s.inPos := rfl
@[simp] theorem State.placeWord_events (s : State) (w : Word) : (s.placeWord w).events = s.events := rfl
@[simp] theorem State.placeWord_input (s : State) (w : Word) : (s.placeWord w).input = s.input := rfl
@[simp] theorem State.placeWord_cfg (s : State) (w : Word) : (s.placeWord w).cfg = s.cfg := rfl
@[simp] theorem State.placeWord_draws (s : State) (w : Word) : (s.placeWord w).draws = s.draws := rfl
@[simp] theorem State.placeWord_memSeen (s : State) (w : Word) : (s.placeWord w).memSeen = s.memSeen := rfl

/-! ### Reading a register after an update -/

@[simp] theorem State.x_zero (s : State) : s.x 0#5 = 0#32 := rfl

/-- A register read depends on the register file alone. -/
theorem State.x_congr {s t : State} (h : t.regs = s.regs) (r : RegIdx) : t.x r = s.x r := by
  unfold State.x; simp [h]

@[simp] theorem State.x_emit (s : State) (e : Event) (r : RegIdx) : (s.emit e).x r = s.x r :=
  State.x_congr (by simp) r
@[simp] theorem State.x_outPut (s : State) (b : Byte) (r : RegIdx) : (s.outPut b).x r = s.x r :=
  State.x_congr (by simp) r
@[simp] theorem State.x_diag (s : State) (k : DiagKind) (v : Word) (r : RegIdx) : (s.diag k v).x r = s.x r :=
  State.x_congr (by simp) r
@[simp] theorem State.x_halt (s : State)  (r : RegIdx) : (s.halt).x r = s.x r :=
  State.x_congr (by simp) r
@[simp] theorem State.x_jump (s : State) (t : Word) (r : RegIdx) : (s.jump t).x r = s.x r :=
  State.x_congr (by simp) r
@[simp] theorem State.x_advance (s : State)  (r : RegIdx) : (s.advance).x r = s.x r :=
  State.x_congr (by simp) r
@[simp] theorem State.x_retire (s : State)  (r : RegIdx) : (s.retire).x r = s.x r :=
  State.x_congr (by simp) r
@[simp] theorem State.x_traced (s : State) (w : Word) (r : RegIdx) : (s.traced w).x r = s.x r :=
  State.x_congr (by simp) r
@[simp] theorem State.x_placeWord (s : State) (w : Word) (r : RegIdx) : (s.placeWord w).x r = s.x r :=
  State.x_congr (by simp) r

@[simp] theorem State.setReg_zero (s : State) (v : Word) : s.setReg 0#5 v = s := rfl

/-- Read after write, in one line: `x[0]` reads 0, the written register reads the value, any other is unchanged. -/
theorem State.x_setReg (s : State) (r : RegIdx) (v : Word) (q : RegIdx) :
    (s.setReg r v).x q = if q = 0#5 then 0#32 else if q = r then v else s.x q := by
  by_cases hq : q = 0#5
  · subst hq; simp
  by_cases hr : r = 0#5
  · subst hr; simp [hq]
  have hq' : q.toNat ≠ 0 := fun h => hq (BitVec.eq_of_toNat_eq h)
  have hr' : r.toNat ≠ 0 := fun h => hr (BitVec.eq_of_toNat_eq h)
  by_cases h : q = r
  · subst h; simp only [State.x, State.setReg, hq, if_false, if_true, Vector.getElem_set_self]
  · have hne : r.toNat - 1 ≠ q.toNat - 1 := by
      have : q.toNat ≠ r.toNat := fun h' => h (BitVec.eq_of_toNat_eq h')
      omega
    simp only [State.x, State.setReg, hq, hr, h, if_false, Vector.getElem_set_ne _ _ hne]

/-- A write leaves every other register alone. -/
theorem State.x_setReg_ne (s : State) {r q : RegIdx} (v : Word) (h : q ≠ r) : (s.setReg r v).x q = s.x q := by
  rw [State.x_setReg]; by_cases hq : q = 0#5 <;> simp [hq, h]

/-- Two states with equal fields and equal register reads are equal. -/
theorem State.ext_x {s t : State} (hx : ∀ r, s.x r = t.x r) (hpc : s.pc = t.pc) (hrs : s.runState = t.runState)
    (hret : s.retired = t.retired) (hmem : s.mem = t.mem) (hin : s.inPos = t.inPos) (hev : s.events = t.events)
    (hinp : s.input = t.input) (hcfg : s.cfg = t.cfg) (hd : s.draws = t.draws)
    (hseen : s.memSeen = t.memSeen) : s = t := by
  obtain ⟨r1, p1, s1, n1, m1, i1, e1, j1, c1, d1, w1⟩ := s
  obtain ⟨r2, p2, s2, n2, m2, i2, e2, j2, c2, d2, w2⟩ := t
  simp only at hpc hrs hret hmem hin hev hinp hcfg hd hseen
  subst hpc hrs hret hmem hin hev hinp hcfg hd hseen
  have : r1 = r2 := by
    apply Vector.ext
    intro k hk
    have h := hx (BitVec.ofNat 5 (k + 1))
    have hk' : (BitVec.ofNat 5 (k + 1)).toNat = k + 1 := by simp; omega
    have hne : BitVec.ofNat 5 (k + 1) ≠ 0#5 := fun h0 => by
      have := congrArg BitVec.toNat h0; rw [hk'] at this; simp at this
    have e : k + 1 - 1 = k := rfl
    simpa only [State.x, hne, if_false, hk', e] using h
  subst this; rfl

/-! ### What `MEM` does depends on the parameter, the contents and the requests seen -/

theorem State.answer_congr {s t : State} (hc : t.cfg = s.cfg) (hm : t.mem = s.mem) (hs : t.memSeen = s.memSeen)
    (width : Width) (a : Word) : t.answer width a = s.answer width a := by
  unfold State.answer; rw [hc, hm, hs]

theorem State.servesRead_congr {s t : State} (hc : t.cfg = s.cfg) (hm : t.mem = s.mem) (hs : t.memSeen = s.memSeen)
    (width : Width) (a : Word) : t.servesRead width a = s.servesRead width a := by
  unfold State.servesRead; rw [hc, hm, hs]

theorem State.servesWrite_congr {s t : State} (hc : t.cfg = s.cfg) (hm : t.mem = s.mem) (hs : t.memSeen = s.memSeen)
    (width : Width) (a v : Word) : t.servesWrite width a v = s.servesWrite width a v := by
  unfold State.servesWrite; rw [hc, hm, hs]

theorem State.stored_congr {s t : State} (hc : t.cfg = s.cfg) (hm : t.mem = s.mem) (width : Width) (a v : Word) :
    t.stored width a v = s.stored width a v := by
  unfold State.stored; rw [hc, hm]

@[simp] theorem State.answer_setReg (s : State) (r : RegIdx) (v : Word) (width : Width) (a : Word) :
    (s.setReg r v).answer width a = s.answer width a := State.answer_congr (by simp) (by simp) (by simp) width a
@[simp] theorem State.servesRead_setReg (s : State) (r : RegIdx) (v : Word) (width : Width) (a : Word) :
    (s.setReg r v).servesRead width a = s.servesRead width a := State.servesRead_congr (by simp) (by simp) (by simp) width a
@[simp] theorem State.servesWrite_setReg (s : State) (r : RegIdx) (v : Word) (width : Width) (a w : Word) :
    (s.setReg r v).servesWrite width a w = s.servesWrite width a w :=
  State.servesWrite_congr (by simp) (by simp) (by simp) width a w
@[simp] theorem State.stored_setReg (s : State) (r : RegIdx) (v : Word) (width : Width) (a w : Word) :
    (s.setReg r v).stored width a w = s.stored width a w := State.stored_congr (by simp) (by simp) width a w

/-! ### The views of the transaction record -/

@[simp] theorem Event.outByte_memRead (w : Width) (a v : Word) : Event.outByte (.memRead w a v) = none := rfl
@[simp] theorem Event.outByte_memWrite (w : Width) (a v : Word) : Event.outByte (.memWrite w a v) = none := rfl
@[simp] theorem Event.outByte_inGet (c : Option Byte) : Event.outByte (.inGet c) = none := rfl
@[simp] theorem Event.outByte_outPut (b : Byte) : Event.outByte (.outPut b) = some b := rfl
@[simp] theorem Event.outByte_diag (r : DiagRecord) : Event.outByte (.diag r) = none := rfl
@[simp] theorem Event.outByte_trace (r : TraceRecord) : Event.outByte (.trace r) = none := rfl
@[simp] theorem Event.diagRecord_memRead (w : Width) (a v : Word) : Event.diagRecord (.memRead w a v) = none := rfl
@[simp] theorem Event.diagRecord_memWrite (w : Width) (a v : Word) : Event.diagRecord (.memWrite w a v) = none := rfl
@[simp] theorem Event.diagRecord_inGet (c : Option Byte) : Event.diagRecord (.inGet c) = none := rfl
@[simp] theorem Event.diagRecord_outPut (b : Byte) : Event.diagRecord (.outPut b) = none := rfl
@[simp] theorem Event.diagRecord_diag (r : DiagRecord) : Event.diagRecord (.diag r) = some r := rfl
@[simp] theorem Event.diagRecord_trace (r : TraceRecord) : Event.diagRecord (.trace r) = none := rfl
@[simp] theorem Event.traceRecord_memRead (w : Width) (a v : Word) : Event.traceRecord (.memRead w a v) = none := rfl
@[simp] theorem Event.traceRecord_memWrite (w : Width) (a v : Word) : Event.traceRecord (.memWrite w a v) = none := rfl
@[simp] theorem Event.traceRecord_inGet (c : Option Byte) : Event.traceRecord (.inGet c) = none := rfl
@[simp] theorem Event.traceRecord_outPut (b : Byte) : Event.traceRecord (.outPut b) = none := rfl
@[simp] theorem Event.traceRecord_diag (r : DiagRecord) : Event.traceRecord (.diag r) = none := rfl
@[simp] theorem Event.traceRecord_trace (r : TraceRecord) : Event.traceRecord (.trace r) = some r := rfl

/-- Transactions added at the end add their own part of `out` at its end. -/
theorem State.out_append {s t : State} {new : List Event} (h : t.events = s.events ++ new) :
    t.out = s.out ++ new.filterMap Event.outByte := by
  rw [State.out, h, List.filterMap_append]; rfl

/-- Transactions added at the end add their own part of `diagLog` at its end. -/
theorem State.diagLog_append {s t : State} {new : List Event} (h : t.events = s.events ++ new) :
    t.diagLog = s.diagLog ++ new.filterMap Event.diagRecord := by
  rw [State.diagLog, h, List.filterMap_append]; rfl

/-- Transactions added at the end add their own part of `traceLog` at its end. -/
theorem State.traceLog_append {s t : State} {new : List Event} (h : t.events = s.events ++ new) :
    t.traceLog = s.traceLog ++ new.filterMap Event.traceRecord := by
  rw [State.traceLog, h, List.filterMap_append]; rfl

/-- `out` depends on the transaction record alone. -/
theorem State.out_congr {s t : State} (h : t.events = s.events) : t.out = s.out := by
  unfold State.out; rw [h]

@[simp] theorem State.out_setReg (s : State) (r : RegIdx) (v : Word) : (s.setReg r v).out = s.out := State.out_congr (by simp)
@[simp] theorem State.out_halt (s : State)  : (s.halt).out = s.out := State.out_congr (by simp)
@[simp] theorem State.out_jump (s : State) (t : Word) : (s.jump t).out = s.out := State.out_congr (by simp)
@[simp] theorem State.out_advance (s : State)  : (s.advance).out = s.out := State.out_congr (by simp)
@[simp] theorem State.out_retire (s : State)  : (s.retire).out = s.out := State.out_congr (by simp)
@[simp] theorem State.out_placeWord (s : State) (w : Word) : (s.placeWord w).out = s.out := State.out_congr (by simp)

/-- `diagLog` depends on the transaction record alone. -/
theorem State.diagLog_congr {s t : State} (h : t.events = s.events) : t.diagLog = s.diagLog := by
  unfold State.diagLog; rw [h]

@[simp] theorem State.diagLog_setReg (s : State) (r : RegIdx) (v : Word) : (s.setReg r v).diagLog = s.diagLog := State.diagLog_congr (by simp)
@[simp] theorem State.diagLog_halt (s : State)  : (s.halt).diagLog = s.diagLog := State.diagLog_congr (by simp)
@[simp] theorem State.diagLog_jump (s : State) (t : Word) : (s.jump t).diagLog = s.diagLog := State.diagLog_congr (by simp)
@[simp] theorem State.diagLog_advance (s : State)  : (s.advance).diagLog = s.diagLog := State.diagLog_congr (by simp)
@[simp] theorem State.diagLog_retire (s : State)  : (s.retire).diagLog = s.diagLog := State.diagLog_congr (by simp)
@[simp] theorem State.diagLog_placeWord (s : State) (w : Word) : (s.placeWord w).diagLog = s.diagLog := State.diagLog_congr (by simp)

/-- `traceLog` depends on the transaction record alone. -/
theorem State.traceLog_congr {s t : State} (h : t.events = s.events) : t.traceLog = s.traceLog := by
  unfold State.traceLog; rw [h]

@[simp] theorem State.traceLog_setReg (s : State) (r : RegIdx) (v : Word) : (s.setReg r v).traceLog = s.traceLog := State.traceLog_congr (by simp)
@[simp] theorem State.traceLog_halt (s : State)  : (s.halt).traceLog = s.traceLog := State.traceLog_congr (by simp)
@[simp] theorem State.traceLog_jump (s : State) (t : Word) : (s.jump t).traceLog = s.traceLog := State.traceLog_congr (by simp)
@[simp] theorem State.traceLog_advance (s : State)  : (s.advance).traceLog = s.traceLog := State.traceLog_congr (by simp)
@[simp] theorem State.traceLog_retire (s : State)  : (s.retire).traceLog = s.traceLog := State.traceLog_congr (by simp)
@[simp] theorem State.traceLog_placeWord (s : State) (w : Word) : (s.placeWord w).traceLog = s.traceLog := State.traceLog_congr (by simp)

@[simp] theorem State.out_outPut (s : State) (b : Byte) :
    (s.outPut b).out = s.out ++ [b] := by
  simp only [State.out, State.outPut_events, List.filterMap_append]
  simp
@[simp] theorem State.out_diag (s : State) (k : DiagKind) (v : Word) :
    (s.diag k v).out = s.out := by
  simp only [State.out, State.diag_events, List.filterMap_append]
  simp
@[simp] theorem State.out_traced (s : State) (w : Word) :
    (s.traced w).out = s.out := by
  simp only [State.out, State.traced_events, List.filterMap_append]
  cases s.cfg.traceEn <;> simp

@[simp] theorem State.out_emit_memRead (s : State) (w : Width) (a v : Word) : (s.emit (.memRead w a v)).out = s.out := by
  simp [State.out, List.filterMap_append]
@[simp] theorem State.out_emit_memWrite (s : State) (w : Width) (a v : Word) : (s.emit (.memWrite w a v)).out = s.out := by
  simp [State.out, List.filterMap_append]
@[simp] theorem State.out_emit_inGet (s : State) (c : Option Byte) : (s.emit (.inGet c)).out = s.out := by
  simp [State.out, List.filterMap_append]

@[simp] theorem State.diagLog_outPut (s : State) (b : Byte) :
    (s.outPut b).diagLog = s.diagLog := by
  simp only [State.diagLog, State.outPut_events, List.filterMap_append]
  simp
@[simp] theorem State.diagLog_diag (s : State) (k : DiagKind) (v : Word) :
    (s.diag k v).diagLog = s.diagLog ++ [{ kind := k, pc := s.pc, value := v }] := by
  simp only [State.diagLog, State.diag_events, List.filterMap_append]
  simp
@[simp] theorem State.diagLog_traced (s : State) (w : Word) :
    (s.traced w).diagLog = s.diagLog := by
  simp only [State.diagLog, State.traced_events, List.filterMap_append]
  cases s.cfg.traceEn <;> simp

@[simp] theorem State.diagLog_emit_memRead (s : State) (w : Width) (a v : Word) : (s.emit (.memRead w a v)).diagLog = s.diagLog := by
  simp [State.diagLog, List.filterMap_append]
@[simp] theorem State.diagLog_emit_memWrite (s : State) (w : Width) (a v : Word) : (s.emit (.memWrite w a v)).diagLog = s.diagLog := by
  simp [State.diagLog, List.filterMap_append]
@[simp] theorem State.diagLog_emit_inGet (s : State) (c : Option Byte) : (s.emit (.inGet c)).diagLog = s.diagLog := by
  simp [State.diagLog, List.filterMap_append]

@[simp] theorem State.traceLog_outPut (s : State) (b : Byte) :
    (s.outPut b).traceLog = s.traceLog := by
  simp only [State.traceLog, State.outPut_events, List.filterMap_append]
  simp
@[simp] theorem State.traceLog_diag (s : State) (k : DiagKind) (v : Word) :
    (s.diag k v).traceLog = s.traceLog := by
  simp only [State.traceLog, State.diag_events, List.filterMap_append]
  simp
@[simp] theorem State.traceLog_traced (s : State) (w : Word) :
    (s.traced w).traceLog = s.traceLog ++ if s.cfg.traceEn then [{ pc := s.pc, word := w }] else [] := by
  simp only [State.traceLog, State.traced_events, List.filterMap_append]
  cases s.cfg.traceEn <;> simp

@[simp] theorem State.traceLog_emit_memRead (s : State) (w : Width) (a v : Word) : (s.emit (.memRead w a v)).traceLog = s.traceLog := by
  simp [State.traceLog, List.filterMap_append]
@[simp] theorem State.traceLog_emit_memWrite (s : State) (w : Width) (a v : Word) : (s.emit (.memWrite w a v)).traceLog = s.traceLog := by
  simp [State.traceLog, List.filterMap_append]
@[simp] theorem State.traceLog_emit_inGet (s : State) (c : Option Byte) : (s.emit (.inGet c)).traceLog = s.traceLog := by
  simp [State.traceLog, List.filterMap_append]

/-! A change of memory, of the input index or of the draw counter is no transaction. -/

@[simp] theorem State.out_withMem (s : State) (m : Memory) : State.out { s with mem := m } = s.out := rfl
@[simp] theorem State.out_withInPos (s : State) (n : Nat) : State.out { s with inPos := n } = s.out := rfl
@[simp] theorem State.out_withDraws (s : State) (n : Nat) : State.out { s with draws := n } = s.out := rfl
@[simp] theorem State.diagLog_withMem (s : State) (m : Memory) : State.diagLog { s with mem := m } = s.diagLog := rfl
@[simp] theorem State.diagLog_withInPos (s : State) (n : Nat) : State.diagLog { s with inPos := n } = s.diagLog := rfl
@[simp] theorem State.diagLog_withDraws (s : State) (n : Nat) : State.diagLog { s with draws := n } = s.diagLog := rfl
@[simp] theorem State.traceLog_withMem (s : State) (m : Memory) : State.traceLog { s with mem := m } = s.traceLog := rfl
@[simp] theorem State.traceLog_withInPos (s : State) (n : Nat) : State.traceLog { s with inPos := n } = s.traceLog := rfl
@[simp] theorem State.traceLog_withDraws (s : State) (n : Nat) : State.traceLog { s with draws := n } = s.traceLog := rfl

end Sys2Proof.Machine
end

