-- ==== Sys2Proof/Laws/Ops.lean ====
section
/-! SUPPORT. For each shared operation, what it answers: provers cite these instead of unfolding. -/

namespace Sys2Proof.Machine

/-! ### Memory requests -/

theorem State.memRead_served {s : State} {width : Width} {a : Word} (h : s.servesRead width a = true) :
    s.memRead width a = some (s.answer width a, s.emit (.memRead width a (s.answer width a))) := by
  simp [State.memRead, h]

theorem State.memRead_refused {s : State} {width : Width} {a : Word} (h : s.servesRead width a = false) :
    s.memRead width a = none := by
  simp [State.memRead, h]

theorem State.memWrite_served {s : State} {width : Width} {a v : Word} (h : s.servesWrite width a v = true) :
    s.memWrite width a v =
      some ({ s with mem := s.stored width a v }.emit (.memWrite width a (zext (8 * width.bytes) v))) := by
  simp [State.memWrite, h]

theorem State.memWrite_refused {s : State} {width : Width} {a v : Word} (h : s.servesWrite width a v = false) :
    s.memWrite width a v = none := by
  simp [State.memWrite, h]

/-- The reference memory serves every access (20_memory.md R56). -/
theorem admits_reference (width : Width) (a : Word) : admits .reference width a = true := rfl

/-! ### What a byte array answers, and what another collaborator keeps -/

theorem State.servesRead_array {s : State} {p : MemPolicy} (h : s.cfg.mem = .array p) (width : Width) (a : Word) :
    s.servesRead width a = admits p width a := by
  simp only [State.servesRead, h]

theorem State.servesWrite_array {s : State} {p : MemPolicy} (h : s.cfg.mem = .array p) (width : Width) (a v : Word) :
    s.servesWrite width a v = admits p width a := by
  simp only [State.servesWrite, h]

theorem State.answer_array {s : State} {p : MemPolicy} (h : s.cfg.mem = .array p) (width : Width) (a : Word) :
    s.answer width a = s.mem.loadVia p.locate width a := by
  simp only [State.answer, h]

theorem State.stored_array {s : State} {p : MemPolicy} (h : s.cfg.mem = .array p) (width : Width) (a v : Word) :
    s.stored width a v = s.mem.storeVia p.locate width a v := by
  simp only [State.stored, h]

/-- Whatever `MEM` is, a write keeps the canonical form of the contents. -/
theorem State.wf_stored {s : State} (h : s.mem.wf = true) (width : Width) (a v : Word) : (s.stored width a v).wf = true := by
  unfold State.stored; split
  · exact Memory.wf_storeVia h _ _ _ _
  · exact h

/-- Whatever `MEM` is, a write leaves every byte alone that none of its addresses names. -/
theorem State.byteAt_stored_outside (s : State) (width : Width) (a v c : Word)
    (h : ∀ k < width.bytes, c ≠ s.cfg.mem.locate (a + BitVec.ofNat 32 k)) : (s.stored width a v).byteAt c = s.mem.byteAt c := by
  unfold State.stored; split
  · next p hp => exact Memory.byteAt_storeBytes_outside _ _ _ _ _ _ fun k hk => by have := h k hk; rwa [hp] at this
  · rfl

/-- In a wrapping window every address names a byte of it. -/
theorem MemPolicy.locate_wrap {p : MemPolicy} {base size : Nat} (hw : p.window = some (base, size)) (ho : p.outOfRange = .wrap)
    (a : Word) : p.locate a = BitVec.ofNat 32 (base + (a - BitVec.ofNat 32 base).toNat % size) := by
  simp only [MemPolicy.locate, hw, ho]

/-! ### Loads and stores -/

/-- A load served: one read, the extended value to `rd`, the pc advanced. -/
theorem loadInto_served {s : State} {width : Width} {a : Word} (h : s.servesRead width a = true)
    (ext : Word → Word) (rd : RegIdx) :
    loadInto width ext rd a s =
      .next ((s.emit (.memRead width a (s.answer width a))).setReg rd (ext (s.answer width a))).advance := by
  simp [loadInto, State.memRead_served h, writeBack]

theorem loadInto_refused {s : State} {width : Width} {a : Word} (h : s.servesRead width a = false)
    (ext : Word → Word) (rd : RegIdx) : loadInto width ext rd a s = .fault (.loadRefused width a) := by
  simp [loadInto, State.memRead_refused h]

/-- A load that completes was served. -/
theorem loadInto_next {s t : State} {width : Width} {a : Word} {ext : Word → Word} {rd : RegIdx}
    (h : loadInto width ext rd a s = .next t) :
    s.servesRead width a = true ∧
      t = ((s.emit (.memRead width a (s.answer width a))).setReg rd (ext (s.answer width a))).advance := by
  cases ha : s.servesRead width a with
  | false => rw [loadInto_refused ha] at h; cases h
  | true => rw [loadInto_served ha] at h; cases h; exact ⟨rfl, rfl⟩

/-- A store served: the bytes written, one write issued, the pc advanced. -/
theorem storeTo_served {s : State} {width : Width} {a v : Word} (h : s.servesWrite width a v = true) :
    storeTo width a v s =
      .next ({ s with mem := s.stored width a v }.emit (.memWrite width a (zext (8 * width.bytes) v))).advance := by
  simp [storeTo, State.memWrite_served h]

theorem storeTo_refused {s : State} {width : Width} {a v : Word} (h : s.servesWrite width a v = false) :
    storeTo width a v s = .fault (.storeRefused width a) := by
  simp [storeTo, State.memWrite_refused h]

/-- A store that completes was served. -/
theorem storeTo_next {s t : State} {width : Width} {a v : Word} (h : storeTo width a v s = .next t) :
    s.servesWrite width a v = true ∧
      t = ({ s with mem := s.stored width a v }.emit (.memWrite width a (zext (8 * width.bytes) v))).advance := by
  cases ha : s.servesWrite width a v with
  | false => rw [storeTo_refused ha] at h; cases h
  | true => rw [storeTo_served ha] at h; cases h; exact ⟨rfl, rfl⟩

/-! ### The streams and the services -/

theorem State.inGet_byte {s : State} {b : Byte} (h : s.input[s.inPos]? = some b) :
    s.inGet = (some b, { s with inPos := s.inPos + 1 }.emit (.inGet (some b))) := by
  simp [State.inGet, h]

theorem State.inGet_end {s : State} (h : s.input[s.inPos]? = none) : s.inGet = (none, s.emit (.inGet none)) := by
  simp [State.inGet, h]

/-- Service 1 with a byte left. -/
theorem service_read {s : State} {b : Byte} (h : s.x regA7 = 1) (hb : s.input[s.inPos]? = some b) :
    service s = ({ s with inPos := s.inPos + 1 }.emit (.inGet (some b))).setReg regA0 (b.setWidth 32) := by
  simp [service, h, serviceRead, State.inGet_byte hb]

/-- Service 1 at end-of-input. -/
theorem service_eof {s : State} (h : s.x regA7 = 1) (hb : s.input[s.inPos]? = none) :
    service s = serviceEof (s.emit (.inGet none)) := by
  simp [service, h, serviceRead, State.inGet_end hb]

theorem service_write {s : State} (h : s.x regA7 = 2) : service s = s.outPut ((s.x regA0).extractLsb' 0 8) := by
  simp [service, h, serviceWrite]

theorem service_halt {s : State} (h : s.x regA7 = 3 ∨ s.x regA7 = 93) : service s = s.halt := by
  rcases h with h | h <;> simp [service, h]

theorem service_unknown {s : State} (h1 : s.x regA7 ≠ 1) (h2 : s.x regA7 ≠ 2) (h3 : s.x regA7 ≠ 3) (h93 : s.x regA7 ≠ 93) :
    service s = s.diag .unrecognisedSyscall (s.x regA7) := by
  rw [service, if_neg h1, if_neg h2, if_neg (not_or.2 ⟨h3, h93⟩)]

/-- Exactly these five things a service can do. -/
theorem service_cases (s : State) :
    (∃ b, s.x regA7 = 1 ∧ s.input[s.inPos]? = some b ∧
      service s = ({ s with inPos := s.inPos + 1 }.emit (.inGet (some b))).setReg regA0 (b.setWidth 32)) ∨
    (s.x regA7 = 1 ∧ s.input[s.inPos]? = none ∧ service s = serviceEof (s.emit (.inGet none))) ∨
    (s.x regA7 = 2 ∧ service s = s.outPut ((s.x regA0).extractLsb' 0 8)) ∨
    ((s.x regA7 = 3 ∨ s.x regA7 = 93) ∧ service s = s.halt) ∨
    (s.x regA7 ≠ 1 ∧ s.x regA7 ≠ 2 ∧ s.x regA7 ≠ 3 ∧ s.x regA7 ≠ 93 ∧
      service s = s.diag .unrecognisedSyscall (s.x regA7)) := by
  by_cases h1 : s.x regA7 = 1
  · cases hb : s.input[s.inPos]? with
    | some b => exact .inl ⟨b, h1, rfl, service_read h1 hb⟩
    | none => exact .inr (.inl ⟨h1, rfl, service_eof h1 hb⟩)
  by_cases h2 : s.x regA7 = 2
  · exact .inr (.inr (.inl ⟨h2, service_write h2⟩))
  by_cases h3 : s.x regA7 = 3 ∨ s.x regA7 = 93
  · exact .inr (.inr (.inr (.inl ⟨h3, service_halt h3⟩)))
  · rw [not_or] at h3
    exact .inr (.inr (.inr (.inr ⟨h1, h2, h3.1, h3.2, service_unknown h1 h2 h3.1 h3.2⟩)))

/-! ### End-of-input: what it leaves alone, field by field -/

/-- What `x10` may become at end-of-input, and what the draw counter does (46_system.md R257(c)). -/
theorem eofResult_cases (s : State) :
    (s.cfg.eofA0 = .anyValue ∧
      eofResult s = ({ s with draws := s.draws + 1 }.setReg regA0 (Config.freeWord s.draws))) ∨
    (s.cfg.eofA0 = .unchanged ∧ eofResult s = s) ∨
    (∃ v, s.cfg.eofA0 = .pinned v ∧ eofResult s = s.setReg regA0 v) := by
  cases h : s.cfg.eofA0 with
  | anyValue => exact .inl ⟨rfl, by simp [eofResult, h, State.draw]⟩
  | unchanged => exact .inr (.inl ⟨rfl, by simp [eofResult, h]⟩)
  | pinned v => exact .inr (.inr ⟨v, rfl, by simp [eofResult, h]⟩)

@[simp] theorem eofResult_pc (s : State) : (eofResult s).pc = s.pc := by
  rcases eofResult_cases s with ⟨-, h⟩ | ⟨-, h⟩ | ⟨v, -, h⟩ <;> simp [h]
@[simp] theorem eofResult_runState (s : State) : (eofResult s).runState = s.runState := by
  rcases eofResult_cases s with ⟨-, h⟩ | ⟨-, h⟩ | ⟨v, -, h⟩ <;> simp [h]
@[simp] theorem eofResult_retired (s : State) : (eofResult s).retired = s.retired := by
  rcases eofResult_cases s with ⟨-, h⟩ | ⟨-, h⟩ | ⟨v, -, h⟩ <;> simp [h]
@[simp] theorem eofResult_mem (s : State) : (eofResult s).mem = s.mem := by
  rcases eofResult_cases s with ⟨-, h⟩ | ⟨-, h⟩ | ⟨v, -, h⟩ <;> simp [h]
@[simp] theorem eofResult_inPos (s : State) : (eofResult s).inPos = s.inPos := by
  rcases eofResult_cases s with ⟨-, h⟩ | ⟨-, h⟩ | ⟨v, -, h⟩ <;> simp [h]
@[simp] theorem eofResult_events (s : State) : (eofResult s).events = s.events := by
  rcases eofResult_cases s with ⟨-, h⟩ | ⟨-, h⟩ | ⟨v, -, h⟩ <;> simp [h]
@[simp] theorem eofResult_input (s : State) : (eofResult s).input = s.input := by
  rcases eofResult_cases s with ⟨-, h⟩ | ⟨-, h⟩ | ⟨v, -, h⟩ <;> simp [h]
@[simp] theorem eofResult_cfg (s : State) : (eofResult s).cfg = s.cfg := by
  rcases eofResult_cases s with ⟨-, h⟩ | ⟨-, h⟩ | ⟨v, -, h⟩ <;> simp [h]
@[simp] theorem eofResult_memSeen (s : State) : (eofResult s).memSeen = s.memSeen := by
  rcases eofResult_cases s with ⟨-, h⟩ | ⟨-, h⟩ | ⟨v, -, h⟩ <;> simp [h]
theorem eofResult_draws (s : State) :
    (eofResult s).draws = if s.cfg.eofA0 = .anyValue then s.draws + 1 else s.draws := by
  rcases eofResult_cases s with ⟨hc, h⟩ | ⟨hc, h⟩ | ⟨v, hc, h⟩ <;> simp [h, hc]
/-- Only `x10` may change. -/
theorem eofResult_x_ne (s : State) {r : RegIdx} (hr : r ≠ regA0) : (eofResult s).x r = s.x r := by
  rcases eofResult_cases s with ⟨-, h⟩ | ⟨-, h⟩ | ⟨v, -, h⟩ <;> rw [h]
  · rw [State.x_setReg_ne _ _ hr]; rfl
  · rw [State.x_setReg_ne _ _ hr]

/-! ### Service 1 at end-of-input, field by field (46_system.md R257) -/

@[simp] theorem serviceEof_pc (s : State) : (serviceEof s).pc = s.pc := by
  simp only [serviceEof]; split <;> simp
@[simp] theorem serviceEof_retired (s : State) : (serviceEof s).retired = s.retired := by
  simp only [serviceEof]; split <;> simp
@[simp] theorem serviceEof_mem (s : State) : (serviceEof s).mem = s.mem := by
  simp only [serviceEof]; split <;> simp
@[simp] theorem serviceEof_inPos (s : State) : (serviceEof s).inPos = s.inPos := by
  simp only [serviceEof]; split <;> simp
@[simp] theorem serviceEof_events (s : State) : (serviceEof s).events = s.events := by
  simp only [serviceEof]; split <;> simp
@[simp] theorem serviceEof_input (s : State) : (serviceEof s).input = s.input := by
  simp only [serviceEof]; split <;> simp
@[simp] theorem serviceEof_cfg (s : State) : (serviceEof s).cfg = s.cfg := by
  simp only [serviceEof]; split <;> simp
@[simp] theorem serviceEof_memSeen (s : State) : (serviceEof s).memSeen = s.memSeen := by
  simp only [serviceEof]; split <;> simp
theorem serviceEof_draws (s : State) :
    (serviceEof s).draws = if s.cfg.eofA0 = .anyValue then s.draws + 1 else s.draws := by
  simp only [serviceEof]; split <;> simp [eofResult_draws]
theorem serviceEof_runState (s : State) :
    (serviceEof s).runState = if s.cfg.eofHaltsNow then .halted else s.runState := by
  simp only [serviceEof]; split <;> simp
theorem serviceEof_x (s : State) (r : RegIdx) :
    (serviceEof s).x r = (eofResult (s.setReg regA7 (exitWord s.cfg.exitNum))).x r := by
  simp only [serviceEof]; split <;> simp
/-- `x17` holds `EXIT_NUM`. -/
theorem serviceEof_x17 (s : State) : (serviceEof s).x regA7 = exitWord s.cfg.exitNum := by
  rw [serviceEof_x, eofResult_x_ne _ (by decide), State.x_setReg]; rfl
/-- No register but `x10` and `x17` changes. -/
theorem serviceEof_x_ne (s : State) {r : RegIdx} (h0 : r ≠ regA0) (h7 : r ≠ regA7) : (serviceEof s).x r = s.x r := by
  rw [serviceEof_x, eofResult_x_ne _ h0, State.x_setReg_ne _ _ h7]

/-! ### The step -/

theorem State.fetch_served {s : State} (h : s.servesRead .word s.pc = true) :
    s.fetch = some (s.answer .word s.pc, s.emit (.memRead .word s.pc (s.answer .word s.pc))) :=
  State.memRead_served h

theorem State.fetch_refused {s : State} (h : s.servesRead .word s.pc = false) : s.fetch = none :=
  State.memRead_refused h

theorem retireOutcome_next {o : Host.Outcome State Fault Refusal} {t : State} (h : retireOutcome o = .next t) :
    ∃ u, o = .next u ∧ t = u.retire := by
  cases o with
  | next u => cases h; exact ⟨u, rfl, rfl⟩
  | fault f => cases h
  | refused r => cases h

/-- The state an iteration's instruction acts on: after the fetch and the trace record. -/
def State.fetched (s : State) : State :=
  (s.emit (.memRead .word s.pc (s.answer .word s.pc))).traced (s.answer .word s.pc)

@[simp] theorem State.x_fetched (s : State) (r : RegIdx) : s.fetched.x r = s.x r := by simp [State.fetched]
@[simp] theorem State.fetched_pc (s : State) : s.fetched.pc = s.pc := by simp [State.fetched]
@[simp] theorem State.fetched_runState (s : State) : s.fetched.runState = s.runState := by simp [State.fetched]
@[simp] theorem State.fetched_retired (s : State) : s.fetched.retired = s.retired := by simp [State.fetched]
@[simp] theorem State.fetched_mem (s : State) : s.fetched.mem = s.mem := by simp [State.fetched]
@[simp] theorem State.fetched_inPos (s : State) : s.fetched.inPos = s.inPos := by simp [State.fetched]
@[simp] theorem State.fetched_input (s : State) : s.fetched.input = s.input := by simp [State.fetched]
@[simp] theorem State.fetched_cfg (s : State) : s.fetched.cfg = s.cfg := by simp [State.fetched]
@[simp] theorem State.fetched_draws (s : State) : s.fetched.draws = s.draws := by simp [State.fetched]
@[simp] theorem State.fetched_memSeen (s : State) : s.fetched.memSeen =
    s.memSeen ++ s.cfg.mem.requests [.memRead .word s.pc (s.answer .word s.pc)] := by simp [State.fetched]
@[simp] theorem State.fetched_events (s : State) : s.fetched.events =
    s.events ++ [.memRead .word s.pc (s.answer .word s.pc)] ++
      (if s.cfg.traceEn then [.trace { pc := s.pc, word := s.answer .word s.pc }] else []) := by
  simp [State.fetched]; rfl
@[simp] theorem State.out_fetched (s : State) : s.fetched.out = s.out := by simp [State.fetched]
@[simp] theorem State.diagLog_fetched (s : State) : s.fetched.diagLog = s.diagLog := by simp [State.fetched]
@[simp] theorem State.traceLog_fetched (s : State) : s.fetched.traceLog =
    s.traceLog ++ if s.cfg.traceEn then [{ pc := s.pc, word := s.answer .word s.pc }] else [] := by
  simp [State.fetched]; rfl

theorem step_running {s : State} (hr : s.runState = .running) (ha : s.servesRead .word s.pc = true) :
    step s = retireOutcome (dispatch (s.answer .word s.pc) s.fetched) := by
  simp [step, hr, State.fetch_served ha, State.fetched]

/-- What a step that answers a next state has done. -/
theorem step_next {s t : State} (h : step s = .next t) :
    s.runState = .running ∧ s.servesRead .word s.pc = true ∧
      ∃ u, dispatch (s.answer .word s.pc) s.fetched = .next u ∧ t = u.retire := by
  cases hr : s.runState with
  | halted => simp [step, hr] at h
  | running =>
    cases ha : s.servesRead .word s.pc with
    | false => simp [step, hr, State.fetch_refused ha] at h
    | true => rw [step_running hr ha] at h; exact ⟨rfl, rfl, retireOutcome_next h⟩

end Sys2Proof.Machine
end

