-- ==== Sys2Proof/Laws/Exec.lean ====
section
/-! SUPPORT. What an instruction can do, said once: every completed `exec` is one of six shapes, and every invariant or frame
follows from that by cases. -/

namespace Sys2Proof.Machine

/-- The two ways of forming an address agree: exact arithmetic modulo 2^32 and the 32-bit sum (10_state.md R27). -/
theorem addr_eq (x : Word) {n : Nat} (imm : BitVec n) :
    BitVec.ofInt 32 (x.toNat + imm.toInt) = x + imm.signExtend 32 := by
  rw [BitVec.ofInt_add, BitVec.signExtend]
  congr 1
  simp

theorem loadAddr_eq (s : State) (rs1 : RegIdx) (imm : BitVec 12) :
    loadAddr s rs1 imm = BitVec.ofInt 32 ((s.x rs1).toNat + imm.toInt) := (addr_eq _ _).symm

theorem storeAddr_eq (s : State) (rs1 : RegIdx) (imm : BitVec 12) :
    storeAddr s rs1 imm = BitVec.ofInt 32 ((s.x rs1).toNat + imm.toInt) := (addr_eq _ _).symm

/-- Clearing bit 0 by the mask is rounding down to an even number (45_jump_branch.md R232). -/
theorem and_clear_bit0 (v : Word) : v &&& 0xFFFFFFFE#32 = BitVec.ofNat 32 (v.toNat / 2 * 2) := by
  have h : v &&& 0xFFFFFFFE#32 = (v >>> 1) <<< 1 := by
    apply BitVec.eq_of_getLsbD_eq
    intro i hi
    simp only [BitVec.getLsbD_and, BitVec.getLsbD_shiftLeft, BitVec.getLsbD_ushiftRight]
    interval_cases i <;> simp
  rw [h]
  apply BitVec.eq_of_toNat_eq
  simp [Nat.shiftLeft_eq, Nat.shiftRight_eq_div_pow]

theorem jalrTarget_eq (s : State) (rs1 : RegIdx) (imm : BitVec 12) :
    jalrTarget s rs1 imm = BitVec.ofNat 32 ((BitVec.ofInt 32 ((s.x rs1).toNat + imm.toInt)).toNat / 2 * 2) := by
  rw [jalrTarget, and_clear_bit0, addr_eq]; rfl

/-- The six shapes of a completed instruction: a register write, a linking jump, a branch, a load, a store, a service. -/
inductive Shape (i : Instr) (s : State) : State → Prop where
  | write (rd : RegIdx) (v : Word) (hd : i.dests = [rd]) (hs : storesTo i s = none) (hp : pcSelect i s = .pcPlus4) :
      Shape i s (s.setReg rd v).advance
  | link (rd : RegIdx) (p : Word) (hd : i.dests = [rd]) (hs : storesTo i s = none) (hp : p = (pcSelect i s).next s) :
      Shape i s ((s.setReg rd (s.pc + 4)).jump p)
  | branch (taken : Bool) (offset : BitVec 13) (hd : i.dests = []) (hs : storesTo i s = none)
      (hp : pcSelect i s = selectBranch taken offset) :
      Shape i s (if taken then s.jump (s.pc + valueB offset) else s.advance)
  | load (width : Width) (a : Word) (rd : RegIdx) (v : Word) (hd : i.dests = [rd]) (hs : storesTo i s = none)
      (hp : pcSelect i s = .pcPlus4) :
      Shape i s ((s.emit (.memRead width a (s.answer width a))).setReg rd v).advance
  | store (width : Width) (a v : Word) (hd : i.dests = []) (hs : storesTo i s = some (a, width.bytes))
      (hp : pcSelect i s = .pcPlus4) :
      Shape i s ({ s with mem := s.stored width a v }.emit (.memWrite width a (zext (8 * width.bytes) v))).advance
  | service (hi : i = .ecall) : Shape i s (service s).advance

theorem decide_not_lt_int (a b : Int) : decide (a ≥ b) = !decide (a < b) := by
  by_cases h : a < b <;> simp [h]; omega

theorem decide_not_lt_nat (a b : Nat) : decide (a ≥ b) = !decide (a < b) := by
  by_cases h : a < b <;> simp [h]; omega

/-- Every instruction that completes has one of the six shapes. -/
theorem exec_shape {i : Instr} {s t : State} (h : exec i s = .next t) : Shape i s t := by
  cases i with
  | add rd rs1 rs2 => cases h; exact .write rd _ rfl rfl rfl
  | sub rd rs1 rs2 => cases h; exact .write rd _ rfl rfl rfl
  | sll rd rs1 rs2 => cases h; exact .write rd _ rfl rfl rfl
  | slt rd rs1 rs2 => cases h; exact .write rd _ rfl rfl rfl
  | sltu rd rs1 rs2 => cases h; exact .write rd _ rfl rfl rfl
  | xor rd rs1 rs2 => cases h; exact .write rd _ rfl rfl rfl
  | srl rd rs1 rs2 => cases h; exact .write rd _ rfl rfl rfl
  | sra rd rs1 rs2 => cases h; exact .write rd _ rfl rfl rfl
  | or rd rs1 rs2 => cases h; exact .write rd _ rfl rfl rfl
  | and rd rs1 rs2 => cases h; exact .write rd _ rfl rfl rfl
  | mul rd rs1 rs2 => cases h; exact .write rd _ rfl rfl rfl
  | mulh rd rs1 rs2 => cases h; exact .write rd _ rfl rfl rfl
  | mulhsu rd rs1 rs2 => cases h; exact .write rd _ rfl rfl rfl
  | mulhu rd rs1 rs2 => cases h; exact .write rd _ rfl rfl rfl
  | div rd rs1 rs2 => cases h; exact .write rd _ rfl rfl rfl
  | divu rd rs1 rs2 => cases h; exact .write rd _ rfl rfl rfl
  | rem rd rs1 rs2 => cases h; exact .write rd _ rfl rfl rfl
  | remu rd rs1 rs2 => cases h; exact .write rd _ rfl rfl rfl
  | addi rd rs1 imm => cases h; exact .write rd _ rfl rfl rfl
  | slti rd rs1 imm => cases h; exact .write rd _ rfl rfl rfl
  | sltiu rd rs1 imm => cases h; exact .write rd _ rfl rfl rfl
  | xori rd rs1 imm => cases h; exact .write rd _ rfl rfl rfl
  | ori rd rs1 imm => cases h; exact .write rd _ rfl rfl rfl
  | andi rd rs1 imm => cases h; exact .write rd _ rfl rfl rfl
  | slli rd rs1 imm => cases h; exact .write rd _ rfl rfl rfl
  | srli rd rs1 imm => cases h; exact .write rd _ rfl rfl rfl
  | srai rd rs1 imm => cases h; exact .write rd _ rfl rfl rfl
  | lb rd rs1 imm => obtain ⟨-, rfl⟩ := loadInto_next h; exact .load _ _ rd _ rfl rfl rfl
  | lh rd rs1 imm => obtain ⟨-, rfl⟩ := loadInto_next h; exact .load _ _ rd _ rfl rfl rfl
  | lw rd rs1 imm => obtain ⟨-, rfl⟩ := loadInto_next h; exact .load _ _ rd _ rfl rfl rfl
  | lbu rd rs1 imm => obtain ⟨-, rfl⟩ := loadInto_next h; exact .load _ _ rd _ rfl rfl rfl
  | lhu rd rs1 imm => obtain ⟨-, rfl⟩ := loadInto_next h; exact .load _ _ rd _ rfl rfl rfl
  | sb rs2 rs1 imm =>
    obtain ⟨-, rfl⟩ := storeTo_next h
    exact .store _ _ _ rfl (by rw [storeAddr_eq]; rfl) rfl
  | sh rs2 rs1 imm =>
    obtain ⟨-, rfl⟩ := storeTo_next h
    exact .store _ _ _ rfl (by rw [storeAddr_eq]; rfl) rfl
  | sw rs2 rs1 imm =>
    obtain ⟨-, rfl⟩ := storeTo_next h
    exact .store _ _ _ rfl (by rw [storeAddr_eq]; rfl) rfl
  | lui rd u => cases h; exact .write rd _ rfl rfl rfl
  | auipc rd u => cases h; exact .write rd _ rfl rfl rfl
  | jal rd offset => cases h; exact .link rd _ rfl rfl (addr_eq _ _).symm
  | jalr rd rs1 imm => cases h; exact .link rd _ rfl rfl (jalrTarget_eq _ _ _)
  | beq rs1 rs2 offset => cases h; exact .branch _ offset rfl rfl rfl
  | bne rs1 rs2 offset => cases h; exact .branch _ offset rfl rfl rfl
  | blt rs1 rs2 offset => cases h; exact .branch _ offset rfl rfl rfl
  | bltu rs1 rs2 offset => cases h; exact .branch _ offset rfl rfl rfl
  | bge rs1 rs2 offset =>
    cases h
    exact .branch _ offset rfl rfl (congrArg (selectBranch · offset) (decide_not_lt_int _ _))
  | bgeu rs1 rs2 offset =>
    cases h
    exact .branch _ offset rfl rfl (congrArg (selectBranch · offset) (decide_not_lt_nat _ _))
  | ecall => cases h; exact .service rfl

/-- What a service leaves alone and what it may change. -/
theorem service_keeps (s : State) :
    (service s).pc = s.pc ∧ (service s).mem = s.mem ∧ (service s).retired = s.retired ∧ (service s).input = s.input ∧
      (service s).cfg = s.cfg ∧ (service s).memSeen = s.memSeen ∧ ∀ r : RegIdx, r ≠ regA0 → r ≠ regA7 → (service s).x r = s.x r := by
  rcases service_cases s with ⟨b, -, -, h⟩ | ⟨-, -, h⟩ | ⟨-, h⟩ | ⟨-, h⟩ | ⟨-, -, -, -, h⟩ <;> rw [h]
  · refine ⟨by simp, by simp, by simp, by simp, by simp, by simp, fun r h0 _ => ?_⟩
    rw [State.x_setReg_ne _ _ h0]; rfl
  · exact ⟨by simp, by simp, by simp, by simp, by simp, by simp, fun r h0 h7 => by rw [serviceEof_x_ne _ h0 h7, State.x_emit]⟩
  · simp
  · simp
  · simp

/-- An unrecognised word completes in every state (46_system.md R256). -/
theorem execUnrecognised_eq (bits : Word) (s : State) :
    execUnrecognised bits s = .next (s.diag .unrecognisedInstruction bits).advance := rfl

end Sys2Proof.Machine
end

