-- ==== Sys2Proof/Laws/PerInstr.lean ====
section
/-! SUPPORT. The per-instruction family EncodesItsRow: the word of an instruction has the fixed bits of its row of the opcode
table, whatever its operands (30_encoding.md section 6). -/

namespace Sys2Proof.Laws

/-- The fixed bits of the encoded word are those of the instruction's row. -/
def EncodesItsRow.Statement (i : Instr) : Prop := encode i &&& i.row.mask = i.row.pattern

theorem EncodesItsRow.maskR (funct7 : BitVec 7) (rs2 rs1 : RegIdx) (funct3 : BitVec 3) (rd : RegIdx) (opcode : BitVec 7) :
    encodeR funct7 rs2 rs1 funct3 rd opcode &&& 0xFE00707F#32 = encodeR funct7 0#5 0#5 funct3 0#5 opcode := by
  apply BitVec.eq_of_getLsbD_eq
  intro k hk
  interval_cases k <;>
    simp only [encodeR, BitVec.getLsbD_append, BitVec.getLsbD_and] <;> simp

theorem EncodesItsRow.maskI (imm : BitVec 12) (rs1 : RegIdx) (funct3 : BitVec 3) (rd : RegIdx) (opcode : BitVec 7) :
    encodeI imm rs1 funct3 rd opcode &&& 0x0000707F#32 = encodeI 0#12 0#5 funct3 0#5 opcode := by
  apply BitVec.eq_of_getLsbD_eq
  intro k hk
  interval_cases k <;>
    simp only [encodeI, BitVec.getLsbD_append, BitVec.getLsbD_and] <;> simp

theorem EncodesItsRow.maskShift (funct7 : BitVec 7) (shamt : BitVec 5) (rs1 : RegIdx) (funct3 : BitVec 3) (rd : RegIdx) :
    encodeShift funct7 shamt rs1 funct3 rd &&& 0xFE00707F#32 = encodeShift funct7 0#5 0#5 funct3 0#5 := by
  apply BitVec.eq_of_getLsbD_eq
  intro k hk
  interval_cases k <;>
    simp only [encodeShift, BitVec.getLsbD_append, BitVec.getLsbD_and] <;> simp

theorem EncodesItsRow.maskS (imm : BitVec 12) (rs2 rs1 : RegIdx) (funct3 : BitVec 3) :
    encodeS imm rs2 rs1 funct3 &&& 0x0000707F#32 = encodeS 0#12 0#5 0#5 funct3 := by
  apply BitVec.eq_of_getLsbD_eq
  intro k hk
  interval_cases k <;>
    simp only [encodeS, BitVec.getLsbD_append, BitVec.getLsbD_and] <;> simp

theorem EncodesItsRow.maskB (offset : BitVec 13) (rs2 rs1 : RegIdx) (funct3 : BitVec 3) :
    encodeB offset rs2 rs1 funct3 &&& 0x0000707F#32 = encodeB 0#13 0#5 0#5 funct3 := by
  apply BitVec.eq_of_getLsbD_eq
  intro k hk
  interval_cases k <;>
    simp only [encodeB, BitVec.getLsbD_append, BitVec.getLsbD_and] <;> simp

theorem EncodesItsRow.maskU (uimm20 : BitVec 20) (rd : RegIdx) (opcode : BitVec 7) :
    encodeU uimm20 rd opcode &&& 0x0000007F#32 = encodeU 0#20 0#5 opcode := by
  apply BitVec.eq_of_getLsbD_eq
  intro k hk
  interval_cases k <;>
    simp only [encodeU, BitVec.getLsbD_append, BitVec.getLsbD_and] <;> simp

theorem EncodesItsRow.maskJ (offset : BitVec 21) (rd : RegIdx) :
    encodeJ offset rd &&& 0x0000007F#32 = encodeJ 0#21 0#5 := by
  apply BitVec.eq_of_getLsbD_eq
  intro k hk
  interval_cases k <;>
    simp only [encodeJ, BitVec.getLsbD_append, BitVec.getLsbD_and] <;> simp

theorem EncodesItsRow.add (rd rs1 rs2 : RegIdx) : EncodesItsRow.Statement (.add rd rs1 rs2) :=
  (EncodesItsRow.maskR _ rs2 rs1 _ rd _).trans rfl
theorem EncodesItsRow.sub (rd rs1 rs2 : RegIdx) : EncodesItsRow.Statement (.sub rd rs1 rs2) :=
  (EncodesItsRow.maskR _ rs2 rs1 _ rd _).trans rfl
theorem EncodesItsRow.sll (rd rs1 rs2 : RegIdx) : EncodesItsRow.Statement (.sll rd rs1 rs2) :=
  (EncodesItsRow.maskR _ rs2 rs1 _ rd _).trans rfl
theorem EncodesItsRow.slt (rd rs1 rs2 : RegIdx) : EncodesItsRow.Statement (.slt rd rs1 rs2) :=
  (EncodesItsRow.maskR _ rs2 rs1 _ rd _).trans rfl
theorem EncodesItsRow.sltu (rd rs1 rs2 : RegIdx) : EncodesItsRow.Statement (.sltu rd rs1 rs2) :=
  (EncodesItsRow.maskR _ rs2 rs1 _ rd _).trans rfl
theorem EncodesItsRow.xor (rd rs1 rs2 : RegIdx) : EncodesItsRow.Statement (.xor rd rs1 rs2) :=
  (EncodesItsRow.maskR _ rs2 rs1 _ rd _).trans rfl
theorem EncodesItsRow.srl (rd rs1 rs2 : RegIdx) : EncodesItsRow.Statement (.srl rd rs1 rs2) :=
  (EncodesItsRow.maskR _ rs2 rs1 _ rd _).trans rfl
theorem EncodesItsRow.sra (rd rs1 rs2 : RegIdx) : EncodesItsRow.Statement (.sra rd rs1 rs2) :=
  (EncodesItsRow.maskR _ rs2 rs1 _ rd _).trans rfl
theorem EncodesItsRow.or (rd rs1 rs2 : RegIdx) : EncodesItsRow.Statement (.or rd rs1 rs2) :=
  (EncodesItsRow.maskR _ rs2 rs1 _ rd _).trans rfl
theorem EncodesItsRow.and (rd rs1 rs2 : RegIdx) : EncodesItsRow.Statement (.and rd rs1 rs2) :=
  (EncodesItsRow.maskR _ rs2 rs1 _ rd _).trans rfl
theorem EncodesItsRow.mul (rd rs1 rs2 : RegIdx) : EncodesItsRow.Statement (.mul rd rs1 rs2) :=
  (EncodesItsRow.maskR _ rs2 rs1 _ rd _).trans rfl
theorem EncodesItsRow.mulh (rd rs1 rs2 : RegIdx) : EncodesItsRow.Statement (.mulh rd rs1 rs2) :=
  (EncodesItsRow.maskR _ rs2 rs1 _ rd _).trans rfl
theorem EncodesItsRow.mulhsu (rd rs1 rs2 : RegIdx) : EncodesItsRow.Statement (.mulhsu rd rs1 rs2) :=
  (EncodesItsRow.maskR _ rs2 rs1 _ rd _).trans rfl
theorem EncodesItsRow.mulhu (rd rs1 rs2 : RegIdx) : EncodesItsRow.Statement (.mulhu rd rs1 rs2) :=
  (EncodesItsRow.maskR _ rs2 rs1 _ rd _).trans rfl
theorem EncodesItsRow.div (rd rs1 rs2 : RegIdx) : EncodesItsRow.Statement (.div rd rs1 rs2) :=
  (EncodesItsRow.maskR _ rs2 rs1 _ rd _).trans rfl
theorem EncodesItsRow.divu (rd rs1 rs2 : RegIdx) : EncodesItsRow.Statement (.divu rd rs1 rs2) :=
  (EncodesItsRow.maskR _ rs2 rs1 _ rd _).trans rfl
theorem EncodesItsRow.rem (rd rs1 rs2 : RegIdx) : EncodesItsRow.Statement (.rem rd rs1 rs2) :=
  (EncodesItsRow.maskR _ rs2 rs1 _ rd _).trans rfl
theorem EncodesItsRow.remu (rd rs1 rs2 : RegIdx) : EncodesItsRow.Statement (.remu rd rs1 rs2) :=
  (EncodesItsRow.maskR _ rs2 rs1 _ rd _).trans rfl
theorem EncodesItsRow.addi (rd rs1 : RegIdx) (imm : BitVec 12) : EncodesItsRow.Statement (.addi rd rs1 imm) :=
  (EncodesItsRow.maskI imm rs1 _ rd _).trans rfl
theorem EncodesItsRow.slti (rd rs1 : RegIdx) (imm : BitVec 12) : EncodesItsRow.Statement (.slti rd rs1 imm) :=
  (EncodesItsRow.maskI imm rs1 _ rd _).trans rfl
theorem EncodesItsRow.sltiu (rd rs1 : RegIdx) (imm : BitVec 12) : EncodesItsRow.Statement (.sltiu rd rs1 imm) :=
  (EncodesItsRow.maskI imm rs1 _ rd _).trans rfl
theorem EncodesItsRow.xori (rd rs1 : RegIdx) (imm : BitVec 12) : EncodesItsRow.Statement (.xori rd rs1 imm) :=
  (EncodesItsRow.maskI imm rs1 _ rd _).trans rfl
theorem EncodesItsRow.ori (rd rs1 : RegIdx) (imm : BitVec 12) : EncodesItsRow.Statement (.ori rd rs1 imm) :=
  (EncodesItsRow.maskI imm rs1 _ rd _).trans rfl
theorem EncodesItsRow.andi (rd rs1 : RegIdx) (imm : BitVec 12) : EncodesItsRow.Statement (.andi rd rs1 imm) :=
  (EncodesItsRow.maskI imm rs1 _ rd _).trans rfl
theorem EncodesItsRow.lb (rd rs1 : RegIdx) (imm : BitVec 12) : EncodesItsRow.Statement (.lb rd rs1 imm) :=
  (EncodesItsRow.maskI imm rs1 _ rd _).trans rfl
theorem EncodesItsRow.lh (rd rs1 : RegIdx) (imm : BitVec 12) : EncodesItsRow.Statement (.lh rd rs1 imm) :=
  (EncodesItsRow.maskI imm rs1 _ rd _).trans rfl
theorem EncodesItsRow.lw (rd rs1 : RegIdx) (imm : BitVec 12) : EncodesItsRow.Statement (.lw rd rs1 imm) :=
  (EncodesItsRow.maskI imm rs1 _ rd _).trans rfl
theorem EncodesItsRow.lbu (rd rs1 : RegIdx) (imm : BitVec 12) : EncodesItsRow.Statement (.lbu rd rs1 imm) :=
  (EncodesItsRow.maskI imm rs1 _ rd _).trans rfl
theorem EncodesItsRow.lhu (rd rs1 : RegIdx) (imm : BitVec 12) : EncodesItsRow.Statement (.lhu rd rs1 imm) :=
  (EncodesItsRow.maskI imm rs1 _ rd _).trans rfl
theorem EncodesItsRow.slli (rd rs1 : RegIdx) (shamt : BitVec 5) : EncodesItsRow.Statement (.slli rd rs1 shamt) :=
  (EncodesItsRow.maskShift _ shamt rs1 _ rd).trans rfl
theorem EncodesItsRow.srli (rd rs1 : RegIdx) (shamt : BitVec 5) : EncodesItsRow.Statement (.srli rd rs1 shamt) :=
  (EncodesItsRow.maskShift _ shamt rs1 _ rd).trans rfl
theorem EncodesItsRow.srai (rd rs1 : RegIdx) (shamt : BitVec 5) : EncodesItsRow.Statement (.srai rd rs1 shamt) :=
  (EncodesItsRow.maskShift _ shamt rs1 _ rd).trans rfl
theorem EncodesItsRow.sb (rs2 rs1 : RegIdx) (imm : BitVec 12) : EncodesItsRow.Statement (.sb rs2 rs1 imm) :=
  (EncodesItsRow.maskS imm rs2 rs1 _).trans rfl
theorem EncodesItsRow.sh (rs2 rs1 : RegIdx) (imm : BitVec 12) : EncodesItsRow.Statement (.sh rs2 rs1 imm) :=
  (EncodesItsRow.maskS imm rs2 rs1 _).trans rfl
theorem EncodesItsRow.sw (rs2 rs1 : RegIdx) (imm : BitVec 12) : EncodesItsRow.Statement (.sw rs2 rs1 imm) :=
  (EncodesItsRow.maskS imm rs2 rs1 _).trans rfl
theorem EncodesItsRow.lui (rd : RegIdx) (uimm20 : BitVec 20) : EncodesItsRow.Statement (.lui rd uimm20) :=
  (EncodesItsRow.maskU uimm20 rd _).trans rfl
theorem EncodesItsRow.auipc (rd : RegIdx) (uimm20 : BitVec 20) : EncodesItsRow.Statement (.auipc rd uimm20) :=
  (EncodesItsRow.maskU uimm20 rd _).trans rfl
theorem EncodesItsRow.jal (rd : RegIdx) (offset : BitVec 21) : EncodesItsRow.Statement (.jal rd offset) :=
  (EncodesItsRow.maskJ offset rd).trans rfl
theorem EncodesItsRow.jalr (rd rs1 : RegIdx) (imm : BitVec 12) : EncodesItsRow.Statement (.jalr rd rs1 imm) :=
  (EncodesItsRow.maskI imm rs1 _ rd _).trans rfl
theorem EncodesItsRow.beq (rs1 rs2 : RegIdx) (offset : BitVec 13) : EncodesItsRow.Statement (.beq rs1 rs2 offset) :=
  (EncodesItsRow.maskB offset rs2 rs1 _).trans rfl
theorem EncodesItsRow.bne (rs1 rs2 : RegIdx) (offset : BitVec 13) : EncodesItsRow.Statement (.bne rs1 rs2 offset) :=
  (EncodesItsRow.maskB offset rs2 rs1 _).trans rfl
theorem EncodesItsRow.blt (rs1 rs2 : RegIdx) (offset : BitVec 13) : EncodesItsRow.Statement (.blt rs1 rs2 offset) :=
  (EncodesItsRow.maskB offset rs2 rs1 _).trans rfl
theorem EncodesItsRow.bge (rs1 rs2 : RegIdx) (offset : BitVec 13) : EncodesItsRow.Statement (.bge rs1 rs2 offset) :=
  (EncodesItsRow.maskB offset rs2 rs1 _).trans rfl
theorem EncodesItsRow.bltu (rs1 rs2 : RegIdx) (offset : BitVec 13) : EncodesItsRow.Statement (.bltu rs1 rs2 offset) :=
  (EncodesItsRow.maskB offset rs2 rs1 _).trans rfl
theorem EncodesItsRow.bgeu (rs1 rs2 : RegIdx) (offset : BitVec 13) : EncodesItsRow.Statement (.bgeu rs1 rs2 offset) :=
  (EncodesItsRow.maskB offset rs2 rs1 _).trans rfl
theorem EncodesItsRow.ecall : EncodesItsRow.Statement .ecall := rfl

end Sys2Proof.Laws
end

