-- ==== Sys2Proof/Tests/Slice0.lean ====
section
/-! SUPPORT. Tests of the model. The expected values come from the encoding tables and the worked values of the spec
(30_encoding.md, 95_test_vectors.md); the last part gives, for every statement with hypotheses, states that meet them. -/

namespace Sys2Proof.Tests

open Sys2Proof Sys2Proof.Machine

/-! ### Small states: reset, some registers, the pc at `0x1000` and a word there -/

def setRegs : List (RegIdx × Word) → State → State
  | [], s => s
  | (r, v) :: rest, s => setRegs rest (s.setReg r v)

def setBytes : List Byte → Word → State → State
  | [], _, s => s
  | b :: rest, a, s => setBytes rest (a + 1) { s with mem := s.mem.setByte a b }

def start (w : Word) (regs : List (RegIdx × Word)) : State :=
  (setRegs regs (State.resetWith .specDefault 0x1000 [] [])).placeWord w

def stateAfter (s : State) : Option State :=
  match step s with
  | .next t => some t
  | .fault _ => none
  | .refused _ => none

def after (r : RegIdx) (s : State) : Option Word := (stateAfter s).map fun t => t.x r

def pcAfter (s : State) : Option Word := (stateAfter s).map fun t => t.pc

def loadStart (w : Word) : State :=
  setBytes [0x80, 0x7F, 0xFF, 0x01, 0xEF, 0xBE, 0xAD, 0xDE] 0x2000 (start w [(6, 0x2004)])

def storeStart (w : Word) : State :=
  setBytes [0xAA, 0xAA, 0xAA, 0xAA, 0xAA, 0xAA, 0xAA, 0xAA] 0x3000 (start w [(6, 0x3004), (5, 0x11223344)])

def bytesAfter (s : State) : Option (List Byte) :=
  (stateAfter s).map fun t => [0x3000, 0x3001, 0x3002, 0x3003, 0x3004, 0x3005, 0x3006, 0x3007].map t.mem.byteAt

/-! ### WellFormed refuses an ill-formed term of every checked form (30_encoding.md R90: `imm[0] = 0`) -/

theorem test_illformed_jal : (Instr.jal 1 3).wellFormed = false := by decide
theorem test_illformed_beq : (Instr.beq 1 2 3).wellFormed = false := by decide
theorem test_illformed_bne : (Instr.bne 1 2 3).wellFormed = false := by decide
theorem test_illformed_blt : (Instr.blt 1 2 3).wellFormed = false := by decide
theorem test_illformed_bge : (Instr.bge 1 2 3).wellFormed = false := by decide
theorem test_illformed_bltu : (Instr.bltu 1 2 3).wellFormed = false := by decide
theorem test_illformed_bgeu : (Instr.bgeu 1 2 3).wellFormed = false := by decide

/-! ### Decoding, one word of every instruction, written out field by field from 30_encoding.md R88, R100 and R102 to R111 -/

theorem test_decode_add : decode 0b0000000_10010_00001_000_00011_0110011#32 = .instr (.add 3 1 18) := by decide
theorem test_decode_sub : decode 0b0100000_10010_00001_000_00011_0110011#32 = .instr (.sub 3 1 18) := by decide
theorem test_decode_sll : decode 0b0000000_10010_00001_001_00011_0110011#32 = .instr (.sll 3 1 18) := by decide
theorem test_decode_slt : decode 0b0000000_10010_00001_010_00011_0110011#32 = .instr (.slt 3 1 18) := by decide
theorem test_decode_sltu : decode 0b0000000_10010_00001_011_00011_0110011#32 = .instr (.sltu 3 1 18) := by decide
theorem test_decode_xor : decode 0b0000000_10010_00001_100_00011_0110011#32 = .instr (.xor 3 1 18) := by decide
theorem test_decode_srl : decode 0b0000000_10010_00001_101_00011_0110011#32 = .instr (.srl 3 1 18) := by decide
theorem test_decode_sra : decode 0b0100000_10010_00001_101_00011_0110011#32 = .instr (.sra 3 1 18) := by decide
theorem test_decode_or : decode 0b0000000_10010_00001_110_00011_0110011#32 = .instr (.or 3 1 18) := by decide
theorem test_decode_and : decode 0b0000000_10010_00001_111_00011_0110011#32 = .instr (.and 3 1 18) := by decide
theorem test_decode_mul : decode 0b0000001_10010_00001_000_00011_0110011#32 = .instr (.mul 3 1 18) := by decide
theorem test_decode_mulh : decode 0b0000001_10010_00001_001_00011_0110011#32 = .instr (.mulh 3 1 18) := by decide
theorem test_decode_mulhsu : decode 0b0000001_10010_00001_010_00011_0110011#32 = .instr (.mulhsu 3 1 18) := by decide
theorem test_decode_mulhu : decode 0b0000001_10010_00001_011_00011_0110011#32 = .instr (.mulhu 3 1 18) := by decide
theorem test_decode_div : decode 0b0000001_10010_00001_100_00011_0110011#32 = .instr (.div 3 1 18) := by decide
theorem test_decode_divu : decode 0b0000001_10010_00001_101_00011_0110011#32 = .instr (.divu 3 1 18) := by decide
theorem test_decode_rem : decode 0b0000001_10010_00001_110_00011_0110011#32 = .instr (.rem 3 1 18) := by decide
theorem test_decode_remu : decode 0b0000001_10010_00001_111_00011_0110011#32 = .instr (.remu 3 1 18) := by decide
theorem test_decode_addi : decode 0b100000000001_00110_000_10101_0010011#32 = .instr (.addi 21 6 0x801) := by decide
theorem test_decode_slti : decode 0b100000000001_00110_010_10101_0010011#32 = .instr (.slti 21 6 0x801) := by decide
theorem test_decode_sltiu : decode 0b100000000001_00110_011_10101_0010011#32 = .instr (.sltiu 21 6 0x801) := by decide
theorem test_decode_xori : decode 0b100000000001_00110_100_10101_0010011#32 = .instr (.xori 21 6 0x801) := by decide
theorem test_decode_ori : decode 0b100000000001_00110_110_10101_0010011#32 = .instr (.ori 21 6 0x801) := by decide
theorem test_decode_andi : decode 0b100000000001_00110_111_10101_0010011#32 = .instr (.andi 21 6 0x801) := by decide
theorem test_decode_slli : decode 0b0000000_11110_00110_001_10101_0010011#32 = .instr (.slli 21 6 30) := by decide
theorem test_decode_srli : decode 0b0000000_11110_00110_101_10101_0010011#32 = .instr (.srli 21 6 30) := by decide
theorem test_decode_srai : decode 0b0100000_11110_00110_101_10101_0010011#32 = .instr (.srai 21 6 30) := by decide
theorem test_decode_lb : decode 0b111111111110_00110_000_10101_0000011#32 = .instr (.lb 21 6 0xFFE) := by decide
theorem test_decode_lh : decode 0b111111111110_00110_001_10101_0000011#32 = .instr (.lh 21 6 0xFFE) := by decide
theorem test_decode_lw : decode 0b111111111110_00110_010_10101_0000011#32 = .instr (.lw 21 6 0xFFE) := by decide
theorem test_decode_lbu : decode 0b111111111110_00110_100_10101_0000011#32 = .instr (.lbu 21 6 0xFFE) := by decide
theorem test_decode_lhu : decode 0b111111111110_00110_101_10101_0000011#32 = .instr (.lhu 21 6 0xFFE) := by decide
theorem test_decode_sb : decode 0b1000000_10010_00110_000_00011_0100011#32 = .instr (.sb 18 6 0x803) := by decide
theorem test_decode_sh : decode 0b1000000_10010_00110_001_00011_0100011#32 = .instr (.sh 18 6 0x803) := by decide
theorem test_decode_sw : decode 0b1000000_10010_00110_010_00011_0100011#32 = .instr (.sw 18 6 0x803) := by decide
theorem test_decode_lui : decode 0b10000000000000000001_10101_0110111#32 = .instr (.lui 21 0x80001) := by decide
theorem test_decode_auipc : decode 0b10000000000000000001_10101_0010111#32 = .instr (.auipc 21 0x80001) := by decide
/-- `imm[20] = 1`, `imm[10:1] = 0000000010`, `imm[11] = 1`, `imm[19:12] = 00000001` (R96). -/
theorem test_decode_jal : decode 0b1_0000000010_1_00000001_10101_1101111#32 = .instr (.jal 21 0x101804) := by decide
theorem test_decode_jalr : decode 0b100000000001_00110_000_10101_1100111#32 = .instr (.jalr 21 6 0x801) := by decide
/-! `imm[12] = 1`, `imm[10:5] = 000010`, `imm[4:1] = 0001`, `imm[11] = 1` (R94). -/

theorem test_decode_beq : decode 0b1_000010_10010_00110_000_0001_1_1100011#32 = .instr (.beq 6 18 0x1842) := by decide
theorem test_decode_bne : decode 0b1_000010_10010_00110_001_0001_1_1100011#32 = .instr (.bne 6 18 0x1842) := by decide
theorem test_decode_blt : decode 0b1_000010_10010_00110_100_0001_1_1100011#32 = .instr (.blt 6 18 0x1842) := by decide
theorem test_decode_bge : decode 0b1_000010_10010_00110_101_0001_1_1100011#32 = .instr (.bge 6 18 0x1842) := by decide
theorem test_decode_bltu : decode 0b1_000010_10010_00110_110_0001_1_1100011#32 = .instr (.bltu 6 18 0x1842) := by decide
theorem test_decode_bgeu : decode 0b1_000010_10010_00110_111_0001_1_1100011#32 = .instr (.bgeu 6 18 0x1842) := by decide
/-- `rd` and `rs1` are not examined (R111; log 12). -/
theorem test_decode_ecall : decode 0b000000000000_00001_000_00001_1110011#32 = .instr .ecall := by decide

/-! ### Words that are none of the 46 (95_test_vectors.md section 2.1) -/

theorem test_unrecognised_ebreak : decode 0x00100073#32 = .unrecognised := by decide
theorem test_unrecognised_fence : decode 0x0FF0000F#32 = .unrecognised := by decide
theorem test_unrecognised_csr : decode 0x00001073#32 = .unrecognised := by decide
theorem test_unrecognised_slli_funct7 : decode 0x40001013#32 = .unrecognised := by decide
theorem test_unrecognised_slli_32 : decode 0x02001013#32 = .unrecognised := by decide
theorem test_unrecognised_op_funct7 : decode 0x04000033#32 = .unrecognised := by decide
theorem test_unrecognised_alt_slt : decode 0x40002033#32 = .unrecognised := by decide
theorem test_unrecognised_load_011 : decode 0x00003003#32 = .unrecognised := by decide
theorem test_unrecognised_store_011 : decode 0x00003023#32 = .unrecognised := by decide
theorem test_unrecognised_branch_010 : decode 0x00002063#32 = .unrecognised := by decide
theorem test_unrecognised_jalr_001 : decode 0x00001067#32 = .unrecognised := by decide
theorem test_unrecognised_zero : decode 0x00000000#32 = .unrecognised := by decide
theorem test_unrecognised_ones : decode 0xFFFFFFFF#32 = .unrecognised := by decide

/-! ### One step of every instruction; the values are those of 95_test_vectors.md -/

/-! Section 2.2 and 2.3: `op x5, x6, x7`. -/

theorem test_step_add : after 5 (start 0x007302B3 [(6, 0xFFFFFFFF), (7, 0x00000001)]) = some 0x00000000#32 := by decide
theorem test_step_sub : after 5 (start 0x407302B3 [(6, 0x80000000), (7, 0x00000001)]) = some 0x7FFFFFFF#32 := by decide
theorem test_step_sll : after 5 (start 0x007312B3 [(6, 0x12345678), (7, 0x00000024)]) = some 0x23456780#32 := by decide
theorem test_step_slt : after 5 (start 0x007322B3 [(6, 0x80000000), (7, 0x7FFFFFFF)]) = some 0x00000001#32 := by decide
theorem test_step_sltu : after 5 (start 0x007332B3 [(6, 0x80000000), (7, 0x7FFFFFFF)]) = some 0x00000000#32 := by decide
theorem test_step_xor : after 5 (start 0x007342B3 [(6, 0x0F0F0F0F), (7, 0x00FF00FF)]) = some 0x0FF00FF0#32 := by decide
theorem test_step_srl : after 5 (start 0x007352B3 [(6, 0x87654321), (7, 0x0000001F)]) = some 0x00000001#32 := by decide
theorem test_step_sra : after 5 (start 0x407352B3 [(6, 0x87654321), (7, 0x0000001F)]) = some 0xFFFFFFFF#32 := by decide
theorem test_step_or : after 5 (start 0x007362B3 [(6, 0x0F0F0F0F), (7, 0x00FF00FF)]) = some 0x0FFF0FFF#32 := by decide
theorem test_step_and : after 5 (start 0x007372B3 [(6, 0x0F0F0F0F), (7, 0x00FF00FF)]) = some 0x000F000F#32 := by decide
theorem test_step_mul : after 5 (start 0x027302B3 [(6, 0x12345678), (7, 0x9ABCDEF0)]) = some 0x242D2080#32 := by decide
theorem test_step_mulh : after 5 (start 0x027312B3 [(6, 0x12345678), (7, 0x9ABCDEF0)]) = some 0xF8CC93D6#32 := by decide
theorem test_step_mulhsu : after 5 (start 0x027322B3 [(6, 0x12345678), (7, 0x9ABCDEF0)]) = some 0x0B00EA4E#32 := by decide
theorem test_step_mulhsu_2 : after 5 (start 0x027322B3 [(6, 0x9ABCDEF0), (7, 0x12345678)]) = some 0xF8CC93D6#32 := by decide
theorem test_step_mulhu : after 5 (start 0x027332B3 [(6, 0x12345678), (7, 0x9ABCDEF0)]) = some 0x0B00EA4E#32 := by decide
theorem test_step_div : after 5 (start 0x027342B3 [(6, 0xFFFFFFF9), (7, 0x00000002)]) = some 0xFFFFFFFD#32 := by decide
theorem test_step_div_2 : after 5 (start 0x027342B3 [(6, 0x80000000), (7, 0xFFFFFFFF)]) = some 0x80000000#32 := by decide
theorem test_step_divu : after 5 (start 0x027352B3 [(6, 0xFFFFFFF9), (7, 0x00000002)]) = some 0x7FFFFFFC#32 := by decide
theorem test_step_divu_2 : after 5 (start 0x027352B3 [(6, 0x0000002A), (7, 0x00000000)]) = some 0xFFFFFFFF#32 := by decide
theorem test_step_rem : after 5 (start 0x027362B3 [(6, 0xFFFFFFF9), (7, 0x00000002)]) = some 0xFFFFFFFF#32 := by decide
theorem test_step_rem_2 : after 5 (start 0x027362B3 [(6, 0x80000000), (7, 0x00000000)]) = some 0x80000000#32 := by decide
theorem test_step_remu : after 5 (start 0x027372B3 [(6, 0xFFFFFFF9), (7, 0x00000002)]) = some 0x00000001#32 := by decide
theorem test_step_remu_2 : after 5 (start 0x027372B3 [(6, 0x0000002A), (7, 0x00000000)]) = some 0x0000002A#32 := by decide

/-! Section 2.4: `op x5, x6, imm`. -/

theorem test_step_addi : after 5 (start 0xFFF30293 [(6, 0x80000000)]) = some 0x7FFFFFFF#32 := by decide
theorem test_step_slti : after 5 (start 0x80032293 [(6, 0x80000000)]) = some 0x00000001#32 := by decide
theorem test_step_sltiu : after 5 (start 0x80033293 [(6, 0xFFFFF7FF)]) = some 0x00000001#32 := by decide
theorem test_step_xori : after 5 (start 0x55534293 [(6, 0xFFFFFFFF)]) = some 0xFFFFFAAA#32 := by decide
theorem test_step_ori : after 5 (start 0x80036293 [(6, 0x00000001)]) = some 0xFFFFF801#32 := by decide
theorem test_step_andi : after 5 (start 0xF0037293 [(6, 0x12345678)]) = some 0x12345600#32 := by decide
theorem test_step_slli : after 5 (start 0x01F31293 [(6, 0x87654321)]) = some 0x80000000#32 := by decide
theorem test_step_srli : after 5 (start 0x01F35293 [(6, 0x87654321)]) = some 0x00000001#32 := by decide
theorem test_step_srai : after 5 (start 0x40135293 [(6, 0x87654321)]) = some 0xC3B2A190#32 := by decide

/-! Section 2.5: `op x5, offset(x6)` with `x6 = 0x2004` and the bytes there. -/

theorem test_step_lb : after 5 (loadStart 0xFFC30283) = some 0xFFFFFF80#32 := by decide
theorem test_step_lbu : after 5 (loadStart 0xFFC34283) = some 0x00000080#32 := by decide
theorem test_step_lh : after 5 (loadStart 0x00031283) = some 0xFFFFBEEF#32 := by decide
theorem test_step_lhu : after 5 (loadStart 0x00035283) = some 0x0000BEEF#32 := by decide
theorem test_step_lw : after 5 (loadStart 0xFFD32283) = some 0xEF01FF7F#32 := by decide

/-! Section 2.5: `op x5, offset(x6)` with `x6 = 0x3004`, `x5 = 0x11223344`, all bytes `0xAA` before. -/

theorem test_step_sb : bytesAfter (storeStart 0x005301A3) = some [0xAA, 0xAA, 0xAA, 0xAA, 0xAA, 0xAA, 0xAA, 0x44] := by decide
theorem test_step_sh : bytesAfter (storeStart 0xFE531FA3) = some [0xAA, 0xAA, 0xAA, 0x44, 0x33, 0xAA, 0xAA, 0xAA] := by decide
theorem test_step_sw : bytesAfter (storeStart 0xFE532F23) = some [0xAA, 0xAA, 0x44, 0x33, 0x22, 0x11, 0xAA, 0xAA] := by decide

/-! Sections 2.6 and 2.7, E8; the pc is `0x1000`. -/

theorem test_step_lui : after 5 (start 0x123452B7 []) = some 0x12345000#32 := by decide
theorem test_step_auipc : after 5 (start 0xFFFFF297 []) = some 0x00000000#32 := by decide
theorem test_step_jal : (after 1 (start 0xFF9FF0EF []), pcAfter (start 0xFF9FF0EF [])) = (some 0x00001004#32, some 0x00000FF8#32) := by decide
/-- `jalr x6, 0(x6)`: the target is computed from the old `x6`. -/
theorem test_step_jalr : (after 6 (start 0x00030367 [(6, 0x2000)]), pcAfter (start 0x00030367 [(6, 0x2000)])) = (some 0x00001004#32, some 0x00002000#32) := by decide
theorem test_step_jalr_odd : pcAfter (start 0x005300E7 [(6, 0x2000)]) = some 0x00002004#32 := by decide
theorem test_step_beq_taken : pcAfter (start 0x00628863 [(5, 0xFFFFFFFF), (6, 0xFFFFFFFF)]) = some 0x00001010#32 := by decide
theorem test_step_beq_not_taken : pcAfter (start 0x00628863 [(5, 0x00000001), (6, 0x00000002)]) = some 0x00001004#32 := by decide
theorem test_step_bne_taken : pcAfter (start 0x00629863 [(5, 0x00000001), (6, 0x00000002)]) = some 0x00001010#32 := by decide
theorem test_step_bne_not_taken : pcAfter (start 0x00629863 [(5, 0x00000000), (6, 0x00000000)]) = some 0x00001004#32 := by decide
theorem test_step_blt_taken : pcAfter (start 0x0062C863 [(5, 0x80000000), (6, 0x7FFFFFFF)]) = some 0x00001010#32 := by decide
theorem test_step_blt_not_taken : pcAfter (start 0x0062C863 [(5, 0x7FFFFFFF), (6, 0x80000000)]) = some 0x00001004#32 := by decide
theorem test_step_bge_taken : pcAfter (start 0x0062D863 [(5, 0x7FFFFFFF), (6, 0x80000000)]) = some 0x00001010#32 := by decide
theorem test_step_bge_not_taken : pcAfter (start 0x0062D863 [(5, 0x80000000), (6, 0x7FFFFFFF)]) = some 0x00001004#32 := by decide
theorem test_step_bltu_taken : pcAfter (start 0x0062E863 [(5, 0x00000001), (6, 0xFFFFFFFF)]) = some 0x00001010#32 := by decide
theorem test_step_bltu_not_taken : pcAfter (start 0x0062E863 [(5, 0xFFFFFFFF), (6, 0x00000001)]) = some 0x00001004#32 := by decide
theorem test_step_bgeu_taken : pcAfter (start 0x0062F863 [(5, 0xFFFFFFFF), (6, 0x00000001)]) = some 0x00001010#32 := by decide
theorem test_step_bgeu_not_taken : pcAfter (start 0x0062F863 [(5, 0x00000001), (6, 0xFFFFFFFF)]) = some 0x00001004#32 := by decide

/-! Section 2.8: services, end-of-input, unrecognised words. -/

def ecallStart (x17 x10 : Word) (input : List Byte) (inPos : Nat) : State :=
  { start 0x00000073 [(17, x17), (10, x10)] with input := input, inPos := inPos }

/-- Row 2: `INPUT = [0xFF]` gives `x10 = 0x000000FF`, zero-extended (D14). -/
theorem test_step_ecall_read : after 10 (ecallStart 1 0x55 [0xFF] 0) = some 0x000000FF#32 := by decide
/-- Row 3: at end-of-input `x17` becomes `EXIT_NUM`. -/
theorem test_step_ecall_eof : after 17 (ecallStart 1 0x55 [0x41] 1) = some 0x00000003#32 := by decide
theorem test_ecall_write : (stateAfter (ecallStart 2 0x141 [] 0)).map State.out = some [0x41] := by decide
theorem test_ecall_halt_93 :
    (stateAfter (ecallStart 93 7 [] 0)).map (fun t => (t.runState, t.pc, t.retired)) = some (.halted, 0x1004#32, 1) := by
  decide
/-- All 32 bits of `x17` are compared: `0x101` is not service 1. -/
theorem test_ecall_unknown : (stateAfter (ecallStart 0x101 0 [0x41] 0)).map (fun t => (t.diagLog, t.inPos)) =
    some ([{ kind := .unrecognisedSyscall, pc := 0x1000, value := 0x101 }], 0) := by decide
theorem test_unrecognised_step : (stateAfter (start 0x0FF0000F [(17, 93)])).map (fun t => (t.diagLog, t.pc, t.runState)) =
    some ([{ kind := .unrecognisedInstruction, pc := 0x1000, value := 0x0FF0000F }], 0x1004#32, .running) := by decide

/-! ### The trace text, memory's form, reset, and placing a word -/

/-- E9: `PC: 0x00000008: Instruction: 0x002081b3`. -/
theorem test_trace_text : (TraceRecord.mk 0x00000008 0x002081B3).text =
    ['P', 'C', ':', ' ', '0', 'x', '0', '0', '0', '0', '0', '0', '0', '8', ':', ' '] ++
    ['I', 'n', 's', 't', 'r', 'u', 'c', 't', 'i', 'o', 'n', ':', ' ', '0', 'x', '0', '0', '2', '0', '8', '1', 'b', '3'] := by
  decide

/-- Writing what an unlisted byte reads as removes the entry. -/
theorem test_memory_canonical : ((Memory.write [] 7 0x5A).write 3 1).write 7 0 = [(3, 1)] := by decide
/-- A word written across the top of the address space wraps to address 0 (20_memory.md R56). -/
theorem test_memory_wraps : (Memory.store [] .word 0xFFFFFFFE 0x11223344).byteAt 0 = 0x22 := by decide
theorem test_reset_memory_wf : State.reset.mem.wf = true := by decide
/-- From `State.reset` with a word placed, the first step runs it: `addi x1, x0, 5` of program P1. -/
theorem test_reset_runs_placed_word : after 1 (State.reset.withFetchWord 32 0x00500093) = some 5#32 := by decide
theorem test_table_word : decodeTableWord 32 0x00000073 = some .ecall := by decide
theorem test_extract_bits_swapped : extractBits 0xDEADBEEF 0 6 = some 0x6F := by decide
theorem test_sign_extend : signExtendBits 0x1FFE 13 = some 0xFFFFFFFE := by decide

/-! ### Witnesses: for every statement with hypotheses, states and operands that meet them -/

theorem witness_EncodedInstructionDecodesBack : (Instr.beq 1 2 0x1000).wellFormed = true ∧ (Instr.jal 1 0xFFFFE).wellFormed = true := by
  decide
theorem witness_DecodedWordEncodesBack : decode 0x000080F3 = .instr .ecall ∧ decode 0xFFF30293 = .instr (.addi 5 6 0xFFF) := by decide
theorem witness_ClassificationIsTheOpcodeTable :
    (0x40208033#32 &&& (Instr.sub 0 0 0).row.mask = (Instr.sub 0 0 0).row.pattern) ∧ decode 0x40208033 = .instr (.sub 0 1 2) ∧
      decode 0xFFFFFFFF = .unrecognised := by decide
theorem witness_ExtractBits_whole : 0 ≤ 31 ∧ 31 ≤ 31 ∧ extractBits 0xDEADBEEF 31 0 = some 0xDEADBEEF := by decide
theorem witness_ExtractBits_one : extractBits 0x80000000 31 31 = some 1 := by decide
theorem witness_ExtractBits_refused : 31 < max 32 0 ∧ extractBits 1 32 0 = none := by decide
theorem witness_SignExtend_one : 1 ≤ 1 ∧ 1 ≤ 32 ∧ signExtendBits 1 1 = some 0xFFFFFFFF := by decide
theorem witness_SignExtend_all : 1 ≤ 32 ∧ 32 ≤ 32 ∧ signExtendBits 0x80000000 32 = some 0x80000000 := by decide
theorem witness_SignExtend_refused : signExtendBits 1 0 = none ∧ signExtendBits 1 33 = none := by decide
theorem witness_ImmediatesBitByBit : 0 < 32 ∧ 31 < 32 ∧ immB 0x80000000 = 0xFFFFF000 ∧ immJ 0x00100000 = 0x800 := by decide
theorem witness_DecodedInstructionMatchesTheDescriptor :
    decode 0x41F35293 = .instr (.srai 5 6 31) ∧ (describe 0x41F35293).immediate = 0x41F := by decide

theorem witness_MixedWidth_first : 0 + Width.bytes .half ≤ Width.bytes .half ∧
    (Memory.store [] .half 0x3001 0xABCD3344).load .half (0x3001 + BitVec.ofNat 32 0) = 0x3344 := by decide
theorem witness_MixedWidth_last : 3 + Width.bytes .byte ≤ Width.bytes .word ∧
    (Memory.store [] .word 0xFFFFFFFE 0x11223344).load .byte (0xFFFFFFFE + BitVec.ofNat 32 3) = 0x11 := by decide
/-- The worked values of 20_memory.md R61. -/
theorem witness_MixedWidth_R61 : 1 + Width.bytes .half ≤ Width.bytes .word ∧ 1 + Width.bytes .byte ≤ Width.bytes .word ∧
    (Memory.store [] .word 0x3004 0x11223344).load .half (0x3004 + BitVec.ofNat 32 1) = 0x2233 ∧
    ((Memory.store [] .word 0x3004 0x11223344).store .byte (0x3004 + BitVec.ofNat 32 1) 0xAB).load .word 0x3004 =
      0x1122AB44 := by decide

/-- A memory that backs the bytes `0x1000` to `0x1007` alone, with a choice for what an access outside does. -/
def windowed (outOfRange : OutOfRange) (alignedOnly : Bool) (w : Word) (regs : List (RegIdx × Word)) : State :=
  { start w regs with cfg := { Config.specDefault with
      mem := .array { window := some (0x1000, 8), outOfRange := outOfRange, alignedOnly := alignedOnly } } }

/-- One that serves the words there alone, aligned. -/
def strict (w : Word) (regs : List (RegIdx × Word)) : State := windowed .refuse true w regs

/-- A `MEM` that is no byte array. -/
def foreign (w : Word) (regs : List (RegIdx × Word)) : State :=
  { start w regs with cfg := { Config.specDefault with mem := .other 0 } }

/-- Silent wrap: `lw x5, 0(x6)` at `0x1008`, 8 bytes past the base, reads the word at the base. -/
theorem test_wrapping_load : after 5 (windowed .wrap false 0x00032283 [(6, 0x1008)]) = some 0x00032283#32 := by decide
/-- `sb x5, 0(x6)` at address 5 sets the byte at `0x1005`. -/
theorem test_wrapping_store : (stateAfter (windowed .wrap false 0x00530023 [(5, 0x7F), (6, 5)])).map (fun t => t.mem.byteAt 0x1005) =
    some 0x7F := by decide
/-- A collaborator with side effects sees the read of a load with `rd = 0` (20_memory.md R60; `lw x0, 4(x6)`). -/
theorem test_other_sees_read : ∀ o, loadInto .word id 0 4 (foreign 0 []) = o →
    o = .fault (.loadRefused .word 4) ∨ ∃ t, o = .next t ∧ t.memSeen = [.read .word 4] := by
  intro o ho
  cases h : (foreign 0 []).servesRead .word 4 with
  | false => exact .inl (ho.symm.trans (loadInto_refused h _ _))
  | true => exact .inr ⟨_, ho.symm.trans (loadInto_served h _ _), rfl⟩

/-- A state in which `n` iterations are counted by a counter of 8 bits. -/
def counted (n : Nat) : State :=
  { State.reset with retired := n, runState := .halted, cfg := { Config.specDefault with cntW := .bits 8 (by decide) } }

theorem test_count_in_range : (counted 255).count = 255 ∧ (counted 255).result = some 255 := by decide
/-- Beyond its width the counter reads a free value of that width. -/
theorem test_count_out_of_range : (counted 256).count = Config.freeCount 8 256 % 256 := rfl

theorem witness_RefusedAccessStops_byte : (strict 0 []).servesRead .byte 0x1008 = false ∧
    (strict 0 []).servesWrite .byte 0x1008 0x41 = false ∧ (strict 0 []).servesRead .byte 0x1007 = true := by decide
theorem witness_RefusedAccessStops_half : (strict 0 []).servesRead .half 0x1001 = false ∧
    (strict 0 []).servesWrite .half 0x1001 0x41 = false ∧ (strict 0 []).servesRead .half 0x1006 = true := by decide
theorem witness_RefusedAccessStops_word : (strict 0 []).servesRead .word 0x1002 = false ∧
    (strict 0 []).servesWrite .word 0x1002 0x41 = false ∧ (strict 0 []).servesRead .word 0x1004 = true := by decide

theorem witness_SignedDivision_zero : (start 0 [(6, 7)]).x 7 = 0 := by decide
theorem witness_SignedDivision_overflow :
    (start 0 [(6, 0x80000000), (7, 0xFFFFFFFF)]).x 6 = 0x80000000#32 ∧
      (start 0 [(6, 0x80000000), (7, 0xFFFFFFFF)]).x 7 = 0xFFFFFFFF#32 := by decide
theorem witness_SignedDivision_else : (start 0 [(6, 0x80000000), (7, 1)]).x 7 ≠ 0 ∧
    ¬ ((start 0 [(6, 0x80000000), (7, 1)]).x 6 = 0x80000000#32 ∧ (start 0 [(6, 0x80000000), (7, 1)]).x 7 = 0xFFFFFFFF#32) := by
  decide
theorem witness_UnsignedDivision : (start 0 [(6, 7)]).x 7 = 0 ∧ (start 0 [(7, 0xFFFFFFFF)]).x 7 ≠ 0 := by decide
theorem witness_QuotientAndRemainderRecombine : (5 : RegIdx) ≠ 0 := by decide

theorem witness_LoadRule : (0x2000#32 = BitVec.ofInt 32 (((loadStart 0).x 6).toNat + (0xFFC#12).toInt)) ∧
    (loadStart 0).servesRead .word 0x2000 = true ∧ (strict 0 []).servesRead .half 0x1006 = true ∧
    (windowed .wrap false 0 []).servesRead .word 0x1006 = true := by decide
theorem witness_StoreRule : (0x3007#32 = BitVec.ofInt 32 (((storeStart 0).x 6).toNat + (3#12).toInt)) ∧
    (storeStart 0).servesWrite .byte 0x3007 ((storeStart 0).x 5) = true ∧ (strict 0 []).servesWrite .word 0x1004 0 = true := by decide
/-- The last byte of a word across the end of a wrapping window, which no later byte overwrites. -/
theorem witness_StoreRule_wrap : (windowed .wrap false 0 []).cfg.mem.locate (0x1006#32 + BitVec.ofNat 32 3) = 0x1001 ∧
    ∀ j < 4, 3 < j → False := ⟨by decide, fun j hj h => by omega⟩
/-- A byte outside those the addresses name. -/
theorem witness_StoreRule_frame : ∀ k < 4, (0x1002#32) ≠ (windowed .wrap false 0 []).cfg.mem.locate (0x1006 + BitVec.ofNat 32 k) := by
  decide
theorem witness_JalLinksAndJumps : (0x100000#21).toNat % 2 = 0 ∧ (0xFFFFE#21).toNat % 2 = 0 := by decide
theorem witness_JalrClearsBitZeroAndLinks :
    0x2005#32 = BitVec.ofInt 32 (((start 0 [(6, 0x2000)]).x 6).toNat + (5#12).toInt) := by decide
theorem witness_BranchRule_even : (0x1000#13).toNat % 2 = 0 ∧ (0xFFE#13).toNat % 2 = 0 := by decide
theorem witness_BranchRule_equal : (start 0 [(5, 7), (6, 7)]).x 5 = (start 0 [(5, 7), (6, 7)]).x 6 ∧
    (start 0 [(5, 7), (6, 8)]).x 5 ≠ (start 0 [(5, 7), (6, 8)]).x 6 := by decide
theorem witness_BranchRule_signed :
    ((start 0 [(5, 0x80000000)]).x 5).toInt < ((start 0 [(5, 0x80000000)]).x 6).toInt ∧
      ¬ ((start 0 [(5, 1)]).x 5).toInt < ((start 0 [(5, 1)]).x 6).toInt := by decide
theorem witness_BranchRule_unsigned :
    ((start 0 [(6, 0x80000000)]).x 5).toNat < ((start 0 [(6, 0x80000000)]).x 6).toNat ∧
      ¬ ((start 0 []).x 5).toNat < ((start 0 []).x 6).toNat := by decide

theorem witness_EcallReadsOneCharacter : (ecallStart 1 0 [0x41] 0).x 17 = 1 ∧
    (ecallStart 1 0 [0x41] 0).input[(ecallStart 1 0 [0x41] 0).inPos]? = some 0x41 := by decide
theorem witness_EcallAtEndOfInput : (ecallStart 1 0 [0x41] 1).x 17 = 1 ∧
    (ecallStart 1 0 [0x41] 1).input[(ecallStart 1 0 [0x41] 1).inPos]? = none ∧
    (ecallStart 1 0 [0x41] 1).cfg.eofA0 = .anyValue := by decide

/-- The same state under the other choices of the parameters. -/
def eofStart (exitNum : ExitNum) (halts : Bool) (a0 : EofA0) : State :=
  { ecallStart 1 0x55 [] 0 with
    cfg := { Config.specDefault with exitNum := exitNum, eofHaltsNow := halts, eofA0 := a0 } }

theorem witness_EcallAtEndOfInput_pinned : (eofStart .ninetyThree true (.pinned 9)).x 17 = 1 ∧
    (eofStart .ninetyThree true (.pinned 9)).cfg.eofA0 = .pinned 9 ∧
    after 10 (eofStart .ninetyThree true (.pinned 9)) = some 9#32 ∧
    after 17 (eofStart .ninetyThree true (.pinned 9)) = some 93#32 := by decide
theorem witness_EcallAtEndOfInput_unchanged : (eofStart .three true .unchanged).x 17 = 1 ∧
    (eofStart .three true .unchanged).cfg.eofA0 = .unchanged ∧
    after 10 (eofStart .three true .unchanged) = some 0x55#32 := by decide
theorem witness_EcallWritesTheLowByte : (ecallStart 2 0x141 [] 0).x 17 = 2 := by decide
theorem witness_EcallHalts : (ecallStart 3 0 [] 0).x 17 = 3 ∧ (ecallStart 93 0 [] 0).x 17 = 93 := by decide
theorem witness_UnknownServiceIsReportedOnly : (ecallStart 0 0 [] 0).x 17 ≠ 1 ∧ (ecallStart 0 0 [] 0).x 17 ≠ 2 ∧
    (ecallStart 0 0 [] 0).x 17 ≠ 3 ∧ (ecallStart 0 0 [] 0).x 17 ≠ 93 := by decide
theorem witness_UnknownServiceRecordHoldsPcAndNumber : (ecallStart 0xFFFFFFFF 0 [] 0).x 17 ≠ 93 ∧
    ∃ t, exec .ecall (ecallStart 0xFFFFFFFF 0 [] 0) = .next t := ⟨by decide, _, rfl⟩
theorem witness_ImmediateShifts_unrecognised : fieldOpcode 0x02001013 = 0b0010011#7 ∧ fieldFunct3 0x02001013 = 0b001#3 ∧
    fieldFunct7 0x02001013 ≠ 0 := by decide
theorem witness_UnrecognisedWordIsReportedOnly : (start 0x00100073 []).runState = .running ∧
    (start 0x00100073 []).servesRead .word (start 0x00100073 []).pc = true ∧
    (start 0x00100073 []).answer .word (start 0x00100073 []).pc = 0x00100073 ∧ decode 0x00100073 = .unrecognised := by decide

theorem witness_StepRunsTheDecodedInstruction : (start 0x002081B3 []).runState = .running ∧
    (start 0x002081B3 []).servesRead .word (start 0x002081B3 []).pc = true ∧
    decode ((start 0x002081B3 []).answer .word (start 0x002081B3 []).pc) = .instr (.add 3 1 2) := by decide
theorem witness_StepStops_halted : ((start 0 []).halt).runState = .halted := by decide
theorem witness_StepStops_refused : ({ strict 0 [] with pc := 0x1008 } : State).runState = .running ∧
    ({ strict 0 [] with pc := 0x1008 } : State).servesRead .word 0x1008 = false := by decide
theorem witness_EveryRunningStateSteps : State.reset.runState = .running ∧ State.reset.cfg.mem = .array .reference := by decide
theorem witness_OnlyEcallHalts : (stateAfter (ecallStart 3 0 [] 0)).map State.runState = some .halted ∧
    (stateAfter (ecallStart 93 0 [] 0)).map State.runState = some .halted ∧
    (stateAfter (eofStart .three true .unchanged)).map State.runState = some .halted := by decide

/-- What `stateAfter` answers is what `step` answers. -/
theorem step_of_stateAfter {s t : State} (h : stateAfter s = some t) : step s = .next t := by
  unfold stateAfter at h
  split at h
  · next u hu => rw [hu, Option.some.inj h]
  · cases h
  · cases h

/-- A state that steps has a next state with the property a test shows of it. -/
theorem exists_step {s : State} {p : State → Bool} (h : (stateAfter s).any p = true) : ∃ t, step s = .next t ∧ p t = true := by
  cases hs : stateAfter s with
  | none => rw [hs] at h; cases h
  | some t => rw [hs] at h; exact ⟨t, step_of_stateAfter hs, h⟩

theorem witness_RetiredCountsIterations : ∃ t, Reaches 2 State.reset t := by
  obtain ⟨u, hu, h⟩ := exists_step (s := State.reset) (p := fun u => (stateAfter u).any fun _ => true) (by decide)
  obtain ⟨t, ht, -⟩ := exists_step h
  exact ⟨t, u, hu, t, ht, rfl⟩
theorem witness_CounterOfEveryWidthCounts : ∃ t, Reaches 1 (State.resetWith (counted 0).cfg 0 [] []) t ∧ t.count = 1 := by
  obtain ⟨t, ht, h⟩ := exists_step (s := State.resetWith (counted 0).cfg 0 [] []) (p := fun t => decide (t.count = 1)) (by decide)
  exact ⟨t, ⟨t, ht, rfl⟩, of_decide_eq_true h⟩
theorem witness_WrappingMemory : 0 < 8 ∧ 0x1000 + 8 ≤ 2 ^ 32 ∧ 0xFFFFFFF8 + 8 ≤ 2 ^ 32 ∧ 0x1000 ≤ (0x1007#32).toNat ∧
    (0x1007#32).toNat + 8 < 2 ^ 32 := by decide
/-- A load: the fetch, the trace record and one read more. -/
theorem witness_OneFetchThenAtMostOneTransaction :
    ∃ t, step (loadStart 0xFFD32283) = .next t ∧ decide (t.events.length = 3) = true :=
  exists_step (by decide)
/-- A store: the fetch and one write. -/
theorem witness_MemoryRequestsOfEveryStep : ∃ t, step (storeStart 0x00531023) = .next t ∧ decide (t.events.filter Event.isMemory =
    [.memRead .word 0x1000 0x00531023, .memWrite .half 0x3004 0x3344]) = true := exists_step (by decide)
/-- A word that accesses nothing beyond the fetch. -/
theorem witness_MemoryRequestsOfEveryStep_none : ∃ t, step (start 0x00100073 []) = .next t ∧
    decide (t.events.filter Event.isMemory = [.memRead .word 0x1000 0x00100073]) = true := exists_step (by decide)
theorem witness_MemoryFrame_store : (∃ t, exec (.sb 5 6 3) (storeStart 0) = .next t) ∧
    storesTo (.sb 5 6 3) (storeStart 0) = some (0x3007, 1) ∧
    ∀ k < 1, (0x3006#32) ≠ (storeStart 0).cfg.mem.locate (0x3007 + BitVec.ofNat 32 k) := ⟨⟨_, rfl⟩, by decide⟩
theorem witness_MemoryFrame_no_store : (∃ t, exec (.add 3 1 2) (start 0 []) = .next t) ∧
    storesTo (.add 3 1 2) (start 0 []) = none := ⟨⟨_, rfl⟩, rfl⟩
/-- A `MEM` that is no byte array. -/
theorem witness_MemoryFrame_other : (∃ t, exec (.add 3 1 2) (foreign 0 []) = .next t) ∧
    (foreign 0 []).cfg.mem = .other 0 := ⟨⟨_, rfl⟩, rfl⟩
theorem witness_RegisterFrame : (∃ t, exec .ecall (ecallStart 1 0 [] 0) = .next t) ∧ (16 : RegIdx) ∉ Instr.ecall.dests :=
  ⟨⟨_, rfl⟩, by decide⟩
theorem witness_NextPc : ∃ t, exec (.beq 5 6 16) (start 0 []) = .next t ∧ t.pc = 0x1010 := ⟨_, rfl, by decide⟩
theorem witness_UnnamedRegister : (7 : RegIdx) ∉ (Instr.sw 5 6 0).sources ∧ (5 : RegIdx) ∉ (Instr.addi 5 6 1).sources ∧
    (5 : RegIdx) ∈ (Instr.addi 5 6 1).dests := by decide
/-- An instruction of which the statement speaks of `x10` too. -/
theorem witness_DrawsA0_not : ¬ DrawsA0 .ecall (ecallStart 1 0 [0x41] 0) ∧ ¬ DrawsA0 .ecall (ecallStart 2 0 [] 0) := by decide
/-- One that leaves a free value there. -/
theorem witness_DrawsA0 : DrawsA0 .ecall (ecallStart 1 0 [0x41] 1) := by decide

theorem witness_NextFetchSeesTheStore_memory : (start 0 []).cfg.mem = .array .reference ∧
    ∀ k < 4, ∀ j < k, MemPolicy.reference.locate (0x1004 + BitVec.ofNat 32 j) ≠
      MemPolicy.reference.locate (0x1004 + BitVec.ofNat 32 k) := by decide
/-- `sw x5, 4(x6)` at `0x1000` with `x6 = 0x1000` stores to the next word. -/
theorem witness_NextFetchSeesTheStore :
    (∃ t, step (start 0x00532223 [(5, 0x02A00513), (6, 0x1000)]) = .next t ∧ decide (t.pc = 0x1004) = true) ∧
    decode ((start 0x00532223 [(5, 0x02A00513), (6, 0x1000)]).answer .word 0x1000) = .instr (.sw 5 6 4) ∧
    BitVec.ofInt 32 (((start 0x00532223 [(5, 0x02A00513), (6, 0x1000)]).x 6).toNat + (4#12).toInt) = 0x1004#32 :=
  ⟨exists_step (by decide), by decide⟩

theorem witness_ResetEstablishesTheInvariant : Memory.wf [] = true ∧ Memory.wf [(3, 1), (0xFFFFFFFF, 0x80)] = true := by decide
/-- A state with a listed byte, a record of every kind and input consumed, in which the invariant holds, and which steps. -/
theorem witness_StepKeepsTheInvariant : ∃ s t : State, s.Inv ∧ s.mem ≠ [] ∧ s.inPos = 1 ∧ step s = .next t := by
  obtain ⟨t, ht, -⟩ := exists_step (p := fun _ => true)
    (s := { ecallStart 7 0 [0x41, 0x42] 1 with retired := 1, events := [.trace { pc := 0, word := 0x73 }, .inGet (some 0x41)] })
    (by decide)
  refine ⟨_, t, ⟨by decide, by decide, ?_, fun _ => by decide, by decide, fun _ _ => rfl⟩, by decide, by decide, ht⟩
  intro d hd
  cases hd
theorem witness_PcStaysEven : (start 0x005300E7 [(6, 0x2000)]).pc.toNat % 2 = 0 ∧
    ∃ t, step (start 0x005300E7 [(6, 0x2000)]) = .next t ∧ decide (t.pc = 0x2004) = true := ⟨by decide, exists_step (by decide)⟩
theorem witness_ParametersFixedAndLogsAppendOnly :
    ∃ t, step (ecallStart 2 0x41 [] 0) = .next t ∧ decide (t.out = [0x41]) = true := exists_step (by decide)
/-- E3: `jal x0, 8`, whose only destination is `x0`. -/
theorem witness_WritesToX0AreDiscarded : decode 0x0080006F = .instr (.jal 0 8) ∧ (Instr.jal 0 8).dests = [0] ∧
    (start 0x0080006F []).answer .word (start 0x0080006F []).pc = 0x0080006F ∧
    ∃ t, step (start 0x0080006F []) = .next t ∧ decide (t.pc = 0x1008) = true :=
  ⟨by decide, by decide, by decide, exists_step (by decide)⟩

end Sys2Proof.Tests
end

/-! # The Memory requests of an iteration (20_memory.md R58)

`Issues s t reqs` says that `t` follows `s` by transactions whose Memory requests are `reqs`. Each shared operation has one
such rule, an instruction's follows from the operation it completes with, and a step's is the fetch's followed by the
instruction's. -/

namespace Sys2Proof.Machine

/-! ### Transactions and the Memory requests among them -/

/-- `t` has the transactions of `s` and then some more, of which exactly `reqs` go through Memory, in this order. -/
def Issues (s t : State) (reqs : List Event) : Prop :=
  ∃ new : List Event, t.events = s.events ++ new ∧ new.filter Event.isMemory = reqs

theorem Issues.of_events_append {s t : State} {new : List Event} (h : t.events = s.events ++ new) :
    Issues s t (new.filter Event.isMemory) := ⟨new, h, rfl⟩

theorem Issues.of_events_eq {s t : State} (h : t.events = s.events) : Issues s t [] :=
  Issues.of_events_append (new := []) (by simpa using h)

theorem Issues.trans {s t u : State} {p q : List Event} (hst : Issues s t p) (htu : Issues t u q) :
    Issues s u (p ++ q) := by
  obtain ⟨a, ha, rfl⟩ := hst
  obtain ⟨b, hb, rfl⟩ := htu
  exact ⟨a ++ b, by rw [hb, ha, List.append_assoc], List.filter_append ..⟩

/-! ### The requests of the shared operations -/

theorem issues_of_writeBack {s t : State} {rd : RegIdx} {v : Word} (h : writeBack rd v s = .next t) : Issues s t [] := by
  cases h
  exact .of_events_eq (by simp)

theorem issues_of_linkAndJump {s t : State} {rd : RegIdx} {target : Word} (h : linkAndJump rd target s = .next t) :
    Issues s t [] := by
  cases h
  exact .of_events_eq (by simp)

theorem issues_of_branchIf {s t : State} {taken : Bool} {offset : BitVec 13} (h : branchIf taken offset s = .next t) :
    Issues s t [] := by
  cases h
  exact .of_events_eq (by cases taken <;> rfl)

/-- The read in exact arithmetic is the one issued at the address the instruction forms. -/
theorem readAt_eq_loadAddr (s : State) (width : Width) (rs1 : RegIdx) (imm : BitVec 12) :
    readAt s width rs1 imm = .memRead width (loadAddr s rs1 imm) (s.answer width (loadAddr s rs1 imm)) := by
  rw [readAt, loadAddr_eq]

theorem zext_eq_ofNat_mod (n : Nat) (v : Word) : zext n v = BitVec.ofNat 32 (v.toNat % 2 ^ n) :=
  BitVec.eq_of_toNat_eq (by simp [zext])

/-- The write in exact arithmetic is the one issued at the address the instruction forms, with the bits that reach Memory. -/
theorem writeAt_eq_storeAddr (s : State) (width : Width) (rs2 rs1 : RegIdx) (imm : BitVec 12) :
    writeAt s width rs2 rs1 imm = .memWrite width (storeAddr s rs1 imm) (zext (8 * width.bytes) (s.x rs2)) := by
  rw [writeAt, storeAddr_eq, zext_eq_ofNat_mod]

theorem issues_of_loadInto {s t : State} {width : Width} {ext : Word → Word} {rd rs1 : RegIdx} {imm : BitVec 12}
    (h : loadInto width ext rd (loadAddr s rs1 imm) s = .next t) : Issues s t [readAt s width rs1 imm] := by
  obtain ⟨-, rfl⟩ := loadInto_next h
  rw [readAt_eq_loadAddr]
  exact .of_events_append (new := [.memRead ..]) (by simp)

theorem issues_of_storeTo {s t : State} {width : Width} {rs2 rs1 : RegIdx} {imm : BitVec 12}
    (h : storeTo width (storeAddr s rs1 imm) (s.x rs2) s = .next t) : Issues s t [writeAt s width rs2 rs1 imm] := by
  obtain ⟨-, rfl⟩ := storeTo_next h
  rw [writeAt_eq_storeAddr]
  exact .of_events_append (new := [.memWrite ..]) (by simp)

/-- A service talks to the streams and the diagnostic channel, never to Memory. -/
theorem service_issues (s : State) : Issues s (service s) [] := by
  rcases service_cases s with ⟨b, -, -, h⟩ | ⟨-, -, h⟩ | ⟨-, h⟩ | ⟨-, h⟩ | ⟨-, -, -, -, h⟩ <;> rw [h]
  · exact .of_events_append (new := [.inGet (some b)]) (by simp)
  · exact .of_events_append (new := [.inGet none]) (by simp)
  · exact .of_events_append (State.outPut_events ..)
  · exact .of_events_eq (State.halt_events s)
  · exact .of_events_append (State.diag_events ..)

/-! ### The requests of an instruction -/

/-- By the operation each instruction completes with; those not named complete with `writeBack`. -/
theorem exec_issues {i : Instr} {s t : State} (h : exec i s = .next t) : Issues s t (dataAccess i s) := by
  cases i with
  | lb _ _ _ | lh _ _ _ | lw _ _ _ | lbu _ _ _ | lhu _ _ _ => exact issues_of_loadInto h
  | sb _ _ _ | sh _ _ _ | sw _ _ _ => exact issues_of_storeTo h
  | jal _ _ | jalr _ _ _ => exact issues_of_linkAndJump h
  | beq _ _ _ | bne _ _ _ | blt _ _ _ | bge _ _ _ | bltu _ _ _ | bgeu _ _ _ => exact issues_of_branchIf h
  | ecall => cases h; exact (service_issues s).trans (.of_events_eq (State.advance_events _))
  | _ => exact issues_of_writeBack h

theorem dispatch_issues {bits : Word} {s t : State} (h : dispatch bits s = .next t) :
    Issues s t (dataAccessOf (decode bits) s) := by
  unfold dispatch at h
  cases hd : decode bits with
  | instr i =>
    rw [hd] at h
    exact exec_issues h
  | unrecognised =>
    rw [hd] at h
    cases h
    exact .of_events_append (State.diag_events ..)

/-! ### The requests of a step -/

/-- The data access depends on the registers and on what `MEM` answers. -/
theorem dataAccess_congr {s t : State} (hx : ∀ r, t.x r = s.x r) (ha : ∀ w a, t.answer w a = s.answer w a) (i : Instr) :
    dataAccess i t = dataAccess i s := by
  have hr : readAt t = readAt s := by funext width rs1 imm; simp [readAt, hx, ha]
  have hw : writeAt t = writeAt s := by funext width rs2 rs1 imm; simp [writeAt, hx]
  unfold dataAccess
  rw [hr, hw]

/-- The trace record changes nothing that a data access depends on. -/
theorem dataAccessOf_traced (d : Decoded) (s : State) (w : Word) : dataAccessOf d (s.traced w) = dataAccessOf d s := by
  cases d with
  | instr i => exact dataAccess_congr (by simp) (State.answer_congr (by simp) (by simp) (by simp)) i
  | unrecognised => rfl

/-- The fetch is a request to Memory, the trace record none. -/
theorem fetched_issues (s : State) : Issues s s.fetched [.memRead .word s.pc (s.answer .word s.pc)] := by
  refine ⟨_, (State.fetched_events s).trans (List.append_assoc ..), ?_⟩
  cases s.cfg.traceEn <;> rfl

/-- Settles O47: the fetch's requests, then those of what the fetched word decodes to. -/
theorem memoryRequestsOfEveryStep : Obligations.MemoryRequestsOfEveryStep := by
  intro s t h
  obtain ⟨-, -, u, hu, rfl⟩ := step_next h
  have hdata : Issues s.fetched u
      (dataAccessOf (decode (s.answer .word s.pc)) (s.emit (.memRead .word s.pc (s.answer .word s.pc)))) := by
    rw [← dataAccessOf_traced]
    exact dispatch_issues hu
  exact (fetched_issues s).trans hdata

end Sys2Proof.Machine

/-! # The seven fields of a word (30_encoding.md R86)

`extract_bits` with its bounds in order and inside the word is the slice of the word at those places, and every field is one
slice; the recombination is the R format's (`encodeR_fields`). -/

namespace Sys2Proof

/-- Shifted down by `lo`, the word's low bits are the slice that begins at `lo` (R80). -/
theorem extractBits_eq_extractLsb' (w : Word) {hi lo : Nat} (hlo : lo ≤ hi) (hhi : hi ≤ 31) :
    extractBits w hi lo = some ((w.extractLsb' lo (hi - lo + 1)).setWidth 32) := by
  unfold extractBits zext
  rw [if_pos ⟨hhi, hlo.trans hhi⟩, max_eq_left hlo, min_eq_right hlo, BitVec.setWidth_ushiftRight_eq_extractLsb]

/-- `funct7` stands directly above `rs2`. -/
theorem fieldFunct12_eq_append (w : Word) : fieldFunct12 w = fieldFunct7 w ++ fieldRs2 w :=
  (BitVec.extractLsb'_append_extractLsb'_eq_extractLsb' (start₁ := 20) (len₁ := 5) (len₂ := 7) rfl).symm

/-- Settles O7: the fields in the R format's order are the word, and each is the slice that its `extract_bits` call takes. -/
theorem fieldsCoverTheWord : Obligations.FieldsCoverTheWord := by
  intro w
  refine ⟨(encodeR_fields w).symm, fieldFunct12_eq_append w, ?_, ?_, ?_, ?_, ?_, ?_, ?_⟩
  all_goals exact extractBits_eq_extractLsb' w (by decide) (by decide)

end Sys2Proof

/-! # Register-register arithmetic (40_alu_rtype.md)

Every instruction here is one row of the decoder's OP table and one function of its two operands that `writeBack` completes
with; `RegRegRule.of_row` makes its rule of these two facts and of what the function computes. -/

namespace Sys2Proof

/-! ### The decoder's OP table (30_encoding.md R102 to R104) -/

/-- The row of the OP table for `funct7` and `funct3` is `mk`, with its operands in the word's register fields. -/
def OpRow (funct7 : BitVec 7) (funct3 : BitVec 3) (mk : RegIdx → RegIdx → RegIdx → Instr) : Prop :=
  ∀ w : Word, fieldFunct7 w = funct7 → fieldFunct3 w = funct3 →
    decodeOp w = .instr (mk (fieldRd w) (fieldRs1 w) (fieldRs2 w))

/-- The R layout of a row's numbers decodes to the row's instruction. -/
theorem OpRow.decode_encodeR {funct7 : BitVec 7} {funct3 : BitVec 3} {mk : RegIdx → RegIdx → RegIdx → Instr}
    (h : OpRow funct7 funct3 mk) (rd rs1 rs2 : RegIdx) :
    decode (encodeR funct7 rs2 rs1 funct3 rd opOp) = .instr (mk rd rs1 rs2) := by
  rw [decode, if_pos (fieldOpcode_encodeR ..), h _ (fieldFunct7_encodeR ..) (fieldFunct3_encodeR ..), fieldRd_encodeR,
    fieldRs1_encodeR, fieldRs2_encodeR]

theorem decodeOp_of_base {w : Word} (h : fieldFunct7 w = 0b0000000#7) : decodeOp w = decodeOpBase w := if_pos h

theorem decodeOp_of_alt {w : Word} (h : fieldFunct7 w = 0b0100000#7) : decodeOp w = decodeOpAlt w := by
  simp [decodeOp, h]

theorem opRow_add : OpRow 0b0000000#7 0b000#3 .add := fun w h7 h3 => by simp only [decodeOp_of_base h7, decodeOpBase, h3]
theorem opRow_sll : OpRow 0b0000000#7 0b001#3 .sll := fun w h7 h3 => by simp only [decodeOp_of_base h7, decodeOpBase, h3]
theorem opRow_slt : OpRow 0b0000000#7 0b010#3 .slt := fun w h7 h3 => by simp only [decodeOp_of_base h7, decodeOpBase, h3]
theorem opRow_sltu : OpRow 0b0000000#7 0b011#3 .sltu := fun w h7 h3 => by simp only [decodeOp_of_base h7, decodeOpBase, h3]
theorem opRow_xor : OpRow 0b0000000#7 0b100#3 .xor := fun w h7 h3 => by simp only [decodeOp_of_base h7, decodeOpBase, h3]
theorem opRow_srl : OpRow 0b0000000#7 0b101#3 .srl := fun w h7 h3 => by simp only [decodeOp_of_base h7, decodeOpBase, h3]
theorem opRow_or : OpRow 0b0000000#7 0b110#3 .or := fun w h7 h3 => by simp only [decodeOp_of_base h7, decodeOpBase, h3]
theorem opRow_and : OpRow 0b0000000#7 0b111#3 .and := fun w h7 h3 => by simp only [decodeOp_of_base h7, decodeOpBase, h3]
theorem opRow_sub : OpRow 0b0100000#7 0b000#3 .sub := fun w h7 h3 => by simp only [decodeOp_of_alt h7, decodeOpAlt, h3]
theorem opRow_sra : OpRow 0b0100000#7 0b101#3 .sra := fun w h7 h3 => by simp only [decodeOp_of_alt h7, decodeOpAlt, h3]

end Sys2Proof

namespace Sys2Proof.Machine

/-! ### The rule from the row and the value -/

/-- What `writeBack` does: the register write, the pc on to the next instruction, and nothing else. -/
theorem writesRd_writeBack (s : State) (rd : RegIdx) (v : Word) :
    WritesRd s (s.setReg rd v).advance rd v (s.pc + 4) [] :=
  ⟨fun r => (State.x_advance _ r).trans (State.x_setReg s rd v r), by simp, by simp [KeepsRest]⟩

/-- An instruction of the OP table that completes with `op` of its operands has the rule of every relation `op` satisfies. -/
theorem RegRegRule.of_row {funct7 : BitVec 7} {funct3 : BitVec 3} {mk : RegIdx → RegIdx → RegIdx → Instr}
    {f : Word → Word → Word → Prop} (op : Word → Word → Word) (hrow : OpRow funct7 funct3 mk)
    (hexec : ∀ rd rs1 rs2 s, exec (mk rd rs1 rs2) s = writeBack rd (op (s.x rs1) (s.x rs2)) s)
    (hop : ∀ a b, f a b (op a b)) : RegRegRule funct7 funct3 mk f :=
  fun rd rs1 rs2 s =>
    ⟨hrow.decode_encodeR rd rs1 rs2, _, _, hexec rd rs1 rs2 s, hop _ _, writesRd_writeBack s rd _⟩

/-! ### What the functions compute -/

theorem sub_eq_ofInt (a b : Word) : a - b = BitVec.ofInt 32 (a.toInt - b.toInt) :=
  BitVec.eq_of_toInt_eq (by rw [BitVec.toInt_sub, BitVec.toInt_ofInt])

/-- The low five bits of the second operand (R143, R152). -/
theorem shiftAmount_eq (b : Word) : shiftAmount b = b.toNat % 32 := by simp [shiftAmount]

theorem shiftLeft_eq_ofNat (a : Word) (n : Nat) : a <<< n = BitVec.ofNat 32 (a.toNat * 2 ^ n) :=
  BitVec.eq_of_toNat_eq (by simp [Nat.shiftLeft_eq])

theorem ushiftRight_eq_ofNat (a : Word) (n : Nat) : a >>> n = BitVec.ofNat 32 (a.toNat / 2 ^ n) := by
  apply BitVec.eq_of_toNat_eq
  have hlt : a.toNat / 2 ^ n < 2 ^ 32 := (Nat.div_le_self ..).trans_lt a.isLt
  rw [BitVec.toNat_ushiftRight, Nat.shiftRight_eq_div_pow, BitVec.toNat_ofNat, Nat.mod_eq_of_lt hlt]

/-- Filling with the sign is rounding down (R148). -/
theorem sshiftRight_eq_ofInt (a : Word) (n : Nat) : a.sshiftRight n = BitVec.ofInt 32 (Int.fdiv a.toInt (2 ^ n)) := by
  rw [BitVec.sshiftRight, Int.shiftRight_eq_div_pow, Int.fdiv_eq_ediv_of_nonneg _ (by positivity)]
  norm_cast

/-- One of the two comparisons holds, so the written word is determined (R144, R145). -/
theorem boolWord_decide_lt {α : Type} [LinearOrder α] (x y : α) [Decidable (x < y)] :
    (x < y → boolWord (decide (x < y)) = 1) ∧ (y ≤ x → boolWord (decide (x < y)) = 0) :=
  ⟨fun h => by simp [boolWord, h], fun h => by simp [boolWord, h.not_gt]⟩

/-! ### The rules -/

/-- Settles O16: the 32-bit sum and difference are the exact ones, of the unsigned and of the signed values, modulo 2^32. -/
theorem addAndSubWrap : Obligations.AddAndSubWrap :=
  ⟨.of_row (· + ·) opRow_add (fun _ _ _ _ => rfl) BitVec.add_def,
    .of_row (· - ·) opRow_sub (fun _ _ _ _ => rfl) sub_eq_ofInt⟩

/-- Settles O17: a left shift multiplies, a right shift divides rounding down, by two to the amount of `shiftAmount_eq`. -/
theorem shiftsUseTheLowFiveBits : Obligations.ShiftsUseTheLowFiveBits := by
  refine ⟨.of_row (fun a b => a <<< shiftAmount b) opRow_sll (fun _ _ _ _ => rfl) fun a b => ?_,
    .of_row (fun a b => a >>> shiftAmount b) opRow_srl (fun _ _ _ _ => rfl) fun a b => ?_,
    .of_row (fun a b => a.sshiftRight (shiftAmount b)) opRow_sra (fun _ _ _ _ => rfl) fun a b => ?_⟩
  · rw [shiftLeft_eq_ofNat, shiftAmount_eq]
  · rw [ushiftRight_eq_ofNat, shiftAmount_eq]
  · rw [sshiftRight_eq_ofInt, shiftAmount_eq]

/-- Settles O18: the written word is the truth value of the comparison, signed for `slt` and unsigned for `sltu`. -/
theorem setLessThanWritesZeroOrOne : Obligations.SetLessThanWritesZeroOrOne :=
  ⟨.of_row (fun a b => boolWord (lessSigned a b)) opRow_slt (fun _ _ _ _ => rfl) fun a b =>
      boolWord_decide_lt a.toInt b.toInt,
    .of_row (fun a b => boolWord (lessUnsigned a b)) opRow_sltu (fun _ _ _ _ => rfl) fun a b =>
      boolWord_decide_lt a.toNat b.toNat⟩

/-- Settles O19: each bit of the result is the operation on the operands' bits at its place. -/
theorem logicIsBitwise : Obligations.LogicIsBitwise :=
  ⟨.of_row (· ^^^ ·) opRow_xor (fun _ _ _ _ => rfl) fun _ _ _ => BitVec.getLsbD_xor,
    .of_row (· ||| ·) opRow_or (fun _ _ _ _ => rfl) fun _ _ _ => BitVec.getLsbD_or,
    .of_row (· &&& ·) opRow_and (fun _ _ _ _ => rfl) fun _ _ _ => BitVec.getLsbD_and⟩

end Sys2Proof.Machine

/-! # Multiplication and unsigned division (41_muldiv.md)

The rows of the M extension stand in the OP table under one `funct7`; each rule comes from its row by `RegRegRule.of_row`, and
from what `highWord`, `divUnsigned` and `remUnsigned` are in exact arithmetic. -/

namespace Sys2Proof

/-! ### The M extension in the OP table (30_encoding.md R103) -/

theorem decodeOp_of_m {w : Word} (h : fieldFunct7 w = 0b0000001#7) : decodeOp w = decodeOpM w := by
  simp [decodeOp, h]

theorem opRow_mul : OpRow 0b0000001#7 0b000#3 .mul := fun w h7 h3 => by simp only [decodeOp_of_m h7, decodeOpM, h3]
theorem opRow_mulh : OpRow 0b0000001#7 0b001#3 .mulh := fun w h7 h3 => by simp only [decodeOp_of_m h7, decodeOpM, h3]
theorem opRow_mulhsu : OpRow 0b0000001#7 0b010#3 .mulhsu := fun w h7 h3 => by simp only [decodeOp_of_m h7, decodeOpM, h3]
theorem opRow_mulhu : OpRow 0b0000001#7 0b011#3 .mulhu := fun w h7 h3 => by simp only [decodeOp_of_m h7, decodeOpM, h3]
theorem opRow_divu : OpRow 0b0000001#7 0b101#3 .divu := fun w h7 h3 => by simp only [decodeOp_of_m h7, decodeOpM, h3]
theorem opRow_remu : OpRow 0b0000001#7 0b111#3 .remu := fun w h7 h3 => by simp only [decodeOp_of_m h7, decodeOpM, h3]

end Sys2Proof

namespace Sys2Proof.Machine

/-! ### The words of an exact product -/

/-- The low word of the exact product, with the operands read as signed (R161). -/
theorem mul_eq_ofInt (a b : Word) : a * b = BitVec.ofInt 32 (a.toInt * b.toInt) := by
  rw [BitVec.ofInt_mul, BitVec.ofInt_toInt, BitVec.ofInt_toInt]

/-- Bits 63 to 32 of two's complement are the quotient by `2^32` rounded down, modulo `2^32`: reducing modulo `2^64` first
changes that quotient by a multiple of `2^32`. -/
theorem highWord_eq_ofInt (p : Int) : highWord p = BitVec.ofInt 32 (Int.fdiv p (2 ^ 32)) := by
  apply BitVec.eq_of_toNat_eq
  rw [highWord, BitVec.extractLsb'_toNat, Nat.shiftRight_eq_div_pow, BitVec.toNat_ofInt, BitVec.toNat_ofInt,
    Int.fdiv_eq_ediv_of_nonneg p (by decide)]
  omega

theorem highWord_natCast (p : Nat) : highWord p = BitVec.ofNat 32 (p / 2 ^ 32) := by
  rw [highWord_eq_ofInt, ← BitVec.ofInt_natCast, Int.ofNat_fdiv]
  norm_cast

/-! ### Unsigned quotient and remainder -/

theorem toNat_divUnsigned (a : Word) {b : Word} (hb : b ≠ 0) : (divUnsigned a b).toNat = a.toNat / b.toNat := by
  have hlt : a.toNat / b.toNat < 2 ^ 32 := (Nat.div_le_self ..).trans_lt a.isLt
  rw [divUnsigned, if_neg hb, BitVec.toNat_ofNat, Nat.mod_eq_of_lt hlt]

theorem toNat_remUnsigned (a : Word) {b : Word} (hb : b ≠ 0) : (remUnsigned a b).toNat = a.toNat % b.toNat := by
  have hlt : a.toNat % b.toNat < 2 ^ 32 := (Nat.mod_le ..).trans_lt a.isLt
  rw [remUnsigned, if_neg hb, BitVec.toNat_ofNat, Nat.mod_eq_of_lt hlt]

/-- Quotient and remainder of the operands' unsigned values recombine to the dividend, with the remainder below the divisor. -/
theorem toNat_eq_mul_div_add_mod (a : Word) {b : Word} (hb : b ≠ 0) :
    a.toNat = b.toNat * (a.toNat / b.toNat) + a.toNat % b.toNat ∧ a.toNat % b.toNat < b.toNat :=
  ⟨(Nat.div_add_mod ..).symm, Nat.mod_lt _ (BitVec.toNat_pos_of_ne_zero hb)⟩

/-! ### The rules -/

/-- Settles O20: the low word is the product modulo 2^32, the high one the exact product's quotient by 2^32
(`highWord_eq_ofInt`), with each operand signed or unsigned as the instruction reads it. -/
theorem multiplyGivesLowAndHighWords : Obligations.MultiplyGivesLowAndHighWords :=
  ⟨.of_row (· * ·) opRow_mul (fun _ _ _ _ => rfl) mul_eq_ofInt,
    .of_row (fun a b => highWord (a.toInt * b.toInt)) opRow_mulh (fun _ _ _ _ => rfl) fun _ _ => highWord_eq_ofInt _,
    .of_row (fun a b => highWord (a.toInt * b.toNat)) opRow_mulhsu (fun _ _ _ _ => rfl) fun _ _ => highWord_eq_ofInt _,
    .of_row (fun a b => highWord (a.toNat * b.toNat)) opRow_mulhu (fun _ _ _ _ => rfl) fun a b => by
      rw [← Nat.cast_mul, highWord_natCast]⟩

/-- Settles O22: a zero divisor takes the functions' first branch; any other gives quotient and remainder of the unsigned values
(`toNat_eq_mul_div_add_mod`). -/
theorem unsignedDivisionFloors : Obligations.UnsignedDivisionFloors := by
  refine ⟨.of_row divUnsigned opRow_divu (fun _ _ _ _ => rfl) fun a b => ⟨fun hb => if_pos hb, fun hb => ?_⟩,
    .of_row remUnsigned opRow_remu (fun _ _ _ _ => rfl) fun a b => ⟨fun hb => if_pos hb, fun hb => ?_⟩⟩
  · rw [toNat_divUnsigned a hb]
    exact ⟨_, toNat_eq_mul_div_add_mod a hb⟩
  · rw [toNat_remUnsigned a hb]
    exact ⟨_, toNat_eq_mul_div_add_mod a hb⟩

end Sys2Proof.Machine

/-! # Register-immediate arithmetic (42_alu_imm.md)

As for the register-register instructions, each instruction is one row of the decoder's OP-IMM table and one function that
`writeBack` completes with, here of the operand and of the sign-extended immediate or the shift amount. -/

namespace Sys2Proof

/-! ### The decoder's OP-IMM table (30_encoding.md R105) -/

theorem decode_of_opImm {w : Word} (h : fieldOpcode w = opOpImm) : decode w = decodeOpImm w := by
  rw [decode, if_neg (by rw [h]; decide), if_pos h]

/-- The row of the OP-IMM table for `funct3` is `mk`, with its operands in the word's fields, whatever `funct7` is. -/
def OpImmRow (funct3 : BitVec 3) (mk : RegIdx → RegIdx → BitVec 12 → Instr) : Prop :=
  ∀ w : Word, fieldFunct3 w = funct3 → decodeOpImm w = .instr (mk (fieldRd w) (fieldRs1 w) (bitsI w))

/-- The row of the OP-IMM table for a shift, which examines `funct7` too. -/
def OpImmShiftRow (funct7 : BitVec 7) (funct3 : BitVec 3) (mk : RegIdx → RegIdx → BitVec 5 → Instr) : Prop :=
  ∀ w : Word, fieldFunct7 w = funct7 → fieldFunct3 w = funct3 →
    decodeOpImm w = .instr (mk (fieldRd w) (fieldRs1 w) (bitsShamt w))

/-- The I layout of a row's number decodes to the row's instruction. -/
theorem OpImmRow.decode_encodeI {funct3 : BitVec 3} {mk : RegIdx → RegIdx → BitVec 12 → Instr} (h : OpImmRow funct3 mk)
    (rd rs1 : RegIdx) (imm : BitVec 12) : decode (encodeI imm rs1 funct3 rd opOpImm) = .instr (mk rd rs1 imm) := by
  rw [decode_of_opImm (fieldOpcode_encodeI ..), h _ (fieldFunct3_encodeI ..), fieldRd_encodeI, fieldRs1_encodeI,
    bitsI_encodeI]

/-- The shift-immediate layout of a row's numbers decodes to the row's instruction. -/
theorem OpImmShiftRow.decode_encodeShift {funct7 : BitVec 7} {funct3 : BitVec 3}
    {mk : RegIdx → RegIdx → BitVec 5 → Instr} (h : OpImmShiftRow funct7 funct3 mk) (rd rs1 : RegIdx) (shamt : BitVec 5) :
    decode (encodeShift funct7 shamt rs1 funct3 rd) = .instr (mk rd rs1 shamt) := by
  rw [decode_of_opImm (fieldOpcode_encodeShift ..), h _ (fieldFunct7_encodeShift ..) (fieldFunct3_encodeShift ..),
    fieldRd_encodeShift, fieldRs1_encodeShift, bitsShamt_encodeShift]

theorem opImmRow_addi : OpImmRow 0b000#3 .addi := fun w h3 => by simp only [decodeOpImm, h3]
theorem opImmRow_slti : OpImmRow 0b010#3 .slti := fun w h3 => by simp only [decodeOpImm, h3]
theorem opImmRow_sltiu : OpImmRow 0b011#3 .sltiu := fun w h3 => by simp only [decodeOpImm, h3]
theorem opImmRow_xori : OpImmRow 0b100#3 .xori := fun w h3 => by simp only [decodeOpImm, h3]
theorem opImmRow_ori : OpImmRow 0b110#3 .ori := fun w h3 => by simp only [decodeOpImm, h3]
theorem opImmRow_andi : OpImmRow 0b111#3 .andi := fun w h3 => by simp only [decodeOpImm, h3]
theorem opImmShiftRow_slli : OpImmShiftRow 0b0000000#7 0b001#3 .slli := fun w h7 h3 => by simp [decodeOpImm, h3, h7]
theorem opImmShiftRow_srli : OpImmShiftRow 0b0000000#7 0b101#3 .srli := fun w h7 h3 => by simp [decodeOpImm, h3, h7]
theorem opImmShiftRow_srai : OpImmShiftRow 0b0100000#7 0b101#3 .srai := fun w h7 h3 => by simp [decodeOpImm, h3, h7]

/-- `slli` has the only row of its `funct3`, so every other `funct7` is unrecognised (R187). -/
theorem decodeOpImm_eq_unrecognised {w : Word} (h3 : fieldFunct3 w = 0b001#3) (h7 : fieldFunct7 w ≠ 0b0000000#7) :
    decodeOpImm w = .unrecognised := by
  simp [decodeOpImm, h3, h7]

end Sys2Proof

namespace Sys2Proof.Machine

/-! ### The rule from the row and the value -/

/-- An instruction of the OP-IMM table that completes with `op` of its operand and the sign-extended immediate has the rule of
the function that `op` is of the immediate's signed value. -/
theorem RegImmRule.of_row {funct3 : BitVec 3} {mk : RegIdx → RegIdx → BitVec 12 → Instr} {f : Word → Int → Word}
    (op : Word → Word → Word) (hrow : OpImmRow funct3 mk)
    (hexec : ∀ rd rs1 imm s, exec (mk rd rs1 imm) s = writeBack rd (op (s.x rs1) (valueI imm)) s)
    (hop : ∀ a imm, op a (valueI imm) = f a imm.toInt) : RegImmRule funct3 mk f :=
  fun rd rs1 imm s =>
    ⟨hrow.decode_encodeI rd rs1 imm, _, hexec rd rs1 imm s, hop (s.x rs1) imm ▸ writesRd_writeBack s rd _⟩

/-- A shift of the OP-IMM table that completes with `op` of its operand and the amount has the rule of the function
that `op` is. -/
theorem ShiftImmRule.of_row {funct7 : BitVec 7} {funct3 : BitVec 3} {mk : RegIdx → RegIdx → BitVec 5 → Instr}
    {f : Word → Nat → Word} (op : Word → Nat → Word) (hrow : OpImmShiftRow funct7 funct3 mk)
    (hexec : ∀ rd rs1 shamt s, exec (mk rd rs1 shamt) s = writeBack rd (op (s.x rs1) shamt.toNat) s)
    (hop : ∀ a n, op a n = f a n) : ShiftImmRule funct7 funct3 mk f :=
  fun rd rs1 shamt s =>
    ⟨hrow.decode_encodeShift rd rs1 shamt, _, hexec rd rs1 shamt s, hop (s.x rs1) _ ▸ writesRd_writeBack s rd _⟩

/-! ### The sign-extended immediate (30_encoding.md R91) -/

theorem valueI_eq_ofInt (imm : BitVec 12) : valueI imm = BitVec.ofInt 32 imm.toInt := rfl

theorem toInt_valueI (imm : BitVec 12) : (valueI imm).toInt = imm.toInt :=
  BitVec.toInt_signExtend_of_le (by decide)

/-- Read as unsigned, a negative immediate is `2^32` more than its value (R183). -/
theorem toNat_valueI (imm : BitVec 12) : ((valueI imm).toNat : Int) = imm.toInt % 2 ^ 32 := by
  rw [valueI_eq_ofInt, BitVec.toNat_ofInt, Int.toNat_of_nonneg (Int.emod_nonneg _ (by decide))]
  norm_cast

theorem add_valueI_eq_ofInt (a : Word) (imm : BitVec 12) : a + valueI imm = BitVec.ofInt 32 (a.toInt + imm.toInt) := by
  rw [BitVec.ofInt_add, BitVec.ofInt_toInt, valueI_eq_ofInt]

theorem boolWord_lessSigned_valueI (a : Word) (imm : BitVec 12) :
    boolWord (lessSigned a (valueI imm)) = if a.toInt < imm.toInt then 1 else 0 := by
  simp [boolWord, lessSigned, toInt_valueI]

theorem boolWord_lessUnsigned_valueI (a : Word) (imm : BitVec 12) :
    boolWord (lessUnsigned a (valueI imm)) = if (a.toNat : Int) < imm.toInt % 2 ^ 32 then 1 else 0 := by
  rw [← toNat_valueI]
  simp [boolWord, lessUnsigned]

/-! ### The rules -/

/-- Settles O24: the sum is the exact one modulo 2^32; the comparisons see the immediate's signed value (`toInt_valueI`), or
that value modulo 2^32 where they are unsigned (`toNat_valueI`). -/
theorem immediateArithmeticAndCompare : Obligations.ImmediateArithmeticAndCompare :=
  ⟨.of_row (· + ·) opImmRow_addi (fun _ _ _ _ => rfl) add_valueI_eq_ofInt,
    .of_row (fun a b => boolWord (lessSigned a b)) opImmRow_slti (fun _ _ _ _ => rfl) boolWord_lessSigned_valueI,
    .of_row (fun a b => boolWord (lessUnsigned a b)) opImmRow_sltiu (fun _ _ _ _ => rfl) boolWord_lessUnsigned_valueI⟩

/-- Settles O25: the operations of `xor`, `or` and `and`, with the sign-extended immediate (`valueI_eq_ofInt`) as second
operand. -/
theorem immediateLogic : Obligations.ImmediateLogic :=
  ⟨.of_row (· ^^^ ·) opImmRow_xori (fun _ _ _ _ => rfl) fun a imm => congrArg (a ^^^ ·) (valueI_eq_ofInt imm),
    .of_row (· ||| ·) opImmRow_ori (fun _ _ _ _ => rfl) fun a imm => congrArg (a ||| ·) (valueI_eq_ofInt imm),
    .of_row (· &&& ·) opImmRow_andi (fun _ _ _ _ => rfl) fun a imm => congrArg (a &&& ·) (valueI_eq_ofInt imm)⟩

/-- Settles O26: the shifts compute what the register shifts compute, and a non-zero `funct7` leaves `slli` no row
(`decodeOpImm_eq_unrecognised`). -/
theorem immediateShifts : Obligations.ImmediateShifts :=
  ⟨.of_row (· <<< ·) opImmShiftRow_slli (fun _ _ _ _ => rfl) shiftLeft_eq_ofNat,
    .of_row (· >>> ·) opImmShiftRow_srli (fun _ _ _ _ => rfl) ushiftRight_eq_ofNat,
    .of_row BitVec.sshiftRight opImmShiftRow_srai (fun _ _ _ _ => rfl) sshiftRight_eq_ofInt,
    fun _ hop h3 h7 => (decode_of_opImm hop).trans (decodeOpImm_eq_unrecognised h3 h7)⟩

end Sys2Proof.Machine

/-! # Upper immediates (44_upper_imm.md)

Both instructions are the U layout of an opcode that alone decides the row, and both complete with `writeBack`: of the
U-immediate, or of the pc plus it. -/

namespace Sys2Proof

/-! ### The decoder's U-format opcodes (30_encoding.md R109) -/

theorem decode_of_lui {w : Word} (h : fieldOpcode w = opLui) : decode w = .instr (.lui (fieldRd w) (bitsU w)) := by
  rw [decode, h]; rfl

theorem decode_of_auipc {w : Word} (h : fieldOpcode w = opAuipc) :
    decode w = .instr (.auipc (fieldRd w) (bitsU w)) := by
  rw [decode, h]; rfl

theorem decode_encodeU_lui (rd : RegIdx) (u : BitVec 20) : decode (encodeU u rd opLui) = .instr (.lui rd u) := by
  rw [decode_of_lui (fieldOpcode_encodeU ..), fieldRd_encodeU, bitsU_encodeU]

theorem decode_encodeU_auipc (rd : RegIdx) (u : BitVec 20) : decode (encodeU u rd opAuipc) = .instr (.auipc rd u) := by
  rw [decode_of_auipc (fieldOpcode_encodeU ..), fieldRd_encodeU, bitsU_encodeU]

/-! ### The U-immediate (30_encoding.md R95) -/

theorem toNat_valueU (u : BitVec 20) : (valueU u).toNat = u.toNat * 2 ^ 12 := by
  rw [valueU, BitVec.toNat_append, BitVec.toNat_zero, Nat.or_zero, Nat.shiftLeft_eq]

theorem valueU_eq_ofNat (u : BitVec 20) : valueU u = BitVec.ofNat 32 (u.toNat * 2 ^ 12) := by
  rw [← toNat_valueU, BitVec.ofNat_toNat, BitVec.setWidth_eq]

theorem add_valueU_eq_ofNat (a : Word) (u : BitVec 20) : a + valueU u = BitVec.ofNat 32 (a.toNat + u.toNat * 2 ^ 12) := by
  rw [BitVec.add_def, toNat_valueU]

end Sys2Proof

namespace Sys2Proof.Machine

/-! ### The rules -/

/-- Settles O29: `writeBack` of the U-immediate (`valueU_eq_ofNat`). -/
theorem luiWritesTheUpperImmediate : Obligations.LuiWritesTheUpperImmediate :=
  fun rd u s => ⟨decode_encodeU_lui rd u, _, rfl, valueU_eq_ofNat u ▸ writesRd_writeBack s rd _⟩

/-- Settles O30: `writeBack` of the sum of the U-immediate and the pc before the step, which is the instruction's own
address (`add_valueU_eq_ofNat`). -/
theorem auipcAddsToItsOwnAddress : Obligations.AuipcAddsToItsOwnAddress :=
  fun rd u s => ⟨decode_encodeU_auipc rd u, _, rfl, add_valueU_eq_ofNat s.pc u ▸ writesRd_writeBack s rd _⟩

end Sys2Proof.Machine

/-! # Jumps and branches (45_jump_branch.md)

Both jumps complete with `linkAndJump`. Every branch is one row of the decoder's BRANCH table and one test of its two operands
that `branchIf` completes with; `BranchRule.of_row` makes its rule of the two. -/

namespace Sys2Proof

/-! ### The decoder's control-transfer opcodes (30_encoding.md R108 to R110) -/

/-- An even offset has the bit 0 that the B and J layouts leave out. -/
theorem getLsbD_zero_of_even {n : Nat} {offset : BitVec n} (h : offset.toNat % 2 = 0) : offset.getLsbD 0 = false := by
  simp [BitVec.getLsbD, Nat.testBit_zero, h]

theorem decode_of_jal {w : Word} (h : fieldOpcode w = opJal) : decode w = .instr (.jal (fieldRd w) (bitsJ w)) := by
  rw [decode, h]; rfl

theorem decode_of_jalr {w : Word} (h : fieldOpcode w = opJalr) : decode w = decodeJalr w := by
  rw [decode, h]; rfl

theorem decode_of_branch {w : Word} (h : fieldOpcode w = opBranch) : decode w = decodeBranch w := by
  rw [decode, h]; rfl

theorem decode_encodeJ (rd : RegIdx) {offset : BitVec 21} (h : offset.toNat % 2 = 0) :
    decode (encodeJ offset rd) = .instr (.jal rd offset) := by
  rw [decode_of_jal (fieldOpcode_encodeJ ..), fieldRd_encodeJ, bitsJ_encodeJ _ _ (getLsbD_zero_of_even h)]

theorem decode_encodeI_jalr (rd rs1 : RegIdx) (imm : BitVec 12) :
    decode (encodeI imm rs1 0b000#3 rd opJalr) = .instr (.jalr rd rs1 imm) := by
  rw [decode_of_jalr (fieldOpcode_encodeI ..), decodeJalr, if_pos (fieldFunct3_encodeI ..), fieldRd_encodeI,
    fieldRs1_encodeI, bitsI_encodeI]

/-- The row of the BRANCH table for `funct3` is `mk`, with its operands and its offset in the word's fields. -/
def BranchRow (funct3 : BitVec 3) (mk : RegIdx → RegIdx → BitVec 13 → Instr) : Prop :=
  ∀ w : Word, fieldFunct3 w = funct3 → decodeBranch w = .instr (mk (fieldRs1 w) (fieldRs2 w) (bitsB w))

/-- The B layout of a row's number and an even offset decodes to the row's instruction. -/
theorem BranchRow.decode_encodeB {funct3 : BitVec 3} {mk : RegIdx → RegIdx → BitVec 13 → Instr} (hrow : BranchRow funct3 mk)
    (rs1 rs2 : RegIdx) {offset : BitVec 13} (h : offset.toNat % 2 = 0) :
    decode (encodeB offset rs2 rs1 funct3) = .instr (mk rs1 rs2 offset) := by
  rw [decode_of_branch (fieldOpcode_encodeB ..), hrow _ (fieldFunct3_encodeB ..), fieldRs1_encodeB, fieldRs2_encodeB,
    bitsB_encodeB _ _ _ _ (getLsbD_zero_of_even h)]

theorem branchRow_beq : BranchRow 0b000#3 .beq := fun w h3 => by simp only [decodeBranch, h3]
theorem branchRow_bne : BranchRow 0b001#3 .bne := fun w h3 => by simp only [decodeBranch, h3]
theorem branchRow_blt : BranchRow 0b100#3 .blt := fun w h3 => by simp only [decodeBranch, h3]
theorem branchRow_bge : BranchRow 0b101#3 .bge := fun w h3 => by simp only [decodeBranch, h3]
theorem branchRow_bltu : BranchRow 0b110#3 .bltu := fun w h3 => by simp only [decodeBranch, h3]
theorem branchRow_bgeu : BranchRow 0b111#3 .bgeu := fun w h3 => by simp only [decodeBranch, h3]

end Sys2Proof

namespace Sys2Proof.Machine

/-! ### What the two completions do -/

/-- What `linkAndJump` does: the link written, the pc at the target, and nothing else. -/
theorem writesRd_linkAndJump (s : State) (rd : RegIdx) (target : Word) :
    WritesRd s ((s.setReg rd (s.pc + 4)).jump target) rd (s.pc + 4) target [] :=
  ⟨fun r => (State.x_jump _ target r).trans (State.x_setReg s rd _ r), by simp, by simp [KeepsRest]⟩

theorem writesNoReg_jump (s : State) (target : Word) : WritesNoReg s (s.jump target) target [] :=
  ⟨State.x_jump s target, State.jump_pc s target, by simp [KeepsRest]⟩

theorem branchIf_taken (offset : BitVec 13) (s : State) : branchIf true offset s = .next (s.jump (s.pc + valueB offset)) := rfl

theorem branchIf_notTaken (offset : BitVec 13) (s : State) : branchIf false offset s = .next (s.jump (s.pc + 4)) := rfl

/-- An instruction of the BRANCH table that completes with a test of its operands has the rule of the condition it decides. -/
theorem BranchRule.of_row {funct3 : BitVec 3} {mk : RegIdx → RegIdx → BitVec 13 → Instr} {cond : Word → Word → Prop}
    (test : Word → Word → Bool) (hrow : BranchRow funct3 mk)
    (hexec : ∀ rs1 rs2 offset s, exec (mk rs1 rs2 offset) s = branchIf (test (s.x rs1) (s.x rs2)) offset s)
    (htest : ∀ a b, test a b = true ↔ cond a b) : BranchRule funct3 mk cond := by
  intro rs1 rs2 offset s
  refine ⟨hrow.decode_encodeB rs1 rs2, ?_⟩
  rw [hexec, ← htest, addr_eq]
  cases test (s.x rs1) (s.x rs2) with
  | true => exact ⟨_, branchIf_taken offset s, fun _ => writesNoReg_jump s _, fun h => absurd rfl h⟩
  | false => exact ⟨_, branchIf_notTaken offset s, fun h => absurd h (by decide), fun _ => writesNoReg_jump s _⟩

/-! ### The tests decide the conditions -/

theorem lessSigned_iff (a b : Word) : lessSigned a b = true ↔ a.toInt < b.toInt := decide_eq_true_iff

theorem lessUnsigned_iff (a b : Word) : lessUnsigned a b = true ↔ a.toNat < b.toNat := decide_eq_true_iff

/-- `bge` is the exact complement of `blt` (R238). -/
theorem not_lessSigned_iff (a b : Word) : (!lessSigned a b) = true ↔ a.toInt ≥ b.toInt := by
  rw [Bool.not_eq_true', ← Bool.not_eq_true, lessSigned_iff, not_lt]

/-- `bgeu` is the exact complement of `bltu` (R240). -/
theorem not_lessUnsigned_iff (a b : Word) : (!lessUnsigned a b) = true ↔ a.toNat ≥ b.toNat := by
  rw [Bool.not_eq_true', ← Bool.not_eq_true, lessUnsigned_iff, not_lt]

/-! ### The target of `jalr` -/

/-- Clearing bit 0 subtracts the remainder modulo 2 (R232). -/
theorem jalrTarget_eq_sub_mod (s : State) (rs1 : RegIdx) (imm : BitVec 12) {sum : Word}
    (hsum : sum = BitVec.ofInt 32 ((s.x rs1).toNat + imm.toInt)) :
    jalrTarget s rs1 imm = BitVec.ofNat 32 (sum.toNat - sum.toNat % 2) := by
  have hround : sum.toNat / 2 * 2 = sum.toNat - sum.toNat % 2 := by omega
  rw [jalrTarget_eq, ← hsum, hround]

/-! ### The rules -/

/-- Settles O31: `linkAndJump` to the pc before the step plus the offset (`addr_eq`). -/
theorem jalLinksAndJumps : Obligations.JalLinksAndJumps :=
  fun rd offset s => ⟨decode_encodeJ rd, _, rfl, addr_eq s.pc offset ▸ writesRd_linkAndJump s rd _⟩

/-- Settles O32: `linkAndJump` to the target computed in the state before the link (`jalrTarget_eq_sub_mod`). -/
theorem jalrClearsBitZeroAndLinks : Obligations.JalrClearsBitZeroAndLinks :=
  fun rd rs1 imm s _ hsum =>
    ⟨decode_encodeI_jalr rd rs1 imm, _, rfl, jalrTarget_eq_sub_mod s rs1 imm hsum ▸ writesRd_linkAndJump s rd _⟩

/-- Settles O33: each branch is its row of the BRANCH table and a test that decides its condition. -/
theorem branchesCompareAndSelect : Obligations.BranchesCompareAndSelect :=
  ⟨.of_row (fun a b => decide (a = b)) branchRow_beq (fun _ _ _ _ => rfl) fun _ _ => decide_eq_true_iff,
    .of_row (fun a b => decide (a ≠ b)) branchRow_bne (fun _ _ _ _ => rfl) fun _ _ => decide_eq_true_iff,
    .of_row lessSigned branchRow_blt (fun _ _ _ _ => rfl) lessSigned_iff,
    .of_row (fun a b => !lessSigned a b) branchRow_bge (fun _ _ _ _ => rfl) not_lessSigned_iff,
    .of_row lessUnsigned branchRow_bltu (fun _ _ _ _ => rfl) lessUnsigned_iff,
    .of_row (fun a b => !lessUnsigned a b) branchRow_bgeu (fun _ _ _ _ => rfl) not_lessUnsigned_iff⟩

end Sys2Proof.Machine

/-! # Diagnostics and unknown services (46_system.md R255, R258)

A diagnostic event completes with one record and the pc advanced; an unknown service is one such event. -/

namespace Sys2Proof.Machine

/-- What a diagnostic does before the pc advances: one record, and nothing else. -/
theorem writesNoReg_diag_advance (s : State) (kind : DiagKind) (value : Word) :
    WritesNoReg s (s.diag kind value).advance (s.pc + 4) [.diag { kind := kind, pc := s.pc, value := value }] :=
  ⟨fun r => (State.x_advance _ r).trans (State.x_diag s kind value r), by simp, by simp [KeepsRest]⟩

/-- `ecall` completes in every state, with the service and the pc advanced (R250, R260). -/
theorem exec_ecall (s : State) : exec .ecall s = .next (service s).advance := rfl

theorem exec_ecall_unknown {s : State} (h1 : s.x 17 ≠ 1) (h2 : s.x 17 ≠ 2) (h3 : s.x 17 ≠ 3) (h93 : s.x 17 ≠ 93) :
    exec .ecall s = .next (s.diag .unrecognisedSyscall (s.x 17)).advance := by
  rw [exec_ecall, service_unknown h1 h2 h3 h93, regA7]

/-- Settles O38: an unknown service is one diagnostic (`exec_ecall_unknown`), which changes nothing but the record and
the pc (`writesNoReg_diag_advance`). -/
theorem unknownServiceIsReportedOnly : Obligations.UnknownServiceIsReportedOnly := by
  intro s h1 h2 h3 h93
  refine ⟨_, _, exec_ecall_unknown h1 h2 h3 h93, rfl, writesNoReg_diag_advance s _ _, ?_, ?_⟩
  · rw [State.diagLog_advance, State.diagLog_diag]
  · rw [State.out_advance, State.out_diag]

end Sys2Proof.Machine

/-! # Decoder and encoder are inverse (30_encoding.md sections 3, 4, 6 and 7)

The rows of the decoder's tables, completed for the opcodes that no earlier part needed, give the decoding of every encoded
instruction. The other way round, each table is inverted once: what it recognises is the encoding of its answer. Format,
immediate and opcode table are then read off the encoding. -/

namespace Sys2Proof

/-! ### The rows still missing: signed division, LOAD, STORE, SYSTEM (30_encoding.md R103, R106, R107, R111) -/

theorem opRow_div : OpRow 0b0000001#7 0b100#3 .div := fun w h7 h3 => by simp only [decodeOp_of_m h7, decodeOpM, h3]
theorem opRow_rem : OpRow 0b0000001#7 0b110#3 .rem := fun w h7 h3 => by simp only [decodeOp_of_m h7, decodeOpM, h3]

theorem decode_of_op {w : Word} (h : fieldOpcode w = opOp) : decode w = decodeOp w := if_pos h

theorem decode_of_load {w : Word} (h : fieldOpcode w = opLoad) : decode w = decodeLoad w := by
  rw [decode, h]; rfl

theorem decode_of_store {w : Word} (h : fieldOpcode w = opStore) : decode w = decodeStore w := by
  rw [decode, h]; rfl

theorem decode_of_system {w : Word} (h : fieldOpcode w = opSystem) : decode w = decodeSystem w := by
  rw [decode, h]; rfl

/-- The row of the LOAD table for `funct3` is `mk`, with its operands in the word's fields. -/
def LoadRow (funct3 : BitVec 3) (mk : RegIdx → RegIdx → BitVec 12 → Instr) : Prop :=
  ∀ w : Word, fieldFunct3 w = funct3 → decodeLoad w = .instr (mk (fieldRd w) (fieldRs1 w) (bitsI w))

/-- The row of the STORE table for `funct3` is `mk`, with its operands in the word's fields. -/
def StoreRow (funct3 : BitVec 3) (mk : RegIdx → RegIdx → BitVec 12 → Instr) : Prop :=
  ∀ w : Word, fieldFunct3 w = funct3 → decodeStore w = .instr (mk (fieldRs2 w) (fieldRs1 w) (bitsS w))

/-- The I layout of a row's number decodes to the row's instruction. -/
theorem LoadRow.decode_encodeI {funct3 : BitVec 3} {mk : RegIdx → RegIdx → BitVec 12 → Instr} (h : LoadRow funct3 mk)
    (rd rs1 : RegIdx) (imm : BitVec 12) : decode (encodeI imm rs1 funct3 rd opLoad) = .instr (mk rd rs1 imm) := by
  rw [decode_of_load (fieldOpcode_encodeI ..), h _ (fieldFunct3_encodeI ..), fieldRd_encodeI, fieldRs1_encodeI,
    bitsI_encodeI]

/-- The S layout of a row's number decodes to the row's instruction. -/
theorem StoreRow.decode_encodeS {funct3 : BitVec 3} {mk : RegIdx → RegIdx → BitVec 12 → Instr} (h : StoreRow funct3 mk)
    (rs2 rs1 : RegIdx) (imm : BitVec 12) : decode (encodeS imm rs2 rs1 funct3) = .instr (mk rs2 rs1 imm) := by
  rw [decode_of_store (fieldOpcode_encodeS ..), h _ (fieldFunct3_encodeS ..), fieldRs2_encodeS, fieldRs1_encodeS,
    bitsS_encodeS]

theorem loadRow_lb : LoadRow 0b000#3 .lb := fun w h3 => by simp only [decodeLoad, h3]
theorem loadRow_lh : LoadRow 0b001#3 .lh := fun w h3 => by simp only [decodeLoad, h3]
theorem loadRow_lw : LoadRow 0b010#3 .lw := fun w h3 => by simp only [decodeLoad, h3]
theorem loadRow_lbu : LoadRow 0b100#3 .lbu := fun w h3 => by simp only [decodeLoad, h3]
theorem loadRow_lhu : LoadRow 0b101#3 .lhu := fun w h3 => by simp only [decodeLoad, h3]
theorem storeRow_sb : StoreRow 0b000#3 .sb := fun w h3 => by simp only [decodeStore, h3]
theorem storeRow_sh : StoreRow 0b001#3 .sh := fun w h3 => by simp only [decodeStore, h3]
theorem storeRow_sw : StoreRow 0b010#3 .sw := fun w h3 => by simp only [decodeStore, h3]

/-! ### Every encoded instruction decodes back -/

/-- What `wellFormed` asks of a B or J offset: it is even. -/
theorem even_of_not_getLsbD_zero {n : Nat} {offset : BitVec n} (h : (!offset.getLsbD 0) = true) : offset.toNat % 2 = 0 := by
  simpa [BitVec.getLsbD, Nat.testBit_zero] using h

/-- Settles O1: each instruction is one row of one table, and the row's layout decodes to the row's instruction. -/
theorem encodedInstructionDecodesBack : Obligations.EncodedInstructionDecodesBack := by
  intro i hwf
  cases i with
  | add rd rs1 rs2 => exact opRow_add.decode_encodeR rd rs1 rs2
  | sub rd rs1 rs2 => exact opRow_sub.decode_encodeR rd rs1 rs2
  | sll rd rs1 rs2 => exact opRow_sll.decode_encodeR rd rs1 rs2
  | slt rd rs1 rs2 => exact opRow_slt.decode_encodeR rd rs1 rs2
  | sltu rd rs1 rs2 => exact opRow_sltu.decode_encodeR rd rs1 rs2
  | xor rd rs1 rs2 => exact opRow_xor.decode_encodeR rd rs1 rs2
  | srl rd rs1 rs2 => exact opRow_srl.decode_encodeR rd rs1 rs2
  | sra rd rs1 rs2 => exact opRow_sra.decode_encodeR rd rs1 rs2
  | or rd rs1 rs2 => exact opRow_or.decode_encodeR rd rs1 rs2
  | and rd rs1 rs2 => exact opRow_and.decode_encodeR rd rs1 rs2
  | mul rd rs1 rs2 => exact opRow_mul.decode_encodeR rd rs1 rs2
  | mulh rd rs1 rs2 => exact opRow_mulh.decode_encodeR rd rs1 rs2
  | mulhsu rd rs1 rs2 => exact opRow_mulhsu.decode_encodeR rd rs1 rs2
  | mulhu rd rs1 rs2 => exact opRow_mulhu.decode_encodeR rd rs1 rs2
  | div rd rs1 rs2 => exact opRow_div.decode_encodeR rd rs1 rs2
  | divu rd rs1 rs2 => exact opRow_divu.decode_encodeR rd rs1 rs2
  | rem rd rs1 rs2 => exact opRow_rem.decode_encodeR rd rs1 rs2
  | remu rd rs1 rs2 => exact opRow_remu.decode_encodeR rd rs1 rs2
  | addi rd rs1 imm => exact opImmRow_addi.decode_encodeI rd rs1 imm
  | slti rd rs1 imm => exact opImmRow_slti.decode_encodeI rd rs1 imm
  | sltiu rd rs1 imm => exact opImmRow_sltiu.decode_encodeI rd rs1 imm
  | xori rd rs1 imm => exact opImmRow_xori.decode_encodeI rd rs1 imm
  | ori rd rs1 imm => exact opImmRow_ori.decode_encodeI rd rs1 imm
  | andi rd rs1 imm => exact opImmRow_andi.decode_encodeI rd rs1 imm
  | slli rd rs1 shamt => exact opImmShiftRow_slli.decode_encodeShift rd rs1 shamt
  | srli rd rs1 shamt => exact opImmShiftRow_srli.decode_encodeShift rd rs1 shamt
  | srai rd rs1 shamt => exact opImmShiftRow_srai.decode_encodeShift rd rs1 shamt
  | lb rd rs1 imm => exact loadRow_lb.decode_encodeI rd rs1 imm
  | lh rd rs1 imm => exact loadRow_lh.decode_encodeI rd rs1 imm
  | lw rd rs1 imm => exact loadRow_lw.decode_encodeI rd rs1 imm
  | lbu rd rs1 imm => exact loadRow_lbu.decode_encodeI rd rs1 imm
  | lhu rd rs1 imm => exact loadRow_lhu.decode_encodeI rd rs1 imm
  | sb rs2 rs1 imm => exact storeRow_sb.decode_encodeS rs2 rs1 imm
  | sh rs2 rs1 imm => exact storeRow_sh.decode_encodeS rs2 rs1 imm
  | sw rs2 rs1 imm => exact storeRow_sw.decode_encodeS rs2 rs1 imm
  | lui rd u => exact decode_encodeU_lui rd u
  | auipc rd u => exact decode_encodeU_auipc rd u
  | jal rd offset => exact decode_encodeJ rd (even_of_not_getLsbD_zero hwf)
  | jalr rd rs1 imm => exact decode_encodeI_jalr rd rs1 imm
  | beq rs1 rs2 offset => exact branchRow_beq.decode_encodeB rs1 rs2 (even_of_not_getLsbD_zero hwf)
  | bne rs1 rs2 offset => exact branchRow_bne.decode_encodeB rs1 rs2 (even_of_not_getLsbD_zero hwf)
  | blt rs1 rs2 offset => exact branchRow_blt.decode_encodeB rs1 rs2 (even_of_not_getLsbD_zero hwf)
  | bge rs1 rs2 offset => exact branchRow_bge.decode_encodeB rs1 rs2 (even_of_not_getLsbD_zero hwf)
  | bltu rs1 rs2 offset => exact branchRow_bltu.decode_encodeB rs1 rs2 (even_of_not_getLsbD_zero hwf)
  | bgeu rs1 rs2 offset => exact branchRow_bgeu.decode_encodeB rs1 rs2 (even_of_not_getLsbD_zero hwf)
  | ecall => decide

/-! ### What a table recognises is the encoding of its answer (R86) -/

/-- `w` is the word of the well-formed `i` in every bit the decoder examines. -/
def IsWordOf (w : Word) (i : Instr) : Prop := i.wellFormed = true ∧ encode i = w &&& i.examinedBits

/-- But for `ecall`, the decoder examines the whole word (R120). -/
theorem Instr.examinedBits_cases (i : Instr) : i = .ecall ∨ i.examinedBits = BitVec.allOnes 32 := by
  cases i with
  | ecall => exact .inl rfl
  | _ => exact .inr rfl

theorem IsWordOf.of_encode_eq {w : Word} {i : Instr} (hex : i.examinedBits = BitVec.allOnes 32)
    (hwf : i.wellFormed = true) (h : encode i = w) : IsWordOf w i :=
  ⟨hwf, by rw [h, hex, BitVec.and_allOnes]⟩

section Fields
variable {w : Word} {funct7 : BitVec 7} {funct3 : BitVec 3} {opcode : BitVec 7}

theorem encodeR_of_fields (hop : fieldOpcode w = opcode) (h7 : fieldFunct7 w = funct7) (h3 : fieldFunct3 w = funct3) :
    encodeR funct7 (fieldRs2 w) (fieldRs1 w) funct3 (fieldRd w) opcode = w := by
  subst hop h7 h3; exact encodeR_fields w

theorem encodeI_of_fields (hop : fieldOpcode w = opcode) (h3 : fieldFunct3 w = funct3) :
    encodeI (bitsI w) (fieldRs1 w) funct3 (fieldRd w) opcode = w := by
  subst hop h3; exact encodeI_fields w

theorem encodeShift_of_fields (hop : fieldOpcode w = opOpImm) (h7 : fieldFunct7 w = funct7) (h3 : fieldFunct3 w = funct3) :
    encodeShift funct7 (bitsShamt w) (fieldRs1 w) funct3 (fieldRd w) = w := by
  subst h7 h3; exact encodeShift_fields w hop

theorem encodeS_of_fields (hop : fieldOpcode w = opStore) (h3 : fieldFunct3 w = funct3) :
    encodeS (bitsS w) (fieldRs2 w) (fieldRs1 w) funct3 = w := by
  subst h3; exact encodeS_fields w hop

theorem encodeB_of_fields (hop : fieldOpcode w = opBranch) (h3 : fieldFunct3 w = funct3) :
    encodeB (bitsB w) (fieldRs2 w) (fieldRs1 w) funct3 = w := by
  subst h3; exact encodeB_fields w hop

theorem encodeU_of_fields (hop : fieldOpcode w = opcode) : encodeU (bitsU w) (fieldRd w) opcode = w := by
  subst hop; exact encodeU_fields w

end Fields

section Inversion
variable {w : Word} {i : Instr}

theorem isWordOf_of_decodeOpBase (hop : fieldOpcode w = opOp) (h7 : fieldFunct7 w = 0b0000000#7)
    (h : decodeOpBase w = .instr i) : IsWordOf w i := by
  unfold decodeOpBase at h
  split at h <;> cases h
  all_goals exact .of_encode_eq rfl rfl (encodeR_of_fields hop h7 ‹_›)

theorem isWordOf_of_decodeOpAlt (hop : fieldOpcode w = opOp) (h7 : fieldFunct7 w = 0b0100000#7)
    (h : decodeOpAlt w = .instr i) : IsWordOf w i := by
  unfold decodeOpAlt at h
  split at h <;> cases h
  all_goals exact .of_encode_eq rfl rfl (encodeR_of_fields hop h7 ‹_›)

theorem isWordOf_of_decodeOpM (hop : fieldOpcode w = opOp) (h7 : fieldFunct7 w = 0b0000001#7)
    (h : decodeOpM w = .instr i) : IsWordOf w i := by
  unfold decodeOpM at h
  split at h <;> cases h
  all_goals exact .of_encode_eq rfl rfl (encodeR_of_fields hop h7 ‹_›)

theorem isWordOf_of_decodeOp (hop : fieldOpcode w = opOp) (h : decodeOp w = .instr i) : IsWordOf w i := by
  unfold decodeOp at h
  split_ifs at h with hbase halt hm
  · exact isWordOf_of_decodeOpBase hop hbase h
  · exact isWordOf_of_decodeOpAlt hop halt h
  · exact isWordOf_of_decodeOpM hop hm h

theorem isWordOf_of_decodeOpImm (hop : fieldOpcode w = opOpImm) (h : decodeOpImm w = .instr i) : IsWordOf w i := by
  unfold decodeOpImm at h
  split at h
  case h_7 h3 =>
    split_ifs at h with h7
    cases h
    exact .of_encode_eq rfl rfl (encodeShift_of_fields hop h7 h3)
  case h_8 h3 =>
    split_ifs at h with h7 h7
    all_goals
      cases h
      exact .of_encode_eq rfl rfl (encodeShift_of_fields hop h7 h3)
  all_goals
    cases h
  all_goals
    exact .of_encode_eq rfl rfl (encodeI_of_fields hop ‹_›)

theorem isWordOf_of_decodeLoad (hop : fieldOpcode w = opLoad) (h : decodeLoad w = .instr i) : IsWordOf w i := by
  unfold decodeLoad at h
  split at h <;> cases h
  all_goals exact .of_encode_eq rfl rfl (encodeI_of_fields hop ‹_›)

theorem isWordOf_of_decodeStore (hop : fieldOpcode w = opStore) (h : decodeStore w = .instr i) : IsWordOf w i := by
  unfold decodeStore at h
  split at h <;> cases h
  all_goals exact .of_encode_eq rfl rfl (encodeS_of_fields hop ‹_›)

theorem isWordOf_of_decodeBranch (hop : fieldOpcode w = opBranch) (h : decodeBranch w = .instr i) : IsWordOf w i := by
  have heven : (!(bitsB w).getLsbD 0) = true := by rw [bitsB_even]; rfl
  unfold decodeBranch at h
  split at h <;> cases h
  all_goals exact .of_encode_eq rfl heven (encodeB_of_fields hop ‹_›)

theorem isWordOf_of_decodeJalr (hop : fieldOpcode w = opJalr) (h : decodeJalr w = .instr i) : IsWordOf w i := by
  unfold decodeJalr at h
  split_ifs at h with h3
  cases h
  exact .of_encode_eq rfl rfl (encodeI_of_fields hop h3)

/-- Masking with `ecall`'s examined bits clears `rd` and `rs1` and nothing else (R120). -/
theorem encodeI_and_examinedBits (imm : BitVec 12) (rs1 : RegIdx) (funct3 : BitVec 3) (rd : RegIdx) (opcode : BitVec 7) :
    encodeI imm rs1 funct3 rd opcode &&& Instr.ecall.examinedBits = encodeI imm 0#5 funct3 0#5 opcode := by
  have hfields : (imm ++ rs1 ++ funct3 ++ rd ++ opcode) &&&
      (BitVec.allOnes 12 ++ 0#5 ++ BitVec.allOnes 3 ++ 0#5 ++ BitVec.allOnes 7) = imm ++ 0#5 ++ funct3 ++ 0#5 ++ opcode := by
    simp only [BitVec.and_append, BitVec.and_allOnes, BitVec.and_zero]
  exact hfields

theorem isWordOf_of_decodeSystem (hop : fieldOpcode w = opSystem) (h : decodeSystem w = .instr i) : IsWordOf w i := by
  unfold decodeSystem at h
  split_ifs at h with hf
  obtain ⟨h3, h12⟩ := hf
  cases h
  refine ⟨rfl, ?_⟩
  rw [← encodeI_of_fields (w := w) hop h3, show bitsI w = 0b000000000000#12 from h12, encodeI_and_examinedBits]
  rfl

/-- The decoder inverted: opcode by opcode, the table's own inversion. -/
theorem isWordOf_of_decode (h : decode w = .instr i) : IsWordOf w i := by
  by_cases hop : fieldOpcode w = opOp
  · exact isWordOf_of_decodeOp hop (decode_of_op hop ▸ h)
  by_cases himm : fieldOpcode w = opOpImm
  · exact isWordOf_of_decodeOpImm himm (decode_of_opImm himm ▸ h)
  by_cases hload : fieldOpcode w = opLoad
  · exact isWordOf_of_decodeLoad hload (decode_of_load hload ▸ h)
  by_cases hstore : fieldOpcode w = opStore
  · exact isWordOf_of_decodeStore hstore (decode_of_store hstore ▸ h)
  by_cases hbranch : fieldOpcode w = opBranch
  · exact isWordOf_of_decodeBranch hbranch (decode_of_branch hbranch ▸ h)
  by_cases hlui : fieldOpcode w = opLui
  · cases (decode_of_lui hlui).symm.trans h
    exact .of_encode_eq rfl rfl (encodeU_of_fields hlui)
  by_cases hauipc : fieldOpcode w = opAuipc
  · cases (decode_of_auipc hauipc).symm.trans h
    exact .of_encode_eq rfl rfl (encodeU_of_fields hauipc)
  by_cases hjal : fieldOpcode w = opJal
  · cases (decode_of_jal hjal).symm.trans h
    exact .of_encode_eq rfl (by rw [Instr.wellFormed, bitsJ_even]; rfl) (encodeJ_fields w hjal)
  by_cases hjalr : fieldOpcode w = opJalr
  · exact isWordOf_of_decodeJalr hjalr (decode_of_jalr hjalr ▸ h)
  by_cases hsystem : fieldOpcode w = opSystem
  · exact isWordOf_of_decodeSystem hsystem (decode_of_system hsystem ▸ h)
  rw [decode, if_neg hop, if_neg himm, if_neg hload, if_neg hstore, if_neg hbranch, if_neg hlui, if_neg hauipc,
    if_neg hjal, if_neg hjalr, if_neg hsystem] at h
  cases h

end Inversion

/-- Settles O2: the decoder inverted (`isWordOf_of_decode`). -/
theorem decodedWordEncodesBack : Obligations.DecodedWordEncodesBack := fun _ _ h => isWordOf_of_decode h

/-! ### The opcode table (30_encoding.md section 6) -/

theorem row_mem_opcodeRows (i : Instr) : i.row ∈ opcodeRows := by
  cases i <;> (simp only [Instr.row]; decide)

/-- The word of an instruction has its row's fixed bits, by the mask of its layout. -/
theorem encode_and_mask (i : Instr) : encode i &&& i.row.mask = i.row.pattern := by
  cases i with
  | add _ _ _ | sub _ _ _ | sll _ _ _ | slt _ _ _ | sltu _ _ _ | xor _ _ _ | srl _ _ _ | sra _ _ _ | or _ _ _
  | and _ _ _ | mul _ _ _ | mulh _ _ _ | mulhsu _ _ _ | mulhu _ _ _ | div _ _ _ | divu _ _ _ | rem _ _ _ | remu _ _ _ =>
    exact (Laws.EncodesItsRow.maskR ..).trans rfl
  | slli _ _ _ | srli _ _ _ | srai _ _ _ => exact (Laws.EncodesItsRow.maskShift ..).trans rfl
  | sb _ _ _ | sh _ _ _ | sw _ _ _ => exact (Laws.EncodesItsRow.maskS ..).trans rfl
  | lui _ _ | auipc _ _ => exact (Laws.EncodesItsRow.maskU ..).trans rfl
  | jal _ _ => exact (Laws.EncodesItsRow.maskJ ..).trans rfl
  | beq _ _ _ | bne _ _ _ | blt _ _ _ | bge _ _ _ | bltu _ _ _ | bgeu _ _ _ =>
    exact (Laws.EncodesItsRow.maskB ..).trans rfl
  | ecall => rfl
  | _ => exact (Laws.EncodesItsRow.maskI ..).trans rfl

/-- A row fixes only bits that the decoder examines. -/
theorem examinedBits_and_mask (i : Instr) : i.examinedBits &&& i.row.mask = i.row.mask := by
  rcases i.examinedBits_cases with rfl | h
  · rfl
  · rw [h, BitVec.allOnes_and]

/-- A recognised word has the fixed bits of its instruction's row. -/
theorem and_mask_of_decode {w : Word} {i : Instr} (h : decode w = .instr i) : w &&& i.row.mask = i.row.pattern := by
  obtain ⟨-, henc⟩ := isWordOf_of_decode h
  calc w &&& i.row.mask = (w &&& i.examinedBits) &&& i.row.mask := by rw [BitVec.and_assoc, examinedBits_and_mask]
    _ = i.row.pattern := by rw [← henc, encode_and_mask]

section Masks
variable {w : Word} {funct7 : BitVec 7} {funct3 : BitVec 3}

/-- A field that a mask covers is the pattern's. -/
theorem extractLsb'_of_and_eq {mask pattern : Word} {start len : Nat} (h : w &&& mask = pattern)
    (hmask : mask.extractLsb' start len = BitVec.allOnes len) :
    w.extractLsb' start len = pattern.extractLsb' start len := by
  rw [← h, BitVec.extractLsb'_and, hmask, BitVec.and_allOnes]

theorem fieldOpcode_of_and_eq {mask pattern : Word} (h : w &&& mask = pattern)
    (hmask : fieldOpcode mask = BitVec.allOnes 7) : fieldOpcode w = fieldOpcode pattern := extractLsb'_of_and_eq h hmask

theorem fieldFunct3_of_and_eq {mask pattern : Word} (h : w &&& mask = pattern)
    (hmask : fieldFunct3 mask = BitVec.allOnes 3) : fieldFunct3 w = fieldFunct3 pattern := extractLsb'_of_and_eq h hmask

theorem fieldFunct7_of_and_eq {mask pattern : Word} (h : w &&& mask = pattern)
    (hmask : fieldFunct7 mask = BitVec.allOnes 7) : fieldFunct7 w = fieldFunct7 pattern := extractLsb'_of_and_eq h hmask

theorem fieldFunct12_of_and_eq {mask pattern : Word} (h : w &&& mask = pattern)
    (hmask : fieldFunct12 mask = BitVec.allOnes 12) : fieldFunct12 w = fieldFunct12 pattern :=
  extractLsb'_of_and_eq h hmask

/-- A word with the fixed bits of a row of the OP table decodes to the row's instruction. -/
theorem OpRow.decode_of_and_mask {mk : RegIdx → RegIdx → RegIdx → Instr} (hrow : OpRow funct7 funct3 mk)
    (h : w &&& 0xFE00707F#32 = encodeR funct7 0#5 0#5 funct3 0#5 opOp) :
    decode w = .instr (mk (fieldRd w) (fieldRs1 w) (fieldRs2 w)) :=
  (decode_of_op ((fieldOpcode_of_and_eq h rfl).trans (fieldOpcode_encodeR ..))).trans
    (hrow w ((fieldFunct7_of_and_eq h rfl).trans (fieldFunct7_encodeR ..))
      ((fieldFunct3_of_and_eq h rfl).trans (fieldFunct3_encodeR ..)))

/-- The same for a row of the OP-IMM table. -/
theorem OpImmRow.decode_of_and_mask {mk : RegIdx → RegIdx → BitVec 12 → Instr} (hrow : OpImmRow funct3 mk)
    (h : w &&& 0x0000707F#32 = encodeI 0#12 0#5 funct3 0#5 opOpImm) :
    decode w = .instr (mk (fieldRd w) (fieldRs1 w) (bitsI w)) :=
  (decode_of_opImm ((fieldOpcode_of_and_eq h rfl).trans (fieldOpcode_encodeI ..))).trans
    (hrow w ((fieldFunct3_of_and_eq h rfl).trans (fieldFunct3_encodeI ..)))

/-- The same for a shift of the OP-IMM table. -/
theorem OpImmShiftRow.decode_of_and_mask {mk : RegIdx → RegIdx → BitVec 5 → Instr} (hrow : OpImmShiftRow funct7 funct3 mk)
    (h : w &&& 0xFE00707F#32 = encodeShift funct7 0#5 0#5 funct3 0#5) :
    decode w = .instr (mk (fieldRd w) (fieldRs1 w) (bitsShamt w)) :=
  (decode_of_opImm ((fieldOpcode_of_and_eq h rfl).trans (fieldOpcode_encodeShift ..))).trans
    (hrow w ((fieldFunct7_of_and_eq h rfl).trans (fieldFunct7_encodeShift ..))
      ((fieldFunct3_of_and_eq h rfl).trans (fieldFunct3_encodeShift ..)))

/-- The same for a row of the LOAD table. -/
theorem LoadRow.decode_of_and_mask {mk : RegIdx → RegIdx → BitVec 12 → Instr} (hrow : LoadRow funct3 mk)
    (h : w &&& 0x0000707F#32 = encodeI 0#12 0#5 funct3 0#5 opLoad) :
    decode w = .instr (mk (fieldRd w) (fieldRs1 w) (bitsI w)) :=
  (decode_of_load ((fieldOpcode_of_and_eq h rfl).trans (fieldOpcode_encodeI ..))).trans
    (hrow w ((fieldFunct3_of_and_eq h rfl).trans (fieldFunct3_encodeI ..)))

/-- The same for a row of the STORE table. -/
theorem StoreRow.decode_of_and_mask {mk : RegIdx → RegIdx → BitVec 12 → Instr} (hrow : StoreRow funct3 mk)
    (h : w &&& 0x0000707F#32 = encodeS 0#12 0#5 0#5 funct3) :
    decode w = .instr (mk (fieldRs2 w) (fieldRs1 w) (bitsS w)) :=
  (decode_of_store ((fieldOpcode_of_and_eq h rfl).trans (fieldOpcode_encodeS ..))).trans
    (hrow w ((fieldFunct3_of_and_eq h rfl).trans (fieldFunct3_encodeS ..)))

/-- The same for a row of the BRANCH table. -/
theorem BranchRow.decode_of_and_mask {mk : RegIdx → RegIdx → BitVec 13 → Instr} (hrow : BranchRow funct3 mk)
    (h : w &&& 0x0000707F#32 = encodeB 0#13 0#5 0#5 funct3) :
    decode w = .instr (mk (fieldRs1 w) (fieldRs2 w) (bitsB w)) :=
  (decode_of_branch ((fieldOpcode_of_and_eq h rfl).trans (fieldOpcode_encodeB ..))).trans
    (hrow w ((fieldFunct3_of_and_eq h rfl).trans (fieldFunct3_encodeB ..)))

theorem decode_jalr_of_and_mask (h : w &&& 0x0000707F#32 = encodeI 0#12 0#5 0b000#3 0#5 opJalr) :
    decode w = .instr (.jalr (fieldRd w) (fieldRs1 w) (bitsI w)) :=
  (decode_of_jalr ((fieldOpcode_of_and_eq h rfl).trans (fieldOpcode_encodeI ..))).trans
    (if_pos ((fieldFunct3_of_and_eq h rfl).trans (fieldFunct3_encodeI ..)))

theorem decode_ecall_of_and_mask (h : w &&& 0xFFF0707F#32 = encodeI 0#12 0#5 0b000#3 0#5 opSystem) :
    decode w = .instr .ecall :=
  (decode_of_system ((fieldOpcode_of_and_eq h rfl).trans (fieldOpcode_encodeI ..))).trans
    (if_pos ⟨(fieldFunct3_of_and_eq h rfl).trans (fieldFunct3_encodeI ..),
      (fieldFunct12_of_and_eq h rfl).trans (fieldFunct12_encodeI ..)⟩)

end Masks

/-- A word with the fixed bits of an instruction's row decodes to that instruction with the word's own operands. -/
theorem decode_of_and_mask {w : Word} {j : Instr} (h : w &&& j.row.mask = j.row.pattern) :
    ∃ i, decode w = .instr i ∧ i.row = j.row := by
  cases j with
  | add _ _ _ => exact ⟨_, opRow_add.decode_of_and_mask h, rfl⟩
  | sub _ _ _ => exact ⟨_, opRow_sub.decode_of_and_mask h, rfl⟩
  | sll _ _ _ => exact ⟨_, opRow_sll.decode_of_and_mask h, rfl⟩
  | slt _ _ _ => exact ⟨_, opRow_slt.decode_of_and_mask h, rfl⟩
  | sltu _ _ _ => exact ⟨_, opRow_sltu.decode_of_and_mask h, rfl⟩
  | xor _ _ _ => exact ⟨_, opRow_xor.decode_of_and_mask h, rfl⟩
  | srl _ _ _ => exact ⟨_, opRow_srl.decode_of_and_mask h, rfl⟩
  | sra _ _ _ => exact ⟨_, opRow_sra.decode_of_and_mask h, rfl⟩
  | or _ _ _ => exact ⟨_, opRow_or.decode_of_and_mask h, rfl⟩
  | and _ _ _ => exact ⟨_, opRow_and.decode_of_and_mask h, rfl⟩
  | mul _ _ _ => exact ⟨_, opRow_mul.decode_of_and_mask h, rfl⟩
  | mulh _ _ _ => exact ⟨_, opRow_mulh.decode_of_and_mask h, rfl⟩
  | mulhsu _ _ _ => exact ⟨_, opRow_mulhsu.decode_of_and_mask h, rfl⟩
  | mulhu _ _ _ => exact ⟨_, opRow_mulhu.decode_of_and_mask h, rfl⟩
  | div _ _ _ => exact ⟨_, opRow_div.decode_of_and_mask h, rfl⟩
  | divu _ _ _ => exact ⟨_, opRow_divu.decode_of_and_mask h, rfl⟩
  | rem _ _ _ => exact ⟨_, opRow_rem.decode_of_and_mask h, rfl⟩
  | remu _ _ _ => exact ⟨_, opRow_remu.decode_of_and_mask h, rfl⟩
  | addi _ _ _ => exact ⟨_, opImmRow_addi.decode_of_and_mask h, rfl⟩
  | slti _ _ _ => exact ⟨_, opImmRow_slti.decode_of_and_mask h, rfl⟩
  | sltiu _ _ _ => exact ⟨_, opImmRow_sltiu.decode_of_and_mask h, rfl⟩
  | xori _ _ _ => exact ⟨_, opImmRow_xori.decode_of_and_mask h, rfl⟩
  | ori _ _ _ => exact ⟨_, opImmRow_ori.decode_of_and_mask h, rfl⟩
  | andi _ _ _ => exact ⟨_, opImmRow_andi.decode_of_and_mask h, rfl⟩
  | slli _ _ _ => exact ⟨_, opImmShiftRow_slli.decode_of_and_mask h, rfl⟩
  | srli _ _ _ => exact ⟨_, opImmShiftRow_srli.decode_of_and_mask h, rfl⟩
  | srai _ _ _ => exact ⟨_, opImmShiftRow_srai.decode_of_and_mask h, rfl⟩
  | lb _ _ _ => exact ⟨_, loadRow_lb.decode_of_and_mask h, rfl⟩
  | lh _ _ _ => exact ⟨_, loadRow_lh.decode_of_and_mask h, rfl⟩
  | lw _ _ _ => exact ⟨_, loadRow_lw.decode_of_and_mask h, rfl⟩
  | lbu _ _ _ => exact ⟨_, loadRow_lbu.decode_of_and_mask h, rfl⟩
  | lhu _ _ _ => exact ⟨_, loadRow_lhu.decode_of_and_mask h, rfl⟩
  | sb _ _ _ => exact ⟨_, storeRow_sb.decode_of_and_mask h, rfl⟩
  | sh _ _ _ => exact ⟨_, storeRow_sh.decode_of_and_mask h, rfl⟩
  | sw _ _ _ => exact ⟨_, storeRow_sw.decode_of_and_mask h, rfl⟩
  | lui _ _ => exact ⟨_, decode_of_lui (fieldOpcode_of_and_eq h rfl), rfl⟩
  | auipc _ _ => exact ⟨_, decode_of_auipc (fieldOpcode_of_and_eq h rfl), rfl⟩
  | jal _ _ => exact ⟨_, decode_of_jal (fieldOpcode_of_and_eq h rfl), rfl⟩
  | jalr _ _ _ => exact ⟨_, decode_jalr_of_and_mask h, rfl⟩
  | beq _ _ _ => exact ⟨_, branchRow_beq.decode_of_and_mask h, rfl⟩
  | bne _ _ _ => exact ⟨_, branchRow_bne.decode_of_and_mask h, rfl⟩
  | blt _ _ _ => exact ⟨_, branchRow_blt.decode_of_and_mask h, rfl⟩
  | bge _ _ _ => exact ⟨_, branchRow_bge.decode_of_and_mask h, rfl⟩
  | bltu _ _ _ => exact ⟨_, branchRow_bltu.decode_of_and_mask h, rfl⟩
  | bgeu _ _ _ => exact ⟨_, branchRow_bgeu.decode_of_and_mask h, rfl⟩
  | ecall => exact ⟨_, decode_ecall_of_and_mask h, rfl⟩

/-- The same of a row of the table. -/
theorem decode_of_mem_opcodeRows {w : Word} {row : Row} (hmem : row ∈ opcodeRows) (h : w &&& row.mask = row.pattern) :
    ∃ i, decode w = .instr i ∧ i.row = row := by
  obtain ⟨j, -, rfl⟩ := List.mem_map.1 hmem
  exact decode_of_and_mask h

/-- Settles O3: a recognised word has its row's bits (`and_mask_of_decode`), a word with a row's bits is recognised as that row's
instruction (`decode_of_mem_opcodeRows`); the last two clauses follow, since `decode` is a function. -/
theorem classificationIsTheOpcodeTable : Obligations.ClassificationIsTheOpcodeTable := by
  intro w
  refine ⟨fun i hi => ⟨row_mem_opcodeRows i, and_mask_of_decode hi⟩, fun row => decode_of_mem_opcodeRows, ⟨?_, ?_⟩, ?_⟩
  · intro hd row hrow hmask
    obtain ⟨i, hi, -⟩ := decode_of_mem_opcodeRows hrow hmask
    rw [hd] at hi
    cases hi
  · intro hno
    cases hd : decode w with
    | instr i => exact absurd (and_mask_of_decode hd) (hno _ (row_mem_opcodeRows i))
    | unrecognised => rfl
  · intro row hrow row' hrow' hmask hmask'
    obtain ⟨i, hi, rfl⟩ := decode_of_mem_opcodeRows hrow hmask
    obtain ⟨i', hi', rfl⟩ := decode_of_mem_opcodeRows hrow' hmask'
    rw [hi] at hi'
    cases hi'
    rfl

/-! ### Format and immediate (30_encoding.md sections 4 and 5) -/

/-- The opcode is among the bits examined. -/
theorem fieldOpcode_of_isWordOf {w : Word} {i : Instr} (h : IsWordOf w i) : fieldOpcode w = fieldOpcode (encode i) := by
  refine fieldOpcode_of_and_eq h.2.symm ?_
  rcases i.examinedBits_cases with rfl | hi
  · rfl
  · rw [hi]; rfl

theorem eq_encode_of_isWordOf {w : Word} {i : Instr} (h : IsWordOf w i) (hi : i.examinedBits = BitVec.allOnes 32) :
    w = encode i := by
  rw [h.2, hi, BitVec.and_allOnes]

theorem formatOf_encode (i : Instr) : formatOf (fieldOpcode (encode i)) = i.format := by
  cases i with
  | add _ _ _ | sub _ _ _ | sll _ _ _ | slt _ _ _ | sltu _ _ _ | xor _ _ _ | srl _ _ _ | sra _ _ _ | or _ _ _
  | and _ _ _ | mul _ _ _ | mulh _ _ _ | mulhsu _ _ _ | mulhu _ _ _ | div _ _ _ | divu _ _ _ | rem _ _ _ | remu _ _ _ =>
    exact congrArg formatOf (fieldOpcode_encodeR ..)
  | slli _ _ _ | srli _ _ _ | srai _ _ _ => exact congrArg formatOf (fieldOpcode_encodeShift ..)
  | sb _ _ _ | sh _ _ _ | sw _ _ _ => exact congrArg formatOf (fieldOpcode_encodeS ..)
  | lui _ _ | auipc _ _ => exact congrArg formatOf (fieldOpcode_encodeU ..)
  | jal _ _ => exact congrArg formatOf (fieldOpcode_encodeJ ..)
  | beq _ _ _ | bne _ _ _ | blt _ _ _ | bge _ _ _ | bltu _ _ _ | bgeu _ _ _ =>
    exact congrArg formatOf (fieldOpcode_encodeB ..)
  | _ => exact congrArg formatOf (fieldOpcode_encodeI ..)

theorem formatOf_of_isWordOf {w : Word} {i : Instr} (h : IsWordOf w i) : formatOf (fieldOpcode w) = i.format := by
  rw [fieldOpcode_of_isWordOf h, formatOf_encode]

/-- The I-immediate of a shift word is its `funct7` above its amount (R93). -/
theorem bitsI_encodeShift (funct7 : BitVec 7) (shamt : BitVec 5) (rs1 : RegIdx) (funct3 : BitVec 3) (rd : RegIdx) :
    bitsI (encodeShift funct7 shamt rs1 funct3 rd) = funct7 ++ shamt := by
  rw [show bitsI = fieldFunct12 from rfl, fieldFunct12_eq_append, fieldFunct7_encodeShift]
  exact congrArg (funct7 ++ ·) ((bitsShamt_eq _).symm.trans (bitsShamt_encodeShift ..))

/-- The selector bit 10 of `srai`, and no other, is above the amount (42_alu_imm.md R189). -/
theorem valueI_selector_append (shamt : BitVec 5) : valueI (0b0100000#7 ++ shamt) = BitVec.ofNat 32 (0x400 + shamt.toNat) := by
  revert shamt; decide

theorem valueI_zero_append (shamt : BitVec 5) : valueI (0b0000000#7 ++ shamt) = BitVec.ofNat 32 shamt.toNat := by
  revert shamt; decide

section Immediate
variable {w : Word}

theorem immediateOf_i (h : formatOf (fieldOpcode w) = .i) : immediateOf w = immI w := by simp only [immediateOf, h]
theorem immediateOf_s (h : formatOf (fieldOpcode w) = .s) : immediateOf w = immS w := by simp only [immediateOf, h]
theorem immediateOf_b (h : formatOf (fieldOpcode w) = .b) : immediateOf w = immB w := by simp only [immediateOf, h]
theorem immediateOf_u (h : formatOf (fieldOpcode w) = .u) : immediateOf w = immU w := by simp only [immediateOf, h]
theorem immediateOf_j (h : formatOf (fieldOpcode w) = .j) : immediateOf w = immJ w := by simp only [immediateOf, h]
theorem immediateOf_r (h : formatOf (fieldOpcode w) = .r) : immediateOf w = 0 := by simp only [immediateOf, h]
theorem immediateOf_system (h : formatOf (fieldOpcode w) = .system) : immediateOf w = 0 := by simp only [immediateOf, h]

end Immediate

/-- The immediate of the descriptor is the one the layout holds, read as the instruction's format says. -/
theorem immediateOf_of_isWordOf {w : Word} {i : Instr} (h : IsWordOf w i) : immediateOf w = i.immediate := by
  have hf := formatOf_of_isWordOf h
  cases i with
  | add _ _ _ | sub _ _ _ | sll _ _ _ | slt _ _ _ | sltu _ _ _ | xor _ _ _ | srl _ _ _ | sra _ _ _ | or _ _ _
  | and _ _ _ | mul _ _ _ | mulh _ _ _ | mulhsu _ _ _ | mulhu _ _ _ | div _ _ _ | divu _ _ _ | rem _ _ _ | remu _ _ _ =>
    exact immediateOf_r hf
  | ecall => exact immediateOf_system hf
  | slli _ _ shamt | srli _ _ shamt =>
    rw [immediateOf_i hf, eq_encode_of_isWordOf h rfl]
    exact (congrArg valueI (bitsI_encodeShift ..)).trans (valueI_zero_append shamt)
  | srai _ _ shamt =>
    rw [immediateOf_i hf, eq_encode_of_isWordOf h rfl]
    exact (congrArg valueI (bitsI_encodeShift ..)).trans (valueI_selector_append shamt)
  | sb _ _ _ | sh _ _ _ | sw _ _ _ =>
    rw [immediateOf_s hf, eq_encode_of_isWordOf h rfl]
    exact congrArg valueS (bitsS_encodeS ..)
  | lui _ u | auipc _ u =>
    rw [immediateOf_u hf, eq_encode_of_isWordOf h rfl]
    exact (congrArg valueU (bitsU_encodeU ..)).trans (valueU_eq_ofNat u)
  | jal _ _ =>
    rw [immediateOf_j hf, eq_encode_of_isWordOf h rfl]
    exact congrArg valueJ (bitsJ_encodeJ _ _ (Bool.not_eq_true' _ ▸ h.1))
  | beq _ _ _ | bne _ _ _ | blt _ _ _ | bge _ _ _ | bltu _ _ _ | bgeu _ _ _ =>
    rw [immediateOf_b hf, eq_encode_of_isWordOf h rfl]
    exact congrArg valueB (bitsB_encodeB _ _ _ _ (Bool.not_eq_true' _ ▸ h.1))
  | _ =>
    rw [immediateOf_i hf, eq_encode_of_isWordOf h rfl]
    exact congrArg valueI (bitsI_encodeI ..)

/-- Settles O9: the decoded word is its instruction's word in every bit examined, which holds the format and the immediate. -/
theorem decodedInstructionMatchesTheDescriptor : Obligations.DecodedInstructionMatchesTheDescriptor :=
  fun _ _ h => ⟨formatOf_of_isWordOf (isWordOf_of_decode h), immediateOf_of_isWordOf (isWordOf_of_decode h)⟩

/-- Settles O4: twelve closed words, each decoded. -/
theorem writtenOutWordsDecode : Obligations.WrittenOutWordsDecode := by
  unfold Obligations.WrittenOutWordsDecode
  decide

end Sys2Proof

/-! # Bit-level primitives and immediates (30_encoding.md sections 1 and 4)

In order and in range, `extract_bits` is a slice of the word; `sign_extend` reads the low bits as two's complement and keeps
them. An immediate is sign-extended from bits of the word, each known by its place there. -/

namespace Sys2Proof

/-- Settles O5: in order, the range is the slice of `extractBits_eq_extractLsb'`; both branches are symmetric in the bounds. -/
theorem extractBitsIsFloorAndRemainder : Obligations.ExtractBitsIsFloorAndRemainder := by
  intro v hi lo
  refine ⟨fun hlo hhi => ?_, ?_, fun hmax => if_neg (by omega)⟩
  · rw [extractBits_eq_extractLsb' v hlo hhi]
    refine congrArg some (BitVec.eq_of_toNat_eq ?_)
    rw [BitVec.toNat_setWidth, BitVec.extractLsb'_toNat, Nat.shiftRight_eq_div_pow, BitVec.toNat_ofNat]
  · rw [extractBits, extractBits, max_comm, min_comm]
    simp only [and_comm]

/-! ### Sign extension -/

theorem signExtendBits_eq {n : Nat} (h1 : 1 ≤ n) (h32 : n ≤ 32) (v : Word) : signExtendBits v n = some (sext n v) :=
  if_pos ⟨h1, h32⟩

/-- The low bits read as two's complement (R82). -/
theorem toInt_sext {n : Nat} (h1 : 1 ≤ n) (h32 : n ≤ 32) (v : Word) : (sext n v).toInt =
    if v.toNat % 2 ^ n < 2 ^ (n - 1) then (v.toNat % 2 ^ n : Int) else (v.toNat % 2 ^ n : Int) - 2 ^ n := by
  have hpow : 2 ^ n = 2 * 2 ^ (n - 1) := by rw [← pow_succ', Nat.sub_add_cancel h1]
  rw [sext, BitVec.toInt_signExtend_of_le h32, BitVec.toInt_eq_toNat_cond, BitVec.toNat_setWidth]
  push_cast
  congr 1
  rw [hpow]
  simp

/-- Sign extension keeps the bits it extends. -/
theorem setWidth_sext {n : Nat} (h32 : n ≤ 32) (v : Word) : (sext n v).setWidth n = v.setWidth n := by
  apply BitVec.eq_of_getLsbD_eq
  intro k hk
  have hk32 : k < 32 := by omega
  rw [BitVec.getLsbD_setWidth, sext, BitVec.getLsbD_signExtend, if_pos hk, decide_eq_true hk, decide_eq_true hk32,
    Bool.true_and, Bool.true_and]

/-- Settles O6: the value is `toInt_sext`; the low bits are kept (`setWidth_sext`), on which a second extension depends alone. -/
theorem signExtendIsTwosComplement : Obligations.SignExtendIsTwosComplement := by
  intro v n
  refine ⟨fun h1 h32 => ⟨sext n v, signExtendBits_eq h1 h32 v, toInt_sext h1 h32 v, ?_, ?_, ?_⟩, fun hn => if_neg (by omega)⟩
  · simpa only [BitVec.toNat_setWidth] using congrArg BitVec.toNat (setWidth_sext h32 v)
  · rw [signExtendBits_eq h1 h32, sext, setWidth_sext h32, sext]
  · rintro rfl
    rw [sext, BitVec.setWidth_eq, BitVec.signExtend_eq]

/-! ### The immediates bit by bit -/

/-- A sign-extended immediate bit by bit: if its own bits are `f`'s and `f` repeats the highest of them above, all are `f`'s. -/
theorem getLsbD_signExtend_word {n : Nat} {imm : BitVec (n + 1)} {f : Nat → Bool}
    (hlow : ∀ k < n + 1, imm.getLsbD k = f k) (hhigh : ∀ k, n < k → f k = f n) {k : Nat} (hk : k < 32) :
    (imm.signExtend 32).getLsbD k = f k := by
  rw [BitVec.getLsbD_signExtend, decide_eq_true hk, Bool.true_and]
  split_ifs with h
  · exact hlow k h
  · rw [BitVec.msb_eq_getLsbD_last, hhigh k (by omega), Nat.add_sub_cancel, hlow n n.lt_succ_self]

section Bits
variable (w : Word) (k : Nat)

theorem getLsbD_bitsI (hk : k < 12) : (bitsI w).getLsbD k = w.getLsbD (k + 20) := by
  simp [bitsI, hk, Nat.add_comm]

theorem getLsbD_bitsS (hk : k < 12) : (bitsS w).getLsbD k = if k < 5 then w.getLsbD (k + 7) else w.getLsbD (k + 20) := by
  interval_cases k <;> simp only [bitsS, BitVec.getLsbD_append] <;> simp

theorem getLsbD_bitsB (hk : k < 13) : (bitsB w).getLsbD k =
    if k = 0 then false else if k < 5 then w.getLsbD (k + 7) else if k < 11 then w.getLsbD (k + 20)
    else if k = 11 then w.getLsbD 7 else w.getLsbD 31 := by
  interval_cases k <;> simp only [bitsB, BitVec.getLsbD_append] <;> simp

theorem getLsbD_bitsJ (hk : k < 21) : (bitsJ w).getLsbD k =
    if k = 0 then false else if k < 11 then w.getLsbD (k + 20) else if k = 11 then w.getLsbD 20
    else if k < 20 then w.getLsbD k else w.getLsbD 31 := by
  interval_cases k <;> simp only [bitsJ, BitVec.getLsbD_append] <;> simp

theorem getLsbD_immU (hk : k < 32) : (immU w).getLsbD k = if k < 12 then false else w.getLsbD k := by
  simp only [immU, valueU, bitsU, BitVec.getLsbD_append, BitVec.getLsbD_extractLsb']
  split_ifs with h
  · simp
  · rw [Nat.add_sub_cancel' (by omega)]
    simp [show k - 12 < 20 by omega]

end Bits

/-- Settles O8: each immediate is sign-extended from its scattered bits, but for the U immediate, which stands in place. -/
theorem immediatesBitByBit : Obligations.ImmediatesBitByBit := fun w k hk =>
  ⟨getLsbD_signExtend_word (f := fun k => if k < 12 then w.getLsbD (k + 20) else w.getLsbD 31)
      (fun k h => (getLsbD_bitsI w k h).trans (if_pos h).symm) (fun k h => if_neg (by omega)) hk,
    getLsbD_signExtend_word
      (f := fun k => if k < 5 then w.getLsbD (k + 7) else if k < 12 then w.getLsbD (k + 20) else w.getLsbD 31)
      (fun k h => by rw [getLsbD_bitsS w k h, if_pos h]) (fun k h => by grind) hk,
    getLsbD_signExtend_word (getLsbD_bitsB w) (fun k h => by grind) hk,
    getLsbD_immU w k hk,
    getLsbD_signExtend_word (getLsbD_bitsJ w) (fun k h => by grind) hk⟩

end Sys2Proof

/-! # Signed division, and what quotient and remainder recombine to (41_muldiv.md R165 to R170)

Away from the two edge cases the signed quotient and remainder are Lean's `tdiv` and `tmod` of the operands' values, which
round toward zero. -/

namespace Sys2Proof.Machine

/-! ### Signed quotient and remainder -/

/-- `tdiv` and `tmod` round toward zero (R169). -/
theorem truncatedDivision_tdiv_tmod (a : Int) {b : Int} (hb : b ≠ 0) :
    TruncatedDivision a b (a.tdiv b) (a.tmod b) := by
  refine ⟨(Int.mul_tdiv_add_tmod a b).symm, ?_, Int.tmod_nonneg b, fun ha => ?_⟩
  · rw [Int.abs_eq_natAbs, Int.abs_eq_natAbs, Int.natAbs_tmod]
    exact_mod_cast Nat.mod_lt _ (Int.natAbs_pos.2 hb)
  · have hneg := Int.tmod_nonneg b (a := -a) (by omega)
    rw [Int.neg_tmod] at hneg
    omega

section Signed
variable {a b : Word} (hb : b ≠ 0) (hover : ¬ (a = 0x80000000#32 ∧ b = 0xFFFFFFFF#32))
include hb hover

theorem toInt_divSigned : (divSigned a b).toInt = a.toInt.tdiv b.toInt := by
  have hsdiv := BitVec.toInt_sdiv_of_ne_or_ne a b (not_and_or.1 hover)
  rw [divSigned, if_neg hb, if_neg hover, ← hsdiv, BitVec.ofInt_toInt]

theorem toInt_remSigned : (remSigned a b).toInt = a.toInt.tmod b.toInt := by
  rw [remSigned, if_neg hb, if_neg hover, ← Int.tmod_def, ← BitVec.toInt_srem, BitVec.ofInt_toInt]

end Signed

theorem divSigned_zero (a : Word) : divSigned a 0 = 0xFFFFFFFF#32 := if_pos rfl

theorem remSigned_zero (a : Word) : remSigned a 0 = a := if_pos rfl

theorem divSigned_overflow : divSigned 0x80000000#32 0xFFFFFFFF#32 = 0x80000000#32 := rfl

theorem remSigned_overflow : remSigned 0x80000000#32 0xFFFFFFFF#32 = 0 := rfl

theorem toInt_ne_zero {b : Word} (hb : b ≠ 0) : b.toInt ≠ 0 := fun h => hb (BitVec.eq_of_toInt_eq h)

/-- Settles O21: the edge cases are the functions' first two branches; else the quotient and the remainder are those of
`truncatedDivision_tdiv_tmod`. -/
theorem signedDivisionTruncates : Obligations.SignedDivisionTruncates := by
  refine ⟨.of_row divSigned opRow_div (fun _ _ _ _ => rfl) fun a b => ⟨?_, ?_, fun hb hover => ?_⟩,
    .of_row remSigned opRow_rem (fun _ _ _ _ => rfl) fun a b => ⟨?_, ?_, fun hb hover => ?_⟩⟩
  · rintro rfl; exact divSigned_zero a
  · rintro rfl rfl; exact divSigned_overflow
  · rw [toInt_divSigned hb hover]
    exact ⟨_, truncatedDivision_tdiv_tmod _ (toInt_ne_zero hb)⟩
  · rintro rfl; exact remSigned_zero a
  · rintro rfl rfl; exact remSigned_overflow
  · rw [toInt_remSigned hb hover]
    exact ⟨_, truncatedDivision_tdiv_tmod _ (toInt_ne_zero hb)⟩

/-! ### Recombination (R170) -/

theorem mul_divSigned_add_remSigned (a b : Word) : b * divSigned a b + remSigned a b = a := by
  by_cases hb : b = 0
  · subst hb
    rw [remSigned_zero, show (0 : Word) = 0#32 from rfl, BitVec.zero_mul, BitVec.zero_add]
  by_cases hover : a = 0x80000000#32 ∧ b = 0xFFFFFFFF#32
  · obtain ⟨rfl, rfl⟩ := hover
    rfl
  · apply BitVec.eq_of_toInt_eq
    rw [BitVec.toInt_add, BitVec.toInt_mul, toInt_divSigned hb hover, toInt_remSigned hb hover, Int.bmod_add_bmod,
      Int.mul_tdiv_add_tmod, BitVec.toInt_bmod_cancel]

theorem mul_divUnsigned_add_remUnsigned (a b : Word) : b * divUnsigned a b + remUnsigned a b = a := by
  by_cases hb : b = 0
  · subst hb
    rw [remUnsigned, if_pos rfl, show (0 : Word) = 0#32 from rfl, BitVec.zero_mul, BitVec.zero_add]
  · apply BitVec.eq_of_toNat_eq
    rw [BitVec.toNat_add, BitVec.toNat_mul, toNat_divUnsigned a hb, toNat_remUnsigned a hb, Nat.mod_add_mod,
      Nat.div_add_mod, Nat.mod_eq_of_lt a.isLt]

/-- A register that is no `x0` reads what was written. -/
theorem State.x_setReg_same (s : State) {rd : RegIdx} (hrd : rd ≠ 0) (v : Word) : (s.setReg rd v).x rd = v :=
  (State.x_setReg s rd v rd).trans ((if_neg hrd).trans (if_pos rfl))

/-- Settles O23: the written values recombine, signed (`mul_divSigned_add_remSigned`) and unsigned. -/
theorem quotientAndRemainderRecombine : Obligations.QuotientAndRemainderRecombine := by
  intro s rd rs1 rs2 hrd
  refine ⟨⟨_, _, rfl, rfl, ?_⟩, ⟨_, _, rfl, rfl, ?_⟩⟩ <;>
    rw [State.x_advance, State.x_advance, s.x_setReg_same hrd, s.x_setReg_same hrd]
  · exact mul_divSigned_add_remSigned _ _
  · exact mul_divUnsigned_add_remUnsigned _ _

end Sys2Proof.Machine

/-! # Memory byte by byte (20_memory.md sections 2 to 4)

A write is known by the byte each address holds after it, a read by its bits; what wide and narrow accesses see of each other
follows bit by bit. -/

namespace Sys2Proof.Machine

/-! ### Bytes of a word and words of bytes -/

theorem byteOfWord_eq_ofNat (v : Word) (k : Nat) : byteOfWord v k = BitVec.ofNat 8 (v.toNat / 2 ^ (8 * k)) :=
  BitVec.eq_of_toNat_eq (by simp [byteOfWord, Nat.shiftRight_eq_div_pow])

theorem getLsbD_byteOfWord (v : Word) (k : Nat) {j : Nat} (hj : j < 8) :
    (byteOfWord v k).getLsbD j = v.getLsbD (8 * k + j) := by
  simp [byteOfWord, hj]

/-- A byte below the others counts once, the others 256 times. -/
theorem toNat_append_byte {n : Nat} (x : BitVec n) (b : Byte) : (x ++ b).toNat = b.toNat + 2 ^ 8 * x.toNat := by
  rw [BitVec.toNat_append, ← Nat.shiftLeft_add_eq_or_of_lt b.isLt, Nat.shiftLeft_eq]
  omega

theorem toNat_assemble_byte (b : Nat → Byte) : (assemble .byte b).toNat = (b 0).toNat := by
  rw [assemble, BitVec.toNat_setWidth_of_le (by decide)]

theorem toNat_assemble_half (b : Nat → Byte) : (assemble .half b).toNat = (b 0).toNat + 2 ^ 8 * (b 1).toNat := by
  rw [assemble, BitVec.toNat_setWidth_of_le (by decide), toNat_append_byte]

theorem toNat_assemble_word (b : Nat → Byte) : (assemble .word b).toNat =
    (b 0).toNat + 2 ^ 8 * (b 1).toNat + 2 ^ 16 * (b 2).toNat + 2 ^ 24 * (b 3).toNat := by
  rw [assemble, wordOfBytes, toNat_append_byte, toNat_append_byte, toNat_append_byte]
  omega

/-- Byte `k` of an access's value is the byte at its place `k` (R54). -/
theorem byteOfWord_loadVia (m : Memory) (loc : Word → Word) (width : Width) (a : Word) {k : Nat} (hk : k < width.bytes) :
    byteOfWord (m.loadVia loc width a) k = m.byteAt (loc (a + BitVec.ofNat 32 k)) := by
  apply BitVec.eq_of_getLsbD_eq
  intro j hj
  rw [getLsbD_byteOfWord _ _ hj, Memory.getLsbD_loadVia, if_pos (by omega)]
  congr 5 <;> omega

/-! ### Reads of the reference memory -/

theorem Memory.load_eq_assemble (m : Memory) (width : Width) (a : Word) :
    m.load width a = assemble width fun k => m.byteAt (BitVec.ofNat 32 (a.toNat + k)) := by
  have haddr (k : Nat) : BitVec.ofNat 32 (a.toNat + k) = a + BitVec.ofNat 32 k := by
    rw [BitVec.ofNat_add, BitVec.ofNat_toNat, BitVec.setWidth_eq]
  simp only [haddr]
  rfl

/-- Settles O12: the value of each width from its bytes (`toNat_assemble_word`), at addresses modulo 2^32. -/
theorem readsAreLittleEndian : Obligations.ReadsAreLittleEndian := by
  intro m a
  have hzero : BitVec.ofNat 32 (a.toNat + 0) = a := by rw [Nat.add_zero, BitVec.ofNat_toNat, BitVec.setWidth_eq]
  refine ⟨?_, ?_, ?_⟩ <;> rw [Memory.load_eq_assemble]
  · rw [toNat_assemble_byte, hzero]
  · rw [toNat_assemble_half, hzero]
  · rw [toNat_assemble_word, hzero]

/-! ### Writes of the reference memory -/

theorem Width.bytes_le_four (width : Width) : width.bytes ≤ 4 := by cases width <;> decide

/-- The addresses of an access are distinct. -/
theorem add_ofNat_ne (a : Word) {j k : Nat} (hj : j < 2 ^ 32) (hk : k < 2 ^ 32) (h : j ≠ k) :
    a + BitVec.ofNat 32 j ≠ a + BitVec.ofNat 32 k := by
  intro heq
  have := congrArg BitVec.toNat ((BitVec.add_right_inj a).1 heq)
  simp only [BitVec.toNat_ofNat, Nat.mod_eq_of_lt hj, Nat.mod_eq_of_lt hk] at this
  exact h this

/-- An address is the access's first and its distance from it. -/
theorem add_ofNat_sub (a c : Word) : a + BitVec.ofNat 32 (c - a).toNat = c := by
  rw [BitVec.ofNat_toNat, BitVec.setWidth_eq, BitVec.add_comm, BitVec.sub_add_cancel]

theorem sub_add_ofNat (a : Word) {k : Nat} (hk : k < 2 ^ 32) : (a + BitVec.ofNat 32 k - a).toNat = k := by
  rw [add_sub_cancel_left, BitVec.toNat_ofNat, Nat.mod_eq_of_lt hk]

/-- A write at its own addresses, byte by byte: those at a distance below its width, and no others (R54, R56). -/
theorem Memory.byteAt_storeVia_id (m : Memory) (width : Width) (a v c : Word) :
    (m.storeVia id width a v).byteAt c =
      if (c - a).toNat < width.bytes then byteOfWord v (c - a).toNat else m.byteAt c := by
  have hwidth := Width.bytes_le_four width
  split_ifs with hin
  · have hc := Memory.byteAt_storeBytes_inside m id a v width.bytes _ hin fun j hj hlt =>
      add_ofNat_ne a (by omega) (by omega) hlt.ne
    rwa [id, add_ofNat_sub] at hc
  · refine Memory.byteAt_storeBytes_outside m id a v c width.bytes fun k hk hc => hin ?_
    rwa [hc, id, sub_add_ofNat a (by omega)]

/-- Settles O13: by `Memory.byteAt_storeVia_id`. -/
theorem writesSetExactlyTheirBytes : Obligations.WritesSetExactlyTheirBytes :=
  fun m width a v c => (Memory.byteAt_storeVia_id m width a v c).trans (by rw [byteOfWord_eq_ofNat])

/-! ### Wide and narrow accesses (20_memory.md R61) -/

/-- The bits of a read of the reference memory. -/
theorem Memory.getLsbD_load (m : Memory) (width : Width) (a : Word) (j : Nat) :
    (m.load width a).getLsbD j =
      if j < 8 * width.bytes then (m.byteAt (a + BitVec.ofNat 32 (j / 8))).getLsbD (j % 8) else false :=
  Memory.getLsbD_loadVia m id width a j

theorem getLsbD_ofNat_div_mod (v : Word) (k n j : Nat) (hj : j < 32) :
    (BitVec.ofNat 32 (v.toNat / 2 ^ k % 2 ^ n)).getLsbD j = if j < n then v.getLsbD (k + j) else false := by
  rw [BitVec.getLsbD_ofNat, Nat.testBit_mod_two_pow, Nat.testBit_div_two_pow]
  simp [hj, BitVec.getLsbD, Nat.add_comm]

/-- The narrow read: each of its bytes is one the wide write stored. -/
theorem Memory.load_store_inside (m : Memory) {wide narrow : Width} (a v : Word) {k : Nat}
    (hk : k + narrow.bytes ≤ wide.bytes) :
    (m.store wide a v).load narrow (a + BitVec.ofNat 32 k) =
      BitVec.ofNat 32 (v.toNat / 2 ^ (8 * k) % 2 ^ (8 * narrow.bytes)) := by
  have hwide := Width.bytes_le_four wide
  apply BitVec.eq_of_getLsbD_eq
  intro j hj
  rw [Memory.getLsbD_load, getLsbD_ofNat_div_mod _ _ _ _ hj]
  split_ifs with hin
  · have haddr : a + BitVec.ofNat 32 k + BitVec.ofNat 32 (j / 8) = a + BitVec.ofNat 32 (k + j / 8) := by
      rw [BitVec.add_assoc, ← BitVec.ofNat_add]
    rw [haddr, Memory.store, Memory.byteAt_storeVia_id, sub_add_ofNat a (by omega), if_pos (by omega),
      getLsbD_byteOfWord _ _ (by omega)]
    congr 1
    omega
  · rfl

/-- The wide read: the narrow write's bytes at their place, the others as before. -/
theorem Memory.getLsbD_load_store_inside (m : Memory) {wide narrow : Width} (a v : Word) {k : Nat}
    (hk : k + narrow.bytes ≤ wide.bytes) (j : Nat) :
    ((m.store narrow (a + BitVec.ofNat 32 k) v).load wide a).getLsbD j =
      if 8 * k ≤ j ∧ j < 8 * (k + narrow.bytes) then v.getLsbD (j - 8 * k) else (m.load wide a).getLsbD j := by
  have hwide := Width.bytes_le_four wide
  rw [Memory.getLsbD_load, Memory.getLsbD_load]
  by_cases hj : j < 8 * wide.bytes
  · rw [if_pos hj, if_pos hj, Memory.store, Memory.byteAt_storeVia_id]
    by_cases hin : 8 * k ≤ j ∧ j < 8 * (k + narrow.bytes)
    · have hdist : (a + BitVec.ofNat 32 (j / 8) - (a + BitVec.ofNat 32 k)).toNat = j / 8 - k := by
        have haddr : a + BitVec.ofNat 32 (j / 8) = a + BitVec.ofNat 32 k + BitVec.ofNat 32 (j / 8 - k) := by
          rw [BitVec.add_assoc, ← BitVec.ofNat_add, Nat.add_sub_cancel' (by omega)]
        rw [haddr, sub_add_ofNat _ (by omega)]
      rw [hdist, if_pos (by omega), if_pos hin, getLsbD_byteOfWord _ _ (by omega)]
      congr 1
      omega
    · rw [if_neg hin, if_neg]
      intro hlt
      apply hin
      have hsum := add_ofNat_sub (a + BitVec.ofNat 32 k) (a + BitVec.ofNat 32 (j / 8))
      rw [BitVec.add_assoc, ← BitVec.ofNat_add] at hsum
      by_contra hne
      exact add_ofNat_ne a (by omega) (by omega) (by omega) hsum
  · rw [if_neg hj, if_neg hj, if_neg (by omega)]

/-- Settles O14: the narrow read by `Memory.load_store_inside`, the wide one by `Memory.getLsbD_load_store_inside`. -/
theorem mixedWidthAccessSeesBytes : Obligations.MixedWidthAccessSeesBytes :=
  fun m _ _ a v _ hk => ⟨m.load_store_inside a v hk, fun j _ => m.getLsbD_load_store_inside a v hk j⟩

/-! ### A wrapping window (20_memory.md R57) -/

section Wrap
variable {p : MemPolicy} {base size : Nat} (hw : p.window = some (base, size)) (ho : p.outOfRange = .wrap)
include hw ho

theorem admits_wrap (hpos : 0 < size) (width : Width) (a : Word) :
    admits p width a = true ↔ p.alignedOnly = false ∨ a.toNat % width.bytes = 0 := by
  simp [admits, hw, ho, hpos]

variable (hpos : 0 < size) (hend : base + size ≤ 2 ^ 32)
include hpos hend

theorem toNat_locate_wrap (a : Word) :
    (p.locate a).toNat = base + (a - BitVec.ofNat 32 base).toNat % size := by
  have hlt := Nat.mod_lt (a - BitVec.ofNat 32 base).toNat hpos
  rw [MemPolicy.locate_wrap hw ho, BitVec.toNat_ofNat, Nat.mod_eq_of_lt (by omega)]

/-- From the base up, the distance from the base modulo the size. -/
theorem toNat_locate_wrap_of_le {a : Word} (hbase : base ≤ a.toNat) :
    (p.locate a).toNat = base + (a.toNat - base) % size := by
  have hdist : (a - BitVec.ofNat 32 base).toNat = a.toNat - base := by
    have hsub := BitVec.toNat_sub_of_le (x := a) (y := BitVec.ofNat 32 base) (by
      rw [BitVec.le_def, BitVec.toNat_ofNat, Nat.mod_eq_of_lt (by omega)]; exact hbase)
    rw [hsub, BitVec.toNat_ofNat, Nat.mod_eq_of_lt (by omega)]
  rw [toNat_locate_wrap hw ho hpos hend, hdist]

end Wrap

/-- Settles O60: the place of an address is its distance from the base modulo the size (`toNat_locate_wrap`), and only alignment
is ever asked for (`admits_wrap`). -/
theorem wrappingMemoryStaysInside : Obligations.WrappingMemoryStaysInside := by
  intro p base size width a hw ho hpos hend
  refine ⟨?_, fun hbase hlt => ?_, fun hbase hlt => ?_, admits_wrap hw ho hpos width a⟩
  · have := Nat.mod_lt (a - BitVec.ofNat 32 base).toNat hpos
    rw [toNat_locate_wrap hw ho hpos hend]
    omega
  · apply BitVec.eq_of_toNat_eq
    rw [toNat_locate_wrap_of_le hw ho hpos hend hbase, Nat.mod_eq_of_lt (by omega)]
    omega
  · apply BitVec.eq_of_toNat_eq
    have hsum : (a + BitVec.ofNat 32 size).toNat = a.toNat + size := by
      rw [BitVec.toNat_add, BitVec.toNat_ofNat, Nat.add_mod_mod, Nat.mod_eq_of_lt hlt]
    rw [toNat_locate_wrap_of_le hw ho hpos hend hbase, toNat_locate_wrap_of_le hw ho hpos hend (by omega), hsum,
      Nat.sub_add_comm hbase, Nat.add_mod_right]

end Sys2Proof.Machine

/-! # What an iteration keeps, and the invariant of a run (48_sequencer.md sections 1 and 3)

`Completes s t` says once what any instruction, recognised or not, keeps and what single transaction it may make; it follows
from the six shapes. The order of a step's transactions, the growth of the logs and the invariant are read off it. -/

namespace Sys2Proof.Machine

/-! ### The one transaction of an instruction -/

/-- The transactions `new` between `s` and `t` are none or one, and the input index moves only with a byte read. -/
inductive Transacts (s t : State) : List Event → Prop where
  | silent (hin : t.inPos = s.inPos) : Transacts s t []
  | memRead (width : Width) (a v : Word) (hin : t.inPos = s.inPos) : Transacts s t [.memRead width a v]
  | memWrite (width : Width) (a v : Word) (hin : t.inPos = s.inPos) : Transacts s t [.memWrite width a v]
  | inputByte (b : Byte) (hlt : s.inPos < s.input.length) (hin : t.inPos = s.inPos + 1) : Transacts s t [.inGet (some b)]
  | inputEnd (hin : t.inPos = s.inPos) : Transacts s t [.inGet none]
  | output (b : Byte) (hin : t.inPos = s.inPos) : Transacts s t [.outPut b]
  | diag (r : DiagRecord) (hkind : r.kind ≠ .malformedMSubcase) (hin : t.inPos = s.inPos) : Transacts s t [.diag r]

/-- What a completed instruction keeps, and the transactions it adds. -/
structure Completes (s t : State) : Prop where
  cfg : t.cfg = s.cfg
  input : t.input = s.input
  retired : t.retired = s.retired
  wf : s.mem.wf = true → t.mem.wf = true
  seen : ∀ p, s.cfg.mem = .array p → t.memSeen = s.memSeen
  transacts : ∃ new, t.events = s.events ++ new ∧ Transacts s t new

theorem service_completes (s : State) : Completes s (service s) := by
  obtain ⟨-, hmem, hret, hinp, hcfg, hseen, -⟩ := service_keeps s
  refine ⟨hcfg, hinp, hret, fun h => hmem ▸ h, fun _ _ => hseen, ?_⟩
  rcases service_cases s with ⟨b, -, hb, h⟩ | ⟨-, -, h⟩ | ⟨-, h⟩ | ⟨-, h⟩ | ⟨-, -, -, -, h⟩ <;> rw [h]
  · exact ⟨[.inGet (some b)], by simp, .inputByte b (List.getElem?_eq_some_iff.1 hb).1 (by simp)⟩
  · exact ⟨[.inGet none], by simp, .inputEnd (by simp)⟩
  · exact ⟨_, State.outPut_events .., .output _ rfl⟩
  · exact ⟨[], by simp, .silent rfl⟩
  · exact ⟨_, State.diag_events .., .diag _ (by simp) rfl⟩

theorem Transacts.congr {s t u : State} {new : List Event} (h : Transacts s t new) (hu : u.inPos = t.inPos) :
    Transacts s u new := by
  cases h with
  | silent hin => exact .silent (hu.trans hin)
  | memRead width a v hin => exact .memRead width a v (hu.trans hin)
  | memWrite width a v hin => exact .memWrite width a v (hu.trans hin)
  | inputByte b hlt hin => exact .inputByte b hlt (hu.trans hin)
  | inputEnd hin => exact .inputEnd (hu.trans hin)
  | output b hin => exact .output b (hu.trans hin)
  | diag r hkind hin => exact .diag r hkind (hu.trans hin)

theorem Completes.refl (s : State) : Completes s s :=
  ⟨rfl, rfl, rfl, id, fun _ _ => rfl, [], (List.append_nil _).symm, .silent rfl⟩

/-- The pc is none of what `Completes` speaks of. -/
theorem Completes.jump {s t : State} (h : Completes s t) (target : Word) : Completes s (t.jump target) := by
  obtain ⟨new, hev, htr⟩ := h.transacts
  exact ⟨h.cfg, h.input, h.retired, h.wf, h.seen, new, hev, htr.congr rfl⟩

/-- Neither is a register. -/
theorem Completes.setReg {s t : State} (h : Completes s t) (rd : RegIdx) (v : Word) : Completes s (t.setReg rd v) := by
  obtain ⟨new, hev, htr⟩ := h.transacts
  exact ⟨by simp [h.cfg], by simp [h.input], by simp [h.retired], by simpa using h.wf, by simpa using h.seen, new,
    by simp [hev], htr.congr (by simp)⟩

theorem emit_memRead_completes (s : State) (width : Width) (a v : Word) : Completes s (s.emit (.memRead width a v)) :=
  ⟨rfl, rfl, rfl, id, fun p hp => by simp [hp], _, State.emit_events .., .memRead _ _ _ rfl⟩

theorem stored_completes (s : State) (width : Width) (a v w : Word) :
    Completes s ({ s with mem := s.stored width a v }.emit (.memWrite width a w)) :=
  ⟨rfl, rfl, rfl, fun h => State.wf_stored h width a v, fun p hp => by simp [hp], _, State.emit_events ..,
    .memWrite _ _ _ rfl⟩

theorem exec_completes {i : Instr} {s t : State} (h : exec i s = .next t) : Completes s t := by
  cases exec_shape h with
  | write rd v => exact ((Completes.refl s).setReg rd v).jump _
  | link rd p => exact ((Completes.refl s).setReg rd _).jump p
  | branch taken offset => cases taken <;> exact (Completes.refl s).jump _
  | load width a rd v => exact ((emit_memRead_completes s width a _).setReg rd v).jump _
  | store width a v => exact (stored_completes s width a v _).jump _
  | service => exact (service_completes s).jump _

theorem dispatch_instr {bits : Word} {i : Instr} (h : decode bits = .instr i) (s : State) :
    dispatch bits s = exec i s := by simp only [dispatch, h]

theorem dispatch_unrecognised {bits : Word} (h : decode bits = .unrecognised) (s : State) :
    dispatch bits s = .next (s.diag .unrecognisedInstruction bits).advance := by
  simp only [dispatch, h, execUnrecognised_eq]

theorem dispatch_completes {bits : Word} {s t : State} (h : dispatch bits s = .next t) : Completes s t := by
  cases hd : decode bits with
  | instr i => exact exec_completes (dispatch_instr hd s ▸ h)
  | unrecognised =>
    rw [dispatch_unrecognised hd] at h
    cases h
    exact ⟨rfl, rfl, rfl, id, fun _ _ => by simp, _, State.diag_events .., .diag _ (by simp) rfl⟩

/-- A step is a fetch, a completed instruction and the count. -/
theorem step_completes {s t : State} (h : step s = .next t) : ∃ u, Completes s.fetched u ∧ t = u.retire := by
  obtain ⟨-, -, u, hu, rfl⟩ := step_next h
  exact ⟨u, dispatch_completes hu, rfl⟩

/-! ### The order of a step's transactions -/

theorem Transacts.length_le_one {s t : State} {new : List Event} (h : Transacts s t new) : new.length ≤ 1 := by
  cases h <;> simp

theorem Transacts.ne_trace {s t : State} {new : List Event} (h : Transacts s t new) :
    ∀ e ∈ new, ∀ r, e ≠ .trace r := by
  cases h <;> simp

/-- Settles O46: the fetch and the trace record are `State.fetched_events`, the instruction adds at most one transaction. -/
theorem oneFetchThenAtMostOneTransaction : Obligations.OneFetchThenAtMostOneTransaction := by
  intro s t h
  obtain ⟨u, hu, rfl⟩ := step_completes h
  obtain ⟨new, hev, htr⟩ := hu.transacts
  exact ⟨new, by rw [State.retire_events, hev, State.fetched_events], htr.length_le_one, htr.ne_trace⟩

/-! ### The logs -/

/-- No transaction of an instruction is a trace record. -/
theorem Transacts.filterMap_traceRecord {s t : State} {new : List Event} (h : Transacts s t new) :
    new.filterMap Event.traceRecord = [] := by
  rw [List.filterMap_eq_nil_iff]
  intro e he
  cases e with
  | trace r => exact absurd rfl (h.ne_trace _ he r)
  | _ => rfl

/-- An output byte, an input byte or a diagnostic, but no two of them. -/
theorem Transacts.count_le {s t : State} {new : List Event} (h : Transacts s t new) :
    (new.filterMap Event.outByte).length + t.inPos + (new.filterMap Event.diagRecord).length ≤ s.inPos + 1 := by
  cases h <;> simp [*, List.filterMap_cons, Nat.add_comm]

theorem Transacts.le_inPos {s t : State} {new : List Event} (h : Transacts s t new) : s.inPos ≤ t.inPos := by
  cases h <;> omega

theorem Transacts.inPos_le_length {s t : State} {new : List Event} (h : Transacts s t new)
    (hs : s.inPos ≤ s.input.length) : t.inPos ≤ s.input.length := by
  cases h <;> omega

/-- The decoder leaves no M sub-case open, so no category-3 record is emitted (46_system.md R259). -/
theorem Transacts.kind_ne {s t : State} {new : List Event} (h : Transacts s t new) :
    ∀ d ∈ new.filterMap Event.diagRecord, d.kind ≠ .malformedMSubcase := by
  cases h <;> simp [*, List.filterMap_cons]

/-- Settles O57: the parameters are kept, the instruction's transactions stand after the earlier ones, and the trace record
is the fetch's (`State.traceLog_fetched`). -/
theorem parametersFixedAndLogsAppendOnly : Obligations.ParametersFixedAndLogsAppendOnly := by
  intro s t h
  obtain ⟨u, hu, rfl⟩ := step_completes h
  obtain ⟨new, hev, htr⟩ := hu.transacts
  refine ⟨by simp [hu.cfg], by simp [hu.input], by simpa using htr.le_inPos, ⟨new.filterMap Event.outByte, ?_⟩,
    ⟨new.filterMap Event.diagRecord, ?_⟩, ?_⟩
  · rw [State.out_retire, State.out_append hev, State.out_fetched]
  · rw [State.diagLog_retire, State.diagLog_append hev, State.diagLog_fetched]
  · rw [State.traceLog_retire, State.traceLog_append hev, htr.filterMap_traceRecord, State.traceLog_fetched,
      List.append_nil]

/-! ### The invariant -/

/-- Settles O54: at reset the logs are empty, and so is what `MEM` has seen. -/
theorem resetEstablishesTheInvariant : Obligations.ResetEstablishesTheInvariant :=
  fun _ _ _ _ hwf => ⟨hwf, Nat.zero_le _, fun _ hd => (List.not_mem_nil hd).elim, fun _ => rfl, le_rfl, fun _ _ => rfl⟩

/-- Settles O55: field by field, from what the instruction keeps (`Completes`) and its one transaction (`Transacts`). -/
theorem stepKeepsTheInvariant : Obligations.StepKeepsTheInvariant := by
  intro s t ⟨hwf, hin, hkind, htrace, hcount, hseen⟩ h
  obtain ⟨u, hu, rfl⟩ := step_completes h
  obtain ⟨new, hev, htr⟩ := hu.transacts
  have hpos := htr.inPos_le_length (by simpa using hin)
  refine ⟨hu.wf (by simpa using hwf), by simpa [hu.input] using hpos, fun d hd => ?_, fun hen => ?_, ?_, fun p hp => ?_⟩
  · rw [State.diagLog_retire, State.diagLog_append hev, State.diagLog_fetched, List.mem_append] at hd
    exact hd.elim (hkind d) (htr.kind_ne d)
  · have hen' : s.cfg.traceEn = true := by simpa [hu.cfg] using hen
    rw [State.traceLog_retire, State.traceLog_append hev, htr.filterMap_traceRecord, State.traceLog_fetched, if_pos hen']
    simp [hu.retired, htrace hen']
  · have hone := htr.count_le
    rw [State.fetched_inPos] at hone
    rw [State.out_retire, State.out_append hev, State.out_fetched, State.diagLog_retire, State.diagLog_append hev,
      State.diagLog_fetched, List.length_append, List.length_append, State.retire_inPos, State.retire_retired, hu.retired,
      State.fetched_retired]
    omega
  · have hp' : s.cfg.mem = .array p := by simpa [hu.cfg] using hp
    simp [hu.seen p (by simpa using hp'), hp', hseen p hp']

/-! ### The counter (10_state.md R33, 48_sequencer.md R277, R280) -/

theorem step_retired {s t : State} (h : step s = .next t) : t.retired = s.retired + 1 := by
  obtain ⟨u, hu, rfl⟩ := step_completes h
  rw [State.retire_retired, hu.retired, State.fetched_retired]

theorem step_cfg {s t : State} (h : step s = .next t) : t.cfg = s.cfg := by
  obtain ⟨u, hu, rfl⟩ := step_completes h
  rw [State.retire_cfg, hu.cfg, State.fetched_cfg]

/-- Settles O45: by induction on the run, one more with every step (`step_retired`). -/
theorem retiredCountsIterations : Obligations.RetiredCountsIterations := by
  intro n
  induction n with
  | zero => rintro s _ rfl; rfl
  | succ n ih =>
    rintro s t ⟨u, hu, ht⟩
    rw [ih u t ht, step_retired hu]
    omega

/-- A run keeps the parameters. -/
theorem Reaches.cfg_eq {n : Nat} {s t : State} (h : Reaches n s t) : t.cfg = s.cfg := by
  induction n generalizing s with
  | zero => rw [show t = s from h]
  | succ n ih =>
    obtain ⟨u, hu, ht⟩ := h
    rw [ih ht, step_cfg hu]

theorem State.count_unbounded {s : State} (h : s.cfg.cntW = .unbounded) : s.count = s.retired := by
  simp only [State.count, h]

theorem State.count_bits {s : State} {w : Nat} {hpos : 0 < w} (h : s.cfg.cntW = .bits w hpos) :
    s.count = if s.retired < 2 ^ w then s.retired else Config.freeCount w s.retired % 2 ^ w := by
  simp only [State.count, h]

/-- A counter of `w` bits reads a number of that width. -/
theorem State.count_lt {s : State} {w : Nat} {hpos : 0 < w} (h : s.cfg.cntW = .bits w hpos) : s.count < 2 ^ w := by
  rw [State.count_bits h]
  split_ifs with hlt
  · exact hlt
  · exact Nat.mod_lt _ (by positivity)

theorem State.result_halted {s : State} (h : s.runState = .halted) : s.result = some s.count := by
  simp only [State.result, h]

theorem State.result_running {s : State} (h : s.runState = .running) : s.result = none := by
  simp only [State.result, h]

/-- Settles O59: the iterations of a run from reset are its `retired`, which the counter reads exactly up to its width. -/
theorem counterOfEveryWidthCounts : Obligations.CounterOfEveryWidthCounts := by
  intro cfg entry image input n t h
  have hcfg : t.cfg = cfg := h.cfg_eq
  have hret : t.retired = n := (retiredCountsIterations n _ t h).trans (Nat.zero_add n)
  refine ⟨fun hw => ?_, fun w hpos hw => ?_, State.result_halted, State.result_running⟩
  · rw [State.count_unbounded (hcfg ▸ hw), hret]
  · have hw' : t.cfg.cntW = .bits w hpos := hcfg ▸ hw
    exact ⟨State.count_lt hw', fun hlt => by rw [State.count_bits hw', hret, if_pos hlt]⟩

end Sys2Proof.Machine

/-! # Reset, the register file, and the frame of every instruction

What the six shapes say of one component at a time: memory, the registers, the pc, the run state. -/

namespace Sys2Proof.Machine

/-! ### Reset and the register file (10_state.md sections 2 and 6) -/

theorem State.x_resetWith (cfg : Config) (entry : Word) (image : Memory) (input : List Byte) (r : RegIdx) :
    (State.resetWith cfg entry image input).x r = 0 := by
  simp [State.x, State.resetWith]

/-- Settles O10: every field of `State.resetWith`, the registers by `State.x_resetWith`. -/
theorem resetLeavesTheStatedValues : Obligations.ResetLeavesTheStatedValues :=
  fun cfg entry image input =>
    ⟨State.x_resetWith cfg entry image input, rfl, rfl, rfl, rfl, rfl, rfl, rfl, rfl, rfl, rfl, rfl, rfl⟩

theorem KeepsRest.setReg (s : State) (r : RegIdx) (v : Word) : KeepsRest s (s.setReg r v) [] := by
  simp [KeepsRest]

/-- Settles O11: read after write is `State.x_setReg`, and nothing but the registers changes. -/
theorem registerReadsTheLastWrite : Obligations.RegisterReadsTheLastWrite :=
  fun s r q v => ⟨State.x_setReg s r v q, State.setReg_zero s v, KeepsRest.setReg s r v, State.setReg_pc s r v⟩

/-! ### Memory (20_memory.md section 4) -/

theorem exec_mem_of_not_store {i : Instr} {s t : State} (h : exec i s = .next t) (hno : storesTo i s = none) :
    t.mem = s.mem := by
  cases exec_shape h with
  | write rd v => simp
  | link rd p => simp
  | branch taken offset => cases taken <;> rfl
  | load width a rd v => simp
  | store width a v hd hs => rw [hs] at hno; cases hno
  | service => exact (service_keeps s).2.1

/-- A store's memory is that of one write at the address it names. -/
theorem exec_mem_of_store {i : Instr} {s t : State} {ea : Word} {n : Nat} (h : exec i s = .next t)
    (hst : storesTo i s = some (ea, n)) : ∃ width v, n = width.bytes ∧ t.mem = s.stored width ea v := by
  cases exec_shape h with
  | write rd v hd hs | link rd p hd hs | branch taken offset hd hs | load width a rd v hd hs => rw [hs] at hst; cases hst
  | store width a v hd hs =>
    rw [hs] at hst
    cases hst
    exact ⟨width, v, rfl, rfl⟩
  | service hi => subst hi; cases hst

theorem State.stored_other {s : State} {object : Nat} (h : s.cfg.mem = .other object) (width : Width) (a v : Word) :
    s.stored width a v = s.mem := by
  simp only [State.stored, h]

/-- Settles O48: an instruction writes memory only as a store does, at the address it names. -/
theorem memoryFrameOfEveryInstruction : Obligations.MemoryFrameOfEveryInstruction := by
  intro i s t h
  refine ⟨exec_mem_of_not_store h, fun ea n hst a hout => ?_, fun object ho => ?_⟩
  · obtain ⟨width, v, rfl, hmem⟩ := exec_mem_of_store h hst
    rw [hmem, State.byteAt_stored_outside s width ea v a hout]
  · cases hst : storesTo i s with
    | none => exact exec_mem_of_not_store h hst
    | some p =>
      obtain ⟨width, v, -, hmem⟩ := exec_mem_of_store h hst
      rw [hmem, State.stored_other ho]

/-! ### Registers (10_state.md R24) -/

theorem exec_x_of_not_mem_dests {i : Instr} {s t : State} (h : exec i s = .next t) {r : RegIdx} (hr : r ∉ i.dests) :
    t.x r = s.x r := by
  cases exec_shape h with
  | write rd v hd | link rd p hd | load width a rd v hd =>
    rw [hd, List.mem_singleton] at hr
    simp [State.x_setReg_ne _ _ hr]
  | branch taken offset => cases taken <;> simp
  | store width a v => exact State.x_congr rfl r
  | service hi =>
    subst hi
    obtain ⟨-, -, -, -, -, -, hx⟩ := service_keeps s
    simp only [Instr.dests, List.mem_cons, List.not_mem_nil, or_false, not_or] at hr
    rw [State.x_advance, hx r hr.1 hr.2]

/-- Settles O49: by `exec_x_of_not_mem_dests`. -/
theorem registerFrameOfEveryInstruction : Obligations.RegisterFrameOfEveryInstruction :=
  fun _ _ _ h _ hr => exec_x_of_not_mem_dests h hr

/-- Settles O58: the frame for every register but `x0`, which reads 0 in every state. -/
theorem writesToX0AreDiscarded : Obligations.WritesToX0AreDiscarded := by
  intro s t i h hd hdests r
  obtain ⟨-, -, u, hu, rfl⟩ := step_next h
  rw [dispatch_instr hd] at hu
  refine ⟨State.x_zero _, ?_⟩
  by_cases hr : r = 0
  · subst hr; rfl
  · rw [State.x_retire, exec_x_of_not_mem_dests hu fun hmem => hr (List.mem_singleton.1 (hdests ▸ hmem)), State.x_fetched]

/-! ### The pc (45_jump_branch.md R242) -/

theorem next_pcPlus4 (s : State) : PcSelect.pcPlus4.next s = s.pc + 4 := (BitVec.add_def s.pc 4).symm

theorem next_selectBranch (taken : Bool) (offset : BitVec 13) (s : State) :
    (selectBranch taken offset).next s = if taken then s.pc + valueB offset else s.pc + 4 := by
  cases taken with
  | true => exact addr_eq s.pc offset
  | false => exact next_pcPlus4 s

theorem exec_pc {i : Instr} {s t : State} (h : exec i s = .next t) : t.pc = (pcSelect i s).next s := by
  cases exec_shape h with
  | write rd v hd hs hp | load width a rd v hd hs hp | store width a v hd hs hp => rw [hp, next_pcPlus4]; simp
  | link rd p hd hs hp => exact hp
  | branch taken offset hd hs hp => rw [hp, next_selectBranch]; cases taken <;> rfl
  | service hi =>
    subst hi
    rw [State.advance_pc, (service_keeps s).1]
    exact (next_pcPlus4 s).symm

/-- Settles O50: by `exec_pc`. -/
theorem nextPcIsTheMultiplexers : Obligations.NextPcIsTheMultiplexers := fun _ _ _ h => exec_pc h

/-- Adding an even offset keeps the parity of the pc: `2^32` is even, so the sum may wrap. -/
theorem even_ofInt_add {n : Nat} (pc : Word) (offset : BitVec (n + 1)) (hpc : pc.toNat % 2 = 0)
    (hoff : offset.toNat % 2 = 0) : (BitVec.ofInt 32 (pc.toNat + offset.toInt)).toNat % 2 = 0 := by
  have heven : offset.toInt % 2 = 0 := by
    rw [BitVec.toInt_eq_toNat_cond, pow_succ]
    split <;> omega
  rw [BitVec.toNat_ofInt]
  omega

theorem even_add_four {pc : Word} (hpc : pc.toNat % 2 = 0) : (pc + 4).toNat % 2 = 0 := by
  rw [BitVec.toNat_add, show (4 : Word).toNat = 4 from rfl]
  omega

/-- The multiplexer's pc is even for every instruction some word encodes: the offsets are, and `jalr` clears bit 0. -/
theorem even_next {i : Instr} {s : State} (hwf : i.wellFormed = true) (hpc : s.pc.toNat % 2 = 0) :
    ((pcSelect i s).next s).toNat % 2 = 0 := by
  have hplus : (PcSelect.pcPlus4.next s).toNat % 2 = 0 := by
    rw [next_pcPlus4]
    exact even_add_four hpc
  have hbranch {offset : BitVec 13} (taken : Bool) (h : (!offset.getLsbD 0) = true) :
      ((selectBranch taken offset).next s).toNat % 2 = 0 := by
    cases taken with
    | true => exact even_ofInt_add s.pc offset hpc (even_of_not_getLsbD_zero h)
    | false => exact hplus
  cases i with
  | jal rd offset => exact even_ofInt_add s.pc offset hpc (even_of_not_getLsbD_zero hwf)
  | jalr rd rs1 imm =>
    simp only [pcSelect, PcSelect.next, BitVec.toNat_ofNat]
    omega
  | beq rs1 rs2 offset | bne rs1 rs2 offset | blt rs1 rs2 offset | bge rs1 rs2 offset | bltu rs1 rs2 offset
  | bgeu rs1 rs2 offset => exact hbranch _ hwf
  | _ => exact hplus

/-- Settles O56: a recognised word is well formed, so its next pc is even; an unrecognised one goes on at `pc + 4`. -/
theorem pcStaysEven : Obligations.PcStaysEven := by
  intro s t hpc h
  obtain ⟨-, -, u, hu, rfl⟩ := step_next h
  rw [State.retire_pc]
  cases hd : decode (s.answer .word s.pc) with
  | instr i =>
    rw [dispatch_instr hd] at hu
    rw [exec_pc hu]
    exact even_next (isWordOf_of_decode hd).1 (by simpa using hpc)
  | unrecognised =>
    rw [dispatch_unrecognised hd] at hu
    cases hu
    rw [State.advance_pc, State.diag_pc, State.fetched_pc]
    exact even_add_four hpc

/-! ### The run state (46_system.md R254, R257) -/

/-- A service halts for its exit numbers, and at end-of-input where `EOF_HALTS_NOW`. -/
theorem service_halted {s : State} (hr : s.runState = .running) (h : (service s).runState = .halted) :
    s.x 17 = 3 ∨ s.x 17 = 93 ∨ (s.x 17 = 1 ∧ s.input[s.inPos]? = none ∧ s.cfg.eofHaltsNow = true) := by
  rcases service_cases s with ⟨b, -, -, hs⟩ | ⟨h1, hend, hs⟩ | ⟨-, hs⟩ | ⟨hexit, -⟩ | ⟨-, -, -, -, hs⟩
  · simp [hs, hr] at h
  · refine .inr (.inr ⟨h1, hend, ?_⟩)
    by_contra hno
    simp [hs, serviceEof_runState, hno, hr] at h
  · simp [hs, hr] at h
  · exact hexit.imp id .inl
  · simp [hs, hr] at h

/-- Of a running state, only a service leaves Running. -/
theorem exec_halted {i : Instr} {s t : State} (h : exec i s = .next t) (hr : s.runState = .running)
    (ht : t.runState = .halted) : i = .ecall ∧ (service s).runState = .halted := by
  cases exec_shape h with
  | service hi => exact ⟨hi, ht⟩
  | branch taken offset => cases taken <;> simp [hr] at ht
  | write | link | load | store => simp [hr] at ht

/-- Settles O44: only a service halts (`exec_halted`), for the reasons of `service_halted`; the fetch changes none of them. -/
theorem onlyEcallHalts : Obligations.OnlyEcallHalts := by
  intro s t h ht
  obtain ⟨hr, -, u, hu, rfl⟩ := step_next h
  cases hd : decode (s.answer .word s.pc) with
  | instr i =>
    rw [dispatch_instr hd] at hu
    obtain ⟨rfl, hs⟩ := exec_halted hu (by simpa using hr) ht
    exact ⟨rfl, by simpa using service_halted (by simpa using hr) hs⟩
  | unrecognised =>
    rw [dispatch_unrecognised hd] at hu
    cases hu
    simp [hr] at ht

/-! ### When a step completes (48_sequencer.md R270, R279) -/

/-- Settles O41: a step of a running state whose fetch is served (`step_running`), with the decoded instruction dispatched. -/
theorem stepRunsTheDecodedInstruction : Obligations.StepRunsTheDecodedInstruction := by
  intro s i hr ha hd
  rw [step_running hr ha, dispatch_instr hd]
  rfl

/-- Settles O42: the two branches of `step` before any instruction. -/
theorem stepStopsWhenHaltedOrFetchRefused : Obligations.StepStopsWhenHaltedOrFetchRefused :=
  fun s => ⟨fun h => by simp only [step, h], fun hr ha => by simp only [step, hr, State.fetch_refused ha]⟩

/-- An instruction whose accesses `MEM` serves completes. -/
theorem exec_of_serves {s : State} (hread : ∀ width a, s.servesRead width a = true)
    (hwrite : ∀ width a v, s.servesWrite width a v = true) (i : Instr) : ∃ t, exec i s = .next t := by
  cases i with
  | lb _ _ _ | lh _ _ _ | lw _ _ _ | lbu _ _ _ | lhu _ _ _ => exact ⟨_, loadInto_served (hread _ _) _ _⟩
  | sb _ _ _ | sh _ _ _ | sw _ _ _ => exact ⟨_, storeTo_served (hwrite _ _ _)⟩
  | _ => exact ⟨_, rfl⟩

/-- Settles O43: the reference memory serves the fetch and every access after it; an unrecognised word makes none. -/
theorem everyRunningStateSteps : Obligations.EveryRunningStateSteps := by
  intro s hr hm
  have hm' : s.fetched.cfg.mem = .array .reference := by rw [State.fetched_cfg, hm]
  rw [step_running hr ((State.servesRead_array hm _ _).trans (admits_reference _ _))]
  cases hd : decode (s.answer .word s.pc) with
  | instr i =>
    obtain ⟨u, hu⟩ := exec_of_serves (s := s.fetched)
      (fun width a => (State.servesRead_array hm' width a).trans (admits_reference width a))
      (fun width a v => (State.servesWrite_array hm' width a v).trans (admits_reference width a)) i
    exact ⟨u.retire, by rw [dispatch_instr hd, hu]; rfl⟩
  | unrecognised => exact ⟨_, by rw [dispatch_unrecognised hd]; rfl⟩

end Sys2Proof.Machine

/-! # What cannot influence an instruction (10_state.md R24, 48_sequencer.md R274, R277)

Two runs side by side: `Agree P s s'` says that the states agree but for the registers outside `P`, the counter, the logs and
the draw counter, and `SameEffect` that both runs then do the same. Every shared operation keeps `SameEffect`; an instruction
whose sources are all in `P` therefore has the same outcome in both. -/

namespace Sys2Proof.Machine

/-! ### Two states, and two runs from them -/

/-- Equal in everything an instruction reads, of the registers in those that satisfy `P`. -/
structure Agree (P : RegIdx → Prop) (s s' : State) : Prop where
  x : ∀ r, P r → s'.x r = s.x r
  pc : s'.pc = s.pc
  runState : s'.runState = s.runState
  mem : s'.mem = s.mem
  inPos : s'.inPos = s.inPos
  input : s'.input = s.input
  cfg : s'.cfg = s.cfg
  memSeen : s'.memSeen = s.memSeen

/-- `s` came to `t` as `s'` came to `t'`: the results agree, and the counter, the logs and the draw counter moved alike. -/
structure SameEffect (P : RegIdx → Prop) (s s' t t' : State) : Prop where
  agree : Agree P t t'
  retired : t.retired = s.retired
  retired' : t'.retired = s'.retired
  draws : t'.draws + s.draws = t.draws + s'.draws
  events : ∃ new, t.events = s.events ++ new ∧ t'.events = s'.events ++ new

/-- Both runs complete with the same effect, or both stop with the same fault. -/
inductive SameOutcome (P : RegIdx → Prop) (s s' : State) :
    Host.Outcome State Fault Refusal → Host.Outcome State Fault Refusal → Prop where
  | next {t t' : State} (h : SameEffect P s s' t t') : SameOutcome P s s' (.next t) (.next t')
  | fault (f : Fault) : SameOutcome P s s' (.fault f) (.fault f)

theorem Agree.mono {P Q : RegIdx → Prop} {s s' : State} (h : Agree P s s') (hQ : ∀ r, Q r → P r) : Agree Q s s' :=
  { h with x := fun r hr => h.x r (hQ r hr) }

theorem SameEffect.mono {P Q : RegIdx → Prop} {s s' t t' : State} (h : SameEffect P s s' t t') (hQ : ∀ r, Q r → P r) :
    SameEffect Q s s' t t' :=
  { h with agree := h.agree.mono hQ }

theorem SameOutcome.mono {P Q : RegIdx → Prop} {s s' : State} {o o' : Host.Outcome State Fault Refusal}
    (h : SameOutcome P s s' o o') (hQ : ∀ r, Q r → P r) : SameOutcome Q s s' o o' := by
  cases h with
  | next h => exact .next (h.mono hQ)
  | fault f => exact .fault f

section Operations
variable {P : RegIdx → Prop} {s s' t t' : State}

/-! ### The operations on the state keep `SameEffect` -/

theorem Agree.sameEffect (h : Agree P s s') : SameEffect P s s' s s' :=
  ⟨h, rfl, rfl, Nat.add_comm .., [], by simp⟩

theorem Agree.servesRead (h : Agree P s s') (width : Width) (a : Word) : s'.servesRead width a = s.servesRead width a :=
  State.servesRead_congr h.cfg h.mem h.memSeen width a

theorem Agree.answer (h : Agree P s s') (width : Width) (a : Word) : s'.answer width a = s.answer width a :=
  State.answer_congr h.cfg h.mem h.memSeen width a

theorem Agree.servesWrite (h : Agree P s s') (width : Width) (a v : Word) :
    s'.servesWrite width a v = s.servesWrite width a v :=
  State.servesWrite_congr h.cfg h.mem h.memSeen width a v

theorem Agree.stored (h : Agree P s s') (width : Width) (a v : Word) : s'.stored width a v = s.stored width a v :=
  State.stored_congr h.cfg h.mem width a v

/-- Whatever the two runs write to a register, the others still agree. -/
theorem SameEffect.setReg_forget (h : SameEffect P s s' t t') (rd : RegIdx) (v v' : Word) :
    SameEffect (fun r => P r ∧ r ≠ rd) s s' (t.setReg rd v) (t'.setReg rd v') where
  agree :=
    { x := fun r hr => by rw [State.x_setReg_ne _ _ hr.2, State.x_setReg_ne _ _ hr.2, h.agree.x r hr.1]
      pc := by simp [h.agree.pc]
      runState := by simp [h.agree.runState]
      mem := by simp [h.agree.mem]
      inPos := by simp [h.agree.inPos]
      input := by simp [h.agree.input]
      cfg := by simp [h.agree.cfg]
      memSeen := by simp [h.agree.memSeen] }
  retired := by simp [h.retired]
  retired' := by simp [h.retired']
  draws := by simp [h.draws]
  events := by simpa using h.events

/-- A register that both runs write with one value agrees afterwards. -/
theorem SameEffect.setReg (h : SameEffect P s s' t t') (rd : RegIdx) (v : Word) :
    SameEffect (fun r => P r ∨ r = rd) s s' (t.setReg rd v) (t'.setReg rd v) := by
  have hforget := h.setReg_forget rd v v
  refine { hforget with agree := { hforget.agree with x := fun r hr => ?_ } }
  rw [State.x_setReg, State.x_setReg]
  split_ifs with h0 hrd
  · rfl
  · rfl
  · exact h.agree.x r (hr.resolve_right hrd)

theorem SameEffect.jump (h : SameEffect P s s' t t') (target : Word) :
    SameEffect P s s' (t.jump target) (t'.jump target) :=
  { h with agree := { h.agree with x := fun r hr => by simp [h.agree.x r hr], pc := rfl } }

theorem SameEffect.advance (h : SameEffect P s s' t t') : SameEffect P s s' t.advance t'.advance := by
  rw [State.advance, State.advance, h.agree.pc]
  exact h.jump _

theorem SameEffect.halt (h : SameEffect P s s' t t') : SameEffect P s s' t.halt t'.halt :=
  { h with agree := { h.agree with x := fun r hr => by simp [h.agree.x r hr], runState := rfl } }

theorem SameEffect.withMem (h : SameEffect P s s' t t') (m : Memory) :
    SameEffect P s s' { t with mem := m } { t' with mem := m } :=
  { h with agree := { h.agree with x := h.agree.x, mem := rfl } }

theorem SameEffect.withInPos (h : SameEffect P s s' t t') (n : Nat) :
    SameEffect P s s' { t with inPos := n } { t' with inPos := n } :=
  { h with agree := { h.agree with x := h.agree.x, inPos := rfl } }

/-- A draw advances both draw counters. -/
theorem SameEffect.draw (h : SameEffect P s s' t t') :
    SameEffect P s s' { t with draws := t.draws + 1 } { t' with draws := t'.draws + 1 } :=
  { h with agree := { h.agree with x := h.agree.x }, draws := by have := h.draws; simp only; omega }

theorem SameEffect.emit (h : SameEffect P s s' t t') (e : Event) : SameEffect P s s' (t.emit e) (t'.emit e) := by
  obtain ⟨new, hev, hev'⟩ := h.events
  refine { h with
    agree := { h.agree with x := fun r hr => by simp [h.agree.x r hr], memSeen := ?_ }, events := ⟨new ++ [e], ?_, ?_⟩ }
  · simp [h.agree.memSeen, h.agree.cfg]
  · simp [hev]
  · simp [hev']

/-! ### The completions keep it -/

theorem writeBack_same (h : Agree P s s') {v v' : Word} (hv : v' = v) (rd : RegIdx) :
    SameOutcome (fun r => P r ∨ r = rd) s s' (writeBack rd v s) (writeBack rd v' s') := by
  subst hv
  exact .next (h.sameEffect.setReg rd v').advance

theorem linkAndJump_same (h : Agree P s s') {target target' : Word} (ht : target' = target) (rd : RegIdx) :
    SameOutcome (fun r => P r ∨ r = rd) s s' (linkAndJump rd target s) (linkAndJump rd target' s') := by
  subst ht
  rw [linkAndJump, linkAndJump, h.pc]
  exact .next ((h.sameEffect.setReg rd _).jump target')

theorem branchIf_same (h : Agree P s s') {taken taken' : Bool} (ht : taken' = taken) (offset : BitVec 13) :
    SameOutcome P s s' (branchIf taken offset s) (branchIf taken' offset s') := by
  subst ht
  rw [branchIf, branchIf, h.pc]
  cases taken' with
  | true => exact .next (h.sameEffect.jump _)
  | false => exact .next h.sameEffect.advance

theorem loadInto_same (h : Agree P s s') {a a' : Word} (ha : a' = a) (width : Width) (ext : Word → Word) (rd : RegIdx) :
    SameOutcome (fun r => P r ∨ r = rd) s s' (loadInto width ext rd a s) (loadInto width ext rd a' s') := by
  subst ha
  cases hserves : s.servesRead width a' with
  | true =>
    rw [loadInto_served hserves, loadInto_served ((h.servesRead ..).trans hserves), h.answer]
    exact .next ((h.sameEffect.emit _).setReg rd _).advance
  | false =>
    rw [loadInto_refused hserves, loadInto_refused ((h.servesRead ..).trans hserves)]
    exact .fault _

theorem storeTo_same (h : Agree P s s') {a a' v v' : Word} (ha : a' = a) (hv : v' = v) (width : Width) :
    SameOutcome P s s' (storeTo width a v s) (storeTo width a' v' s') := by
  subst ha hv
  cases hserves : s.servesWrite width a' v' with
  | true =>
    rw [storeTo_served hserves, storeTo_served ((h.servesWrite ..).trans hserves), h.stored]
    exact .next ((h.sameEffect.withMem _).emit _).advance
  | false =>
    rw [storeTo_refused hserves, storeTo_refused ((h.servesWrite ..).trans hserves)]
    exact .fault _

/-! ### The services keep it, but for a drawn `x10` -/

theorem eofResult_same (h : SameEffect P s s' t t') :
    SameEffect (fun r => P r ∧ (r = regA0 → t.cfg.eofA0 ≠ .anyValue)) s s' (eofResult t) (eofResult t') := by
  have hcfg := h.agree.cfg
  rcases eofResult_cases t with ⟨hp, ht⟩ | ⟨hp, ht⟩ | ⟨v, hp, ht⟩ <;>
    rcases eofResult_cases t' with ⟨hp', ht'⟩ | ⟨hp', ht'⟩ | ⟨v', hp', ht'⟩ <;>
    rw [hcfg, hp] at hp' <;> cases hp' <;> rw [ht, ht']
  · exact (h.draw.setReg_forget ..).mono fun r hr => ⟨hr.1, fun hr0 => hr.2 hr0 hp⟩
  · exact h.mono fun r hr => hr.1
  · exact (h.setReg ..).mono fun r hr => .inl hr.1

theorem serviceEof_same (h : SameEffect P s s' t t') :
    SameEffect (fun r => P r ∧ (r = regA0 → t.cfg.eofA0 ≠ .anyValue)) s s' (serviceEof t) (serviceEof t') := by
  have hres := (eofResult_same (h.setReg regA7 (exitWord t.cfg.exitNum))).mono
    (Q := fun r => P r ∧ (r = regA0 → t.cfg.eofA0 ≠ .anyValue)) fun r hr => ⟨.inl hr.1, by simpa using hr.2⟩
  simp only [serviceEof, h.agree.cfg]
  split_ifs
  · exact hres.halt
  · exact hres

theorem service_same (h : Agree P s s') (h0 : P regA0) (h7 : P regA7) :
    SameEffect (fun r => P r ∧ (r = 10 → ¬ DrawsA0 .ecall s)) s s' (service s) (service s') := by
  have hx0 := h.x _ h0
  have hx7 := h.x _ h7
  have hnext : s'.input[s'.inPos]? = s.input[s.inPos]? := by rw [h.input, h.inPos]
  rcases service_cases s with ⟨b, h1, hb, hs⟩ | ⟨h1, hend, hs⟩ | ⟨h2, hs⟩ | ⟨h3, hs⟩ | ⟨n1, n2, n3, n93, hs⟩ <;> rw [hs]
  · rw [service_read (hx7.trans h1) (hnext.trans hb), h.inPos]
    exact (((h.sameEffect.withInPos _).emit _).setReg ..).mono fun r hr => .inl hr.1
  · rw [service_eof (hx7.trans h1) (hnext.trans hend)]
    exact (serviceEof_same (h.sameEffect.emit _)).mono fun r hr => ⟨hr.1, fun hr0 hany => hr.2 hr0 ⟨rfl, h1, hend, hany⟩⟩
  · rw [service_write (hx7.trans h2), hx0]
    exact (h.sameEffect.emit _).mono fun r hr => hr.1
  · rw [service_halt (by rwa [hx7])]
    exact h.sameEffect.halt.mono fun r hr => hr.1
  · rw [service_unknown (by rwa [hx7]) (by rwa [hx7]) (by rwa [hx7]) (by rwa [hx7]), hx7, State.diag, State.diag, h.pc]
    exact (h.sameEffect.emit _).mono fun r hr => hr.1

end Operations

/-! ### Every instruction keeps it -/

/-- Two states that agree on an instruction's sources have the same outcome, which agrees on its destinations too; a drawn
`x10` apart. -/
theorem exec_same {P : RegIdx → Prop} {s s' : State} (h : Agree P s s') {i : Instr} (hsrc : ∀ r ∈ i.sources, P r) :
    SameOutcome (fun r => (P r ∨ r ∈ i.dests) ∧ (r = 10 → ¬ DrawsA0 i s)) s s' (exec i s) (exec i s') := by
  have hdest {rd : RegIdx} {o o'} (hrd : i.dests = [rd]) (ho : SameOutcome (fun r => P r ∨ r = rd) s s' o o') :
      SameOutcome (fun r => (P r ∨ r ∈ i.dests) ∧ (r = 10 → ¬ DrawsA0 i s)) s s' o o' :=
    ho.mono fun r hr => hr.1.imp_right fun hmem => List.mem_singleton.1 (hrd ▸ hmem)
  have hnone {o o'} (hrd : i.dests = []) (ho : SameOutcome P s s' o o') :
      SameOutcome (fun r => (P r ∨ r ∈ i.dests) ∧ (r = 10 → ¬ DrawsA0 i s)) s s' o o' :=
    ho.mono fun r hr => hr.1.resolve_right fun hmem => List.not_mem_nil (hrd ▸ hmem)
  have hx {r : RegIdx} (hr : r ∈ i.sources) : s'.x r = s.x r := h.x r (hsrc r hr)
  cases i with
  | lui rd u => exact hdest rfl (writeBack_same h rfl rd)
  | auipc rd u => exact hdest rfl (writeBack_same h (by rw [h.pc]) rd)
  | jal rd offset => exact hdest rfl (linkAndJump_same h (by rw [jalTarget, jalTarget, h.pc]) rd)
  | jalr rd rs1 imm => exact hdest rfl (linkAndJump_same h (by rw [jalrTarget, jalrTarget, hx (.head _)]) rd)
  | lb rd rs1 imm | lh rd rs1 imm | lw rd rs1 imm | lbu rd rs1 imm | lhu rd rs1 imm =>
    exact hdest rfl (loadInto_same h (by rw [loadAddr, loadAddr, hx (.head _)]) _ _ rd)
  | sb rs2 rs1 imm | sh rs2 rs1 imm | sw rs2 rs1 imm =>
    exact hnone rfl (storeTo_same h (by rw [storeAddr, storeAddr, hx (.head _)]) (hx (.tail _ (.head _))) _)
  | beq rs1 rs2 offset | bne rs1 rs2 offset | blt rs1 rs2 offset | bge rs1 rs2 offset | bltu rs1 rs2 offset
  | bgeu rs1 rs2 offset =>
    exact hnone rfl (branchIf_same h (by rw [hx (.head _), hx (.tail _ (.head _))]) offset)
  | ecall =>
    exact .next ((service_same h (hsrc _ (.head _)) (hsrc _ (.tail _ (.head _)))).advance.mono fun r hr =>
      ⟨hr.1.elim id fun hmem => hsrc r hmem, hr.2⟩)
  | addi rd rs1 imm | slti rd rs1 imm | sltiu rd rs1 imm | xori rd rs1 imm | ori rd rs1 imm | andi rd rs1 imm
  | slli rd rs1 imm | srli rd rs1 imm | srai rd rs1 imm =>
    exact hdest rfl (writeBack_same h (by rw [hx (.head _)]) rd)
  | add rd rs1 rs2 | sub rd rs1 rs2 | sll rd rs1 rs2 | slt rd rs1 rs2 | sltu rd rs1 rs2 | xor rd rs1 rs2
  | srl rd rs1 rs2 | sra rd rs1 rs2 | or rd rs1 rs2 | and rd rs1 rs2 | mul rd rs1 rs2 | mulh rd rs1 rs2
  | mulhsu rd rs1 rs2 | mulhu rd rs1 rs2 | div rd rs1 rs2 | divu rd rs1 rs2 | rem rd rs1 rs2 | remu rd rs1 rs2 =>
    exact hdest rfl (writeBack_same h (by rw [hx (.head _), hx (.tail _ (.head _))]) rd)

/-! ### The two statements -/

/-- Writing one register and moving the draw counter leaves the rest in agreement. -/
theorem agree_setReg_withDraws (s : State) (r : RegIdx) (v : Word) (d : Nat) :
    Agree (· ≠ r) s { s.setReg r v with draws := d } where
  x _ hq := State.x_setReg_ne s v hq
  pc := State.setReg_pc s r v
  runState := State.setReg_runState s r v
  mem := State.setReg_mem s r v
  inPos := State.setReg_inPos s r v
  input := State.setReg_input s r v
  cfg := State.setReg_cfg s r v
  memSeen := State.setReg_memSeen s r v

/-- Only `ecall` draws, and `x10` is among its sources. -/
theorem DrawsA0.mem_sources {i : Instr} {s : State} (h : DrawsA0 i s) : 10 ∈ i.sources := by
  rw [h.1]; decide

/-- Settles O51: all registers but one agree (`agree_setReg_withDraws`), so the outcome is the same (`exec_same`); that one is
written alike where it is a destination, and kept where it is none. -/
theorem unnamedRegisterCannotInfluence : Obligations.UnnamedRegisterCannotInfluence := by
  intro i s r v d hr
  have hsame := exec_same (agree_setReg_withDraws s r v d) (i := i) fun q hq hqr => hr (hqr ▸ hq)
  have hframe {t'} (ht' : exec i { s.setReg r v with draws := d } = .next t') := exec_x_of_not_mem_dests (r := r) ht'
  generalize exec i s = o, exec i { s.setReg r v with draws := d } = o' at hsame hframe ⊢
  cases hsame with
  | fault f => rfl
  | next h =>
    obtain ⟨new, hev, hev'⟩ := h.events
    refine ⟨fun q hq hdraw => h.agree.x q ⟨.inl hq, hdraw⟩, h.agree.pc, ?_, h.draws, ?_⟩
    · refine ⟨?_, h.agree.mem, h.agree.runState, ?_, h.agree.inPos, h.agree.input, h.agree.cfg, rfl, ?_⟩
      · simp [hev, hev']
      · simp [h.retired, h.retired']
      · simp [h.agree.memSeen]
    · split_ifs with hmem
      · exact h.agree.x r ⟨.inr hmem, fun hr10 hdraw => hr (hr10 ▸ hdraw.mem_sources)⟩
      · exact hframe rfl hmem

theorem agree_withCounters (s : State) (n d : Nat) (log : List Event) :
    Agree (fun _ => True) s { s with retired := n, events := log, draws := d } :=
  ⟨fun _ _ => rfl, rfl, rfl, rfl, rfl, rfl, rfl, rfl⟩

/-- Settles O52: the two states agree in every register, so the outcome is the same (`exec_same`). -/
theorem counterAndLogsCannotInfluence : Obligations.CounterAndLogsCannotInfluence := by
  intro i s n d log
  have hsame := exec_same (agree_withCounters s n d log) (i := i) fun _ _ => trivial
  generalize exec i s = o, exec i { s with retired := n, events := log, draws := d } = o' at hsame ⊢
  cases hsame with
  | fault f => rfl
  | next h =>
    refine ⟨?_, fun q hq => h.agree.x q ⟨.inl trivial, hq⟩, h.retired, h.draws, h.events⟩
    exact State.ext_x (fun _ => rfl) h.agree.pc h.agree.runState h.retired' h.agree.mem h.agree.inPos rfl h.agree.input
      h.agree.cfg rfl h.agree.memSeen

end Sys2Proof.Machine

/-! # Loads and stores (43_load_store.md)

Every load is one row of the decoder's LOAD table and one extension of the answer that `loadInto` completes with; every store
is one row of the STORE table that `storeTo` completes with. -/

namespace Sys2Proof.Machine

/-! ### Refused accesses (20_memory.md R57) -/

/-- Settles O15: at the address each instruction forms, the refusing branch of `loadInto` and of `storeTo`. -/
theorem refusedAccessStops : Obligations.RefusedAccessStops := by
  rintro s rd rs1 rs2 imm _ rfl
  rw [← loadAddr_eq]
  exact ⟨fun h => ⟨loadInto_refused h _ rd, loadInto_refused h _ rd⟩, fun h => storeTo_refused h,
    fun h => ⟨loadInto_refused h _ rd, loadInto_refused h _ rd⟩, fun h => storeTo_refused h,
    fun h => loadInto_refused h _ rd, fun h => storeTo_refused h⟩

/-! ### Loads -/

/-- What a served load does: one read, the register write, the pc on to the next instruction, and nothing else. -/
theorem writesRd_load (s : State) (width : Width) (a v : Word) (rd : RegIdx) (w : Word) :
    WritesRd s ((s.emit (.memRead width a v)).setReg rd w).advance rd w (s.pc + 4) [.memRead width a v] :=
  ⟨fun r => by rw [State.x_advance, State.x_setReg, State.x_emit]; rfl, by simp, by simp [KeepsRest]⟩

/-- A load of the LOAD table whose extension is `f` of the answer's bytes has the rule of `f`. -/
theorem LoadRule.of_row {funct3 : BitVec 3} {mk : RegIdx → RegIdx → BitVec 12 → Instr} {width : Width}
    {f : (Nat → Byte) → Word} (ext : Word → Word) (hrow : LoadRow funct3 mk)
    (hexec : ∀ rd rs1 imm s, exec (mk rd rs1 imm) s = loadInto width ext rd (loadAddr s rs1 imm) s)
    (hext : ∀ v, ext v = f (byteOfWord v)) : LoadRule funct3 mk width f := by
  rintro rd rs1 imm s _ rfl
  rw [← loadAddr_eq]
  simp only [← byteOfWord_eq_ofNat]
  refine ⟨hrow.decode_encodeI rd rs1 imm,
    fun hserves => ⟨_, (hexec rd rs1 imm s).trans (loadInto_served hserves ext rd), ?_⟩, fun p hp k hk => ?_⟩
  · rw [← hext]
    exact writesRd_load s width _ _ rd _
  · rw [State.answer_array hp, byteOfWord_loadVia _ _ _ _ hk]

section Extensions
variable (v : Word)

theorem toNat_byteOfWord (k : Nat) : (byteOfWord v k).toNat = v.toNat / 2 ^ (8 * k) % 2 ^ 8 := by
  rw [byteOfWord_eq_ofNat, BitVec.toNat_ofNat]

theorem sext_byte : sext 8 v = BitVec.ofInt 32 (byteOfWord v 0).toInt := rfl

theorem sext_half : sext 16 v = BitVec.ofInt 32 ((byteOfWord v 0).toNat + 2 ^ 8 * (byteOfWord v 1).toInt) := by
  refine congrArg (BitVec.ofInt 32) ?_
  rw [BitVec.toInt_eq_toNat_cond, BitVec.toInt_eq_toNat_cond, toNat_byteOfWord, toNat_byteOfWord, BitVec.toNat_setWidth]
  omega

theorem eq_ofNat_of_bytes : v = BitVec.ofNat 32 ((byteOfWord v 0).toNat + 2 ^ 8 * (byteOfWord v 1).toNat +
    2 ^ 16 * (byteOfWord v 2).toNat + 2 ^ 24 * (byteOfWord v 3).toNat) := by
  rw [← toNat_assemble_word, assemble, wordOfBytes_byteOfWord, BitVec.ofNat_toNat, BitVec.setWidth_eq]

theorem zext_byte : zext 8 v = BitVec.ofNat 32 (byteOfWord v 0).toNat := by
  rw [zext_eq_ofNat_mod, toNat_byteOfWord, Nat.mul_zero, Nat.pow_zero, Nat.div_one]

theorem zext_half : zext 16 v = BitVec.ofNat 32 ((byteOfWord v 0).toNat + 2 ^ 8 * (byteOfWord v 1).toNat) := by
  rw [zext_eq_ofNat_mod, toNat_byteOfWord, toNat_byteOfWord]
  congr 1
  omega

end Extensions

/-- Settles O27: each load's extension, in terms of the answer's bytes. -/
theorem loadsExtendWhatMemoryHolds : Obligations.LoadsExtendWhatMemoryHolds :=
  ⟨.of_row _ loadRow_lb (fun _ _ _ _ => rfl) sext_byte, .of_row _ loadRow_lh (fun _ _ _ _ => rfl) sext_half,
    .of_row _ loadRow_lw (fun _ _ _ _ => rfl) eq_ofNat_of_bytes, .of_row _ loadRow_lbu (fun _ _ _ _ => rfl) zext_byte,
    .of_row _ loadRow_lhu (fun _ _ _ _ => rfl) zext_half⟩

/-! ### Stores -/

/-- Without a wrapping window a write's bytes are those at its own addresses. -/
theorem byteAt_stored_refuse {s : State} {p : MemPolicy} (hp : s.cfg.mem = .array p) (ho : p.outOfRange = .refuse)
    (width : Width) (a v c : Word) : (s.stored width a v).byteAt c =
      if (c - a).toNat < width.bytes then byteOfWord v (c - a).toNat else s.mem.byteAt c := by
  rw [State.stored_array hp, show p.locate = id from funext (MemPolicy.locate_refuse ho), Memory.byteAt_storeVia_id]

/-- A byte that an address of the write names, and no later one, is the value's byte. -/
theorem byteAt_stored_named {s : State} {p : MemPolicy} (hp : s.cfg.mem = .array p) (width : Width) (a v : Word) {k : Nat}
    (hk : k < width.bytes)
    (hlast : ∀ j < width.bytes, k < j → p.locate (a + BitVec.ofNat 32 k) ≠ p.locate (a + BitVec.ofNat 32 j)) :
    (s.stored width a v).byteAt (p.locate (a + BitVec.ofNat 32 k)) = byteOfWord v k := by
  rw [State.stored_array hp]
  exact Memory.byteAt_storeBytes_inside _ _ _ _ _ k hk hlast

/-- A store of the STORE table has the rule of its width. -/
theorem StoreRule.of_row {funct3 : BitVec 3} {mk : RegIdx → RegIdx → BitVec 12 → Instr} {width : Width}
    (hrow : StoreRow funct3 mk)
    (hexec : ∀ rs2 rs1 imm s, exec (mk rs2 rs1 imm) s = storeTo width (storeAddr s rs1 imm) (s.x rs2) s) :
    StoreRule funct3 mk width width.bytes := by
  rintro rs2 rs1 imm s _ rfl
  rw [← storeAddr_eq]
  simp only [← byteOfWord_eq_ofNat, ← zext_eq_ofNat_mod]
  refine ⟨hrow.decode_encodeS rs2 rs1 imm,
    fun hserves => ⟨_, (hexec rs2 rs1 imm s).trans (storeTo_served hserves), ?_, ?_, ?_, ?_, ?_, ?_⟩⟩
  · exact fun a hout => State.byteAt_stored_outside s width _ _ a hout
  · exact fun p hp ho a => byteAt_stored_refuse hp ho width _ _ a
  · exact fun p hp k hk hlast => byteAt_stored_named hp width _ _ hk hlast
  · exact fun r => State.x_congr rfl r
  · simp
  · simp [KeepsRest]

/-- Settles O28: three rows of the STORE table. -/
theorem storesWriteTheirBytesAlone : Obligations.StoresWriteTheirBytesAlone :=
  ⟨.of_row storeRow_sb fun _ _ _ _ => rfl, .of_row storeRow_sh fun _ _ _ _ => rfl, .of_row storeRow_sw fun _ _ _ _ => rfl⟩

/-! ### A store into the instruction stream (20_memory.md R67) -/

/-- A word written reads back where its four addresses name four bytes. -/
theorem Memory.loadVia_storeVia_word (m : Memory) (loc : Word → Word) (a v : Word)
    (hdistinct : ∀ j k : Nat, j < k → k < 4 → loc (a + BitVec.ofNat 32 j) ≠ loc (a + BitVec.ofNat 32 k)) :
    (m.storeVia loc .word a v).loadVia loc .word a = v := by
  have hbyte (k : Nat) (hk : k < 4) :
      (m.storeVia loc .word a v).byteAt (loc (a + BitVec.ofNat 32 k)) = byteOfWord v k :=
    Memory.byteAt_storeBytes_inside m loc a v 4 k hk fun j hj hkj => hdistinct k j hkj hj
  rw [Memory.loadVia, assemble, hbyte 0 (by decide), hbyte 1 (by decide), hbyte 2 (by decide), hbyte 3 (by decide),
    wordOfBytes_byteOfWord]

/-- Settles O53: the step leaves the stored memory and the pc at the word stored, which a fetch reads back. -/
theorem nextFetchSeesTheStore : Obligations.NextFetchSeesTheStore := by
  intro s t p rs2 rs1 imm hm hdistinct h hd hea
  obtain ⟨-, -, u, hu, rfl⟩ := step_next h
  rw [dispatch_instr hd] at hu
  obtain ⟨-, rfl⟩ := storeTo_next hu
  have haddr : storeAddr s.fetched rs1 imm = s.pc + 4 := by rw [storeAddr_eq, State.x_fetched, hea]
  have hm' : s.fetched.cfg.mem = .array p := by rw [State.fetched_cfg, hm]
  rw [State.answer_array (p := p) (by simpa using hm)]
  simp only [State.retire_mem, State.advance_mem, State.emit_mem, State.retire_pc, State.advance_pc, State.emit_pc,
    State.fetched_pc, haddr, State.stored_array hm', State.x_fetched]
  exact Memory.loadVia_storeVia_word _ _ _ _ hdistinct

end Sys2Proof.Machine

/-! # Services and unrecognised words (46_system.md sections 1 and 2)

A service is one of the five things of `service_cases`, with the pc advanced after it; an unrecognised word is one diagnostic,
after the fetch and the trace record. -/

namespace Sys2Proof.Machine

/-! ### Transactions one after the other -/

theorem KeepsRest.trans {s t u : State} {new more : List Event} (h : KeepsRest s t new) (h' : KeepsRest t u more) :
    KeepsRest s u (new ++ more) := by
  obtain ⟨hev, hmem, hrun, hret, hpos, hin, hcfg, hdraws, hseen⟩ := h
  obtain ⟨hev', hmem', hrun', hret', hpos', hin', hcfg', hdraws', hseen'⟩ := h'
  refine ⟨?_, hmem'.trans hmem, hrun'.trans hrun, hret'.trans hret, hpos'.trans hpos, hin'.trans hin, hcfg'.trans hcfg,
    hdraws'.trans hdraws, ?_⟩
  · rw [hev', hev, List.append_assoc]
  · rw [hseen', hseen, hcfg, MemModel.requests_append, List.append_assoc]

theorem WritesNoReg.trans {s t u : State} {next next' : Word} {new more : List Event} (h : WritesNoReg s t next new)
    (h' : WritesNoReg t u next' more) : WritesNoReg s u next' (new ++ more) := by
  obtain ⟨hx, -, hrest⟩ := h
  obtain ⟨hx', hpc', hrest'⟩ := h'
  exact ⟨fun r => (hx' r).trans (hx r), hpc', hrest.trans hrest'⟩

/-! ### The services -/

theorem exec_ecall_of_service {s u : State} (h : service s = u) : exec .ecall s = .next u.advance := by
  rw [exec_ecall, h]

/-- Settles O34: the byte is taken from the input and zero-extended into `x10` (`service_read`). -/
theorem ecallReadsOneCharacter : Obligations.EcallReadsOneCharacter := by
  intro s b h17 hb
  refine ⟨_, exec_ecall_of_service (service_read h17 hb), fun r => ?_, by simp, by simp, by simp [KeepsRest]⟩
  rw [State.x_advance]
  split_ifs with hr
  · subst hr
    rw [BitVec.ofNat_toNat]
    exact State.x_setReg_same _ (by decide) _
  · exact State.x_setReg_ne _ _ hr

theorem eofResult_unchanged {s : State} (h : s.cfg.eofA0 = .unchanged) : eofResult s = s := by simp only [eofResult, h]

theorem eofResult_pinned {s : State} {v : Word} (h : s.cfg.eofA0 = .pinned v) : eofResult s = s.setReg regA0 v := by
  simp only [eofResult, h]

theorem serviceEof_x10_unchanged {s : State} (h : s.cfg.eofA0 = .unchanged) : (serviceEof s).x 10 = s.x 10 := by
  rw [serviceEof_x, eofResult_unchanged (by simpa using h), State.x_setReg_ne _ _ (by decide)]

theorem serviceEof_x10_pinned {s : State} {v : Word} (h : s.cfg.eofA0 = .pinned v) : (serviceEof s).x 10 = v := by
  rw [serviceEof_x, eofResult_pinned (by simpa using h)]
  exact State.x_setReg_same _ (by decide) v

/-- Settles O35: field by field from `serviceEof`, after the request that found the input at its end. -/
theorem ecallAtEndOfInput : Obligations.EcallAtEndOfInput := by
  intro s h17 hend
  refine ⟨_, exec_ecall_of_service (service_eof h17 hend), ?_, fun r hr17 hr10 => ?_, fun v hv => ?_, fun hu => ?_, ?_,
    by simp, ?_, by simp [KeepsRest]⟩
  · refine (State.x_advance _ _).trans ((serviceEof_x17 _).trans ?_)
    rw [State.emit_cfg]
    cases s.cfg.exitNum <;> rfl
  · rw [State.x_advance, serviceEof_x_ne _ hr10 hr17, State.x_emit]
  · rw [State.x_advance, serviceEof_x10_pinned ((congrArg Config.eofA0 (State.emit_cfg ..)).trans hv)]
  · rw [State.x_advance, serviceEof_x10_unchanged ((congrArg Config.eofA0 (State.emit_cfg ..)).trans hu), State.x_emit]
  · rw [State.advance_runState, serviceEof_runState]; rfl
  · rw [State.advance_draws, serviceEof_draws]; rfl

theorem writesNoReg_outPut_advance (s : State) (b : Byte) : WritesNoReg s (s.outPut b).advance (s.pc + 4) [.outPut b] :=
  ⟨fun r => (State.x_advance _ r).trans (State.x_outPut s b r), by simp, by simp [KeepsRest]⟩

/-- Settles O36: one output byte, and nothing else before the pc advances (`service_write`). -/
theorem ecallWritesTheLowByte : Obligations.EcallWritesTheLowByte := by
  intro s h17
  have hlow : (s.x regA0).extractLsb' 0 8 = BitVec.ofNat 8 (s.x 10).toNat :=
    (byteOfWord_eq_ofNat _ 0).trans (by rw [Nat.mul_zero, Nat.pow_zero, Nat.div_one]; rfl)
  refine ⟨_, exec_ecall_of_service (service_write h17), ?_, ?_⟩ <;> rw [hlow]
  · exact writesNoReg_outPut_advance s _
  · rw [State.out_advance, State.out_outPut]

/-- Settles O37: the halt, and nothing else before the pc advances (`service_halt`). -/
theorem ecallHalts : Obligations.EcallHalts := by
  intro s h17
  exact ⟨_, exec_ecall_of_service (service_halt h17), rfl, fun r => State.x_congr rfl r, rfl, by simp [KeepsRest]⟩

/-- Settles O39: the record of the diagnostic that an unknown service is (`exec_ecall_unknown`). -/
theorem unknownServiceRecordHoldsPcAndNumber : Obligations.UnknownServiceRecordHoldsPcAndNumber := by
  intro s t h1 h2 h3 h93 h
  rw [exec_ecall_unknown h1 h2 h3 h93] at h
  cases h
  rw [State.diagLog_advance, State.diagLog_diag]

/-! ### Unrecognised words -/

/-- What the fetch and the trace record do before the instruction. -/
theorem writesNoReg_fetched (s : State) : WritesNoReg s s.fetched s.pc
    ([.memRead .word s.pc (s.answer .word s.pc)] ++
      if s.cfg.traceEn then [.trace { pc := s.pc, word := s.answer .word s.pc }] else []) := by
  refine ⟨State.x_fetched s, State.fetched_pc s, (State.fetched_events s).trans (List.append_assoc ..), by simp, by simp,
    by simp, by simp, by simp, by simp, by simp, ?_⟩
  rw [State.fetched_memSeen, MemModel.requests_append]
  cases s.cfg.traceEn <;> simp

/-- Taking the count of an iteration back leaves what the instruction left. -/
theorem State.retire_withRetired {u : State} {n : Nat} (h : u.retired = n) : { u.retire with retired := n } = u := by
  subst h; rfl

/-- Settles O40: the fetch and the trace record (`writesNoReg_fetched`), then one diagnostic (`writesNoReg_diag_advance`). -/
theorem unrecognisedWordIsReportedOnly : Obligations.UnrecognisedWordIsReportedOnly := by
  rintro s _ hr ha rfl hd
  have hrun : step s = .next (s.fetched.diag .unrecognisedInstruction (s.answer .word s.pc)).advance.retire := by
    rw [step_running hr ha, dispatch_unrecognised hd]; rfl
  refine ⟨_, hrun, by simp, ?_⟩
  rw [State.retire_withRetired (by simp)]
  have hdiag := writesNoReg_diag_advance s.fetched .unrecognisedInstruction (s.answer .word s.pc)
  rw [State.fetched_pc] at hdiag
  exact (writesNoReg_fetched s).trans hdiag

end Sys2Proof.Machine
